-- ==== Sys2Proof/Word.lean ====
section
/-! DEFINITION. The word types of the block (00_scope.md R8: every value is unsigned). -/

namespace Sys2Proof

/-- A byte of BUF or DATA (20_memory.md R44). -/
abbrev Byte := BitVec 8

/-- A u16: a raw sample, a mean, a maximum, the `value` field of a result word (00_scope.md R4). -/
abbrev Half := BitVec 16

/-- A u32: a command word, a result word, a register (30_encoding.md R60, 20_memory.md R49). -/
abbrev Word := BitVec 32

end Sys2Proof
end

