-- ==== Sys2Proof/Config.lean ====
section
/-! DEFINITION. What is fixed for the machine (00_scope.md R4), what the spec leaves as a parameter (R5), and the
values the spec leaves free, which have no body. -/

namespace Sys2Proof

/-! ### Parameters the source fixes (00_scope.md R4), each under its own name -/

/-- `NCH`: capsense channels, named A and B; a channel's index is below it and its successor is cyclic modulo it. -/
abbrev Config.nch : Nat := 2

/-- `WINDOW`: slots of the moving-average history. -/
abbrev Config.window : Nat := 16

/-- `SAMPLE_BITS`: width of a raw sample, of the mean and of the maximum. -/
abbrev Config.sampleBits : Nat := 16

/-- A raw sample, a mean, a maximum. -/
abbrev Sample := BitVec Config.sampleBits

/-- `QCAP`: frames the sample queue holds. -/
abbrev Config.qcap : Nat := 4

/-- `FIFO_BYTES`: capacity of the transmit FIFO in bytes, the length USB.WRITE and USB.READ truncate to. -/
abbrev Config.fifoBytes : Nat := 1536

/-- `FIFO_WORD`: bytes per FIFO word. -/
abbrev Config.fifoWord : Nat := 4

/-- A word of a FIFO: `FIFO_WORD` byte lanes. -/
abbrev FifoWord := BitVec (8 * Config.fifoWord)

/-- `FIFO_WORDS` = `FIFO_BYTES` / `FIFO_WORD`, derived. -/
abbrev Config.fifoWords : Nat := Config.fifoBytes / Config.fifoWord

/-- `EP_MAX_INDEX`: highest endpoint index of the data model, the bound of `EndpointAddress`. -/
abbrev Config.epMaxIndex : Nat := 3

/-- `EP_CEIL`: ceiling of each direction's allocation counter. -/
abbrev Config.epCeil : Nat := 3

/-- `ADDR_BITS`: width of the device address register. -/
abbrev Config.addrBits : Nat := 7

/-- `PRIO_IDLE` -/
abbrev Config.prioIdle : Nat := 0

/-- `PRIO_USB` -/
abbrev Config.prioUsb : Nat := 2

/-- `PRIO_TIMER` -/
abbrev Config.prioTimer : Nat := 3

/-- `PRIO_RTC` -/
abbrev Config.prioRtc : Nat := 4

/-- `QUIRK_ADDR_BEFORE_STATUS`: the capability flag the unit advertises. -/
abbrev Config.quirkAddrBeforeStatus : Bool := true

/-! ### Parameters the source leaves open (00_scope.md R5) and free values -/

/-- `RXFIFO_WORDS`: capacity of the receive FIFO in words (00_scope.md R5, D7). DESIGN CHOICE, log 7: safe for reads;
it bounds BUS.OUT only. -/
abbrev Config.rxFifoWords : Nat := 384

/-- `RESET_RELEASES_CTRL`, at the spec's default (00_scope.md R5, D13). DESIGN CHOICE, log 6: unsafe for hardware
whose reset keeps the control endpoints; the shared operation takes either value. -/
abbrev Config.resetReleasesCtrl : Bool := true

/-- `TRDTIM_VALUE`: any value of the 4-bit turnaround field (00_scope.md R5, 44_usb_control.md R122). DESIGN CHOICE,
log 5: safe, nothing constrains it. -/
opaque Config.trdtimValue : BitVec 4

/-- The interrupt flags the `n`-th draw leaves after a core soft reset (44_usb_control.md R136, U6). DESIGN CHOICE,
log 4: safe, a free value. -/
opaque Config.freeInts (n : Nat) : BitVec 4

/-- The word the `n`-th draw gives for a pop of an empty receive FIFO (20_memory.md R43, U2). DESIGN CHOICE, log 4:
safe, a free value. -/
opaque Config.freeWord (n : Nat) : FifoWord

/-- `USAGE_KEY_DOWN` (00_scope.md R4). -/
abbrev Config.usageKeyDown : Half := 0x00e2

/-- `USAGE_KEY_UP` (00_scope.md R4). -/
abbrev Config.usageKeyUp : Half := 0x0000

/-- `USB_VID`, recorded only (00_scope.md R1, R4). -/
abbrev Config.usbVid : Half := 0x1209

/-- `USB_PID`, recorded only (00_scope.md R1, R4). -/
abbrev Config.usbPid : Half := 0x70b1

end Sys2Proof
end

