-- ==== Sys2Proof/Syntax.lean ====
section
/-! DEFINITION. The commands of the block, one constructor per row of the opcode map (30_encoding.md R65). -/

namespace Sys2Proof

/-- A channel identifier (10_state.md R10). -/
inductive Channel where
  | A
  | B
  deriving DecidableEq, Repr

/-- The direction of an endpoint address (10_state.md R18). `inn` is the spec's In, `out` its Out. -/
inductive Dir where
  | out
  | inn
  deriving DecidableEq, Repr

/-- A command with its operands (30_encoding.md R60, R61). `idx`, `len` and `regno` are numbers; their ranges are
checked by `Instr.wf`. -/
inductive Instr where
  /-- 41_capsense_acquisition.md R81 -/
  | capMeasure
  /-- 41_capsense_acquisition.md R82 -/
  | capCapture
  /-- 41_capsense_acquisition.md R83 -/
  | tmrAck
  /-- 46_system.md R160 -/
  | sysRdreg (regno : Nat)
  /-- 42_filter.md R90 -/
  | fltPush (ch : Channel) (value : Half)
  /-- 42_filter.md R91 -/
  | fltRaw (ch : Channel)
  /-- 42_filter.md R92 -/
  | fltMean (ch : Channel)
  /-- 42_filter.md R93 -/
  | fltMax (ch : Channel)
  /-- 43_sample_queue.md R100 -/
  | qSplit
  /-- 43_sample_queue.md R101 -/
  | qEnq
  /-- 43_sample_queue.md R102 -/
  | qDeq
  /-- 43_sample_queue.md R103 -/
  | qLen
  /-- 44_usb_control.md R111 -/
  | usbEnable
  /-- 44_usb_control.md R129 -/
  | usbReset
  /-- 44_usb_control.md R130 -/
  | usbAlloc (dir : Dir) (idx : Nat)
  /-- 45_usb_fifo.md R141 -/
  | usbWrite (dir : Dir) (idx : Nat) (len : Nat)
  /-- 45_usb_fifo.md R143 -/
  | usbRead (dir : Dir) (idx : Nat) (len : Nat)
  /-- 44_usb_control.md R131 -/
  | usbSetaddr (addr8 : BitVec 8)
  /-- 44_usb_control.md R133 -/
  | usbSetstall (dir : Dir) (idx : Nat) (stalled : Bool)
  /-- 44_usb_control.md R134 -/
  | usbIsstalled (dir : Dir) (idx : Nat)
  /-- 44_usb_control.md R135 -/
  | usbPoll
  deriving DecidableEq, Repr

/-- The nine commands of the USB unit (44_usb_control.md R110). -/
def Instr.isUsb : Instr → Bool
  | .usbEnable | .usbReset | .usbAlloc .. | .usbWrite .. | .usbRead .. | .usbSetaddr _ | .usbSetstall ..
  | .usbIsstalled .. | .usbPoll => true
  | .capMeasure | .capCapture | .tmrAck | .sysRdreg _ | .fltPush .. | .fltRaw _ | .fltMean _ | .fltMax _ | .qSplit
  | .qEnq | .qDeq | .qLen => false

end Sys2Proof
end

