-- ==== Sys2Proof/Machine/State.lean ====
section
/-! DEFINITION. The state of the block and of what stands around it, as plain data (10_state.md), the reasons a step
can stop (60_exceptions.md R172, R173), and the state after hardware reset (70_reset_and_hazards.md R201). -/

namespace Sys2Proof.Machine

/-- The four contexts of the host (60_exceptions.md R178). -/
inductive Context where
  | idle
  | usb
  | timer
  | rtc
  deriving DecidableEq, Repr

/-- The phases of the acquisition (10_state.md R14). -/
inductive Phase where
  | idle
  | measuring
  | captured
  deriving DecidableEq, Repr

/-- The derived session phase (10_state.md R39, 45_usb_fifo.md R150). -/
inductive SessionPhase where
  | detached
  | default
  | addressed
  deriving DecidableEq, Repr

/-- The error results of a command (00_scope.md R7, 60_exceptions.md R170). -/
inductive ErrorResult where
  | invalidEndpoint
  | capacityExceeded
  | wouldBlock
  | alreadyAllocated
  | queueFull
  | empty
  deriving DecidableEq, Repr

/-- A pair of values, one per channel (10_state.md R10). -/
structure PerChannel (α : Type) where
  a : α
  b : α
  deriving DecidableEq, Repr

/-- A pair of values, one per direction (10_state.md R18). -/
structure PerDir (α : Type) where
  out : α
  inn : α
  deriving DecidableEq, Repr

/-- An endpoint address of the data model: a direction and an index in `0..=EP_MAX_INDEX`, 0 for control (10_state.md R18).
The index operand of a command is wider (44_usb_control.md R138). -/
structure EndpointAddress where
  dir : Dir
  idx : Fin (Config.epMaxIndex + 1)
  deriving DecidableEq, Repr

/-- The filter state of one channel (10_state.md R11). -/
structure FilterState where
  /-- `hist[0..15]`, the 16-slot circular sample history -/
  hist : Vector Sample Config.window
  /-- the write cursor, 0..15 -/
  cur : Fin Config.window
  /-- the last computed mean -/
  mean : Sample
  /-- the running maximum -/
  max : Sample
  deriving DecidableEq, Repr

/-- A snapshot of both filters (10_state.md R13). -/
structure CapsenseFrame where
  a : FilterState
  b : FilterState
  deriving DecidableEq, Repr

/-- The acquisition unit (10_state.md R14, R15). -/
structure Capsense where
  ch : Channel
  phase : Phase
  mux : Channel
  ttRun : Bool
  toRun : Bool
  cnt : Sample
  ovf : Bool
  deriving DecidableEq, Repr

/-- The sample queue (10_state.md R16). -/
structure SampleQueue where
  slot : Vector CapsenseFrame Config.qcap
  head : Fin Config.qcap
  tail : Fin Config.qcap
  /-- the number of frames held, 0..4 -/
  count : Fin (Config.qcap + 1)
  split : Bool
  deriving DecidableEq, Repr

/-- The PHY controls and the clock-ready bit (10_state.md R22, R23). -/
structure Phy where
  oscsel : Bool
  calen : Bool
  clkrec : Bool
  clksel : Bool
  lpdis : Bool
  phyen : Bool
  clkrdy : Bool
  deriving DecidableEq, Repr

/-- The USB endpoint unit (10_state.md R19 to R21, R24 to R32, R35). -/
structure Usb where
  csrst : Bool
  ahbidle : Bool
  trdtim : BitVec 4
  trdset : Bool
  /-- bit 0 USBRST, bit 1 ENUMDONE, bit 2 EP0IN, bit 3 EP0OUT (10_state.md R26) -/
  ints : BitVec 4
  /-- the same positions, 1 = unmasked (10_state.md R27) -/
  intm : BitVec 4
  ginten : Bool
  sftdiscon : Bool
  addr : BitVec Config.addrBits
  stall : PerDir Bool
  rxsize : BitVec 11
  txf : List FifoWord
  rxf : List FifoWord
  ctrlAlloc : PerDir Bool
  next : PerDir (Fin (Config.epCeil + 1))
  pend : PerDir Bool
  /-- steps of the running or last USB.ENABLE completed, 0..15 -/
  enStep : Fin 16
  enBusy : Bool
  linkOk : Bool
  /-- the model's own: who issued the running USB.ENABLE, to whom its result goes (log 9) -/
  enIssuer : Context
  deriving DecidableEq, Repr

/-- The bus's own hidden bit (10_state.md R35). -/
structure Bus where
  resetSeen : Bool
  deriving DecidableEq, Repr

/-- Bytes by index, in one canonical form: indices strictly rising, no byte equal to 0, which is what an unlisted
index reads as (log 8). -/
abbrev Memory := List Host.Cell

/-- The command port (10_state.md R38): the last command and its outputs, until the next command (log 20). -/
structure Port where
  /-- the model's own: the context that issued the last command -/
  issuer : Context
  cmd : Word
  buf : Memory
  /-- the result word, none while the command has produced none (a hold) -/
  res : Option Word
  data : List Byte
  deriving DecidableEq, Repr

/-- One step a handler takes by itself (60_exceptions.md R185, R186). -/
inductive HandlerStep where
  /-- a command with its buffer -/
  | cmd (word : Word) (buf : Memory)
  /-- the pend of the USB handler (R183) -/
  | pendUsb
  /-- the RTC handler's look at the Configured input, after its drain (R186) -/
  | reportIfConfigured
  deriving DecidableEq, Repr

/-- A context above Idle at work, and what it still does by itself (60_exceptions.md R180, R182). -/
structure Activation where
  ctx : Context
  todo : List HandlerStep
  deriving DecidableEq, Repr

/-- State of the surrounding software that the host contract speaks of (10_state.md section 7, 60_exceptions.md
R178 to R187). No command of the block reads it. -/
structure HostSide where
  /-- the boot code has not yet issued the first CAP.MEASURE (R187, log 12) -/
  boot : Bool
  /-- the owner of the queue's consumer port, once known (R184, log 13) -/
  consumer : Option Context
  /-- the holder of the USB unit's ceiling lock (R181, log 14) -/
  usbLock : Option Context
  /-- a software pend of the USB handler waits (R183, log 16) -/
  usbPend : Bool
  /-- the RTC compare flag (R177) -/
  rtcFlag : Bool
  /-- the input from the device core (R186) -/
  configured : Bool
  /-- the report emitter's latch (R186) -/
  latch : Bool
  /-- the contexts at work above Idle, the running one first; each was preempted by the one before it (R178, R179, R182) -/
  active : List Activation
  deriving DecidableEq, Repr

/-- The moves of the environment (00_scope.md R6) and power-on. -/
inductive EnvMove where
  /-- ENV.TICK (41_capsense_acquisition.md R84) -/
  | tick
  /-- ENV.TIMEOUT (R85) -/
  | timeout
  /-- ENV.CLKRDY (44_usb_control.md R127) -/
  | clkrdy
  /-- ENV.AHBIDLE (R127) -/
  | ahbidle
  /-- ENV.CRSTDONE (R127) -/
  | crstdone
  /-- BUS.RESET (45_usb_fifo.md R145) -/
  | busReset
  /-- BUS.ENUMDONE (R146) -/
  | busEnumdone
  /-- BUS.IN(k), a transfer addressed to `addr` (R147) -/
  | busIn (addr : BitVec Config.addrBits) (k : Nat)
  /-- BUS.OUT(ws, k), a transfer addressed to `addr` (R148) -/
  | busOut (addr : BitVec Config.addrBits) (ws : List FifoWord) (k : Nat)
  /-- hardware reset, with the bits the reset draws (70_reset_and_hazards.md R201, log 19) -/
  | hardwareReset (clkrdy ahbidle : Bool) (ints : BitVec 4)
  deriving DecidableEq, Repr

/-- What the host and the agents around it do beside issuing commands (60_exceptions.md R177 to R187). None has an
encoding. -/
inductive HostAct where
  /-- context `c` takes the USB unit's ceiling lock (R181) -/
  | lock (c : Context)
  /-- context `c` gives it back -/
  | unlock (c : Context)
  /-- a software-triggered run of the USB handler is requested (R183) -/
  | pendUsb
  /-- the RTC compare match (R177) -/
  | rtcMatch
  /-- the device core's Configured input (R186) -/
  | setConfigured (b : Bool)
  deriving DecidableEq, Repr

/-- One step of some agent, waiting until it can happen: a command with its issuing context and its buffer (30_encoding.md R60,
R68), an environment move, or an act of the host. -/
inductive Stimulus where
  | cmd (c : Context) (word : Word) (buf : Memory)
  | env (m : EnvMove)
  | host (a : HostAct)
  /-- the host goes on by itself: a handler starts, takes its next step, or ends (60_exceptions.md R179, R180, R182) -/
  | turn
  deriving DecidableEq, Repr

/-- Everything: the block (10_state.md), its command port, the host contract's state, and the agents' next steps. -/
structure State where
  flt : PerChannel FilterState
  cap : Capsense
  q : SampleQueue
  phy : Phy
  usb : Usb
  bus : Bus
  port : Port
  host : HostSide
  /-- the model's own: how many free values have been drawn (log 4) -/
  draws : Nat
  /-- what the agents do next, oldest first (log 1) -/
  inputs : List Stimulus
  deriving DecidableEq, Repr

/-- Hardware behaviour the source leaves undefined (60_exceptions.md R172). -/
inductive Fault where
  /-- raised by a push to a full transmit FIFO, reached only from USB.WRITE (20_memory.md R42). Safe: the model stops
  where hardware goes on in an unknown way. -/
  | txFifoOverflow
  deriving DecidableEq, Repr

/-- Which part of the host contract was broken (60_exceptions.md R173). -/
inductive Breach where
  /-- CAP.MEASURE in a phase other than Idle (41_capsense_acquisition.md R81) -/
  | measureOutsideIdle
  /-- CAP.CAPTURE in a phase other than Measuring (R82) -/
  | captureOutsideMeasuring
  /-- a second Q.SPLIT (43_sample_queue.md R100) -/
  | secondSplit
  /-- Q.ENQ or a B capture before Q.SPLIT (R101) -/
  | enqueueBeforeSplit
  /-- Q.DEQ before Q.SPLIT (R102) -/
  | dequeueBeforeSplit
  /-- a USB command while USB.ENABLE holds at a wait (44_usb_control.md R111) -/
  | usbWhileEnabling
  /-- a command on a port by a context that does not own it (60_exceptions.md R184) -/
  | notOwner
  /-- the USB lock taken while another holds the unit, or given back by one that does not hold it (R181) -/
  | lockDiscipline
  deriving DecidableEq, Repr

/-- Host actions the model gives no meaning (60_exceptions.md R173). -/
inductive Refusal where
  /-- raised by an arm of `exec` whose instruction has no meaning yet; no arm is left. Safe. -/
  | notModelled (mnemonic : String)
  /-- raised by the command port on a reserved command word (30_encoding.md R66). Safe. -/
  | illegalCommand
  /-- raised by SYS.RDREG of an undefined register number (46_system.md R160). Safe. -/
  | illegalRegister
  /-- raised by a breach of the host contract (60_exceptions.md R173). Safe. -/
  | hostProtocol (b : Breach)
  deriving DecidableEq, Repr

/-- The outcome of one step of the machine. -/
abbrev Result := Host.Outcome State Fault Refusal

/-- A filter after hardware reset (10_state.md R11). -/
def FilterState.reset : FilterState where
  hist := Vector.replicate Config.window 0
  cur := 0
  mean := 0
  max := 0

/-- The acquisition unit after hardware reset (10_state.md R14, R15). -/
def Capsense.reset : Capsense where
  ch := .A
  phase := .idle
  mux := .A
  ttRun := false
  toRun := false
  cnt := 0
  ovf := false

/-- The queue after hardware reset (10_state.md R16); the slots' contents are unspecified there. DESIGN CHOICE, log 3:
unsafe, zero frames. -/
def SampleQueue.reset : SampleQueue where
  slot := Vector.replicate Config.qcap ⟨FilterState.reset, FilterState.reset⟩
  head := 0
  tail := 0
  count := 0
  split := false

/-- The PHY after hardware reset, with the drawn clock-ready bit (10_state.md R22, R23). -/
def Phy.reset (clkrdy : Bool) : Phy where
  oscsel := false
  calen := false
  clkrec := false
  clksel := false
  lpdis := false
  phyen := false
  clkrdy := clkrdy

/-- The USB unit after hardware reset, with the drawn AHB-idle bit and interrupt flags (10_state.md R19 to R35,
70_reset_and_hazards.md R201). -/
def Usb.reset (ahbidle : Bool) (ints : BitVec 4) : Usb where
  csrst := false
  ahbidle := ahbidle
  trdtim := 0
  trdset := false
  ints := ints
  intm := 0
  ginten := false
  sftdiscon := true
  addr := 0
  stall := ⟨false, false⟩
  rxsize := 0
  txf := []
  rxf := []
  ctrlAlloc := ⟨false, false⟩
  next := ⟨0, 0⟩
  pend := ⟨false, false⟩
  enStep := 0
  enBusy := false
  linkOk := false
  enIssuer := .idle

/-- The command port before any command. DESIGN CHOICE, logs 8 and 20: unsafe, a port without a result. -/
def Port.reset : Port where
  issuer := .idle
  cmd := 0
  buf := []
  res := none
  data := []

/-- The host contract's state at boot: no handler runs. DESIGN CHOICE, logs 12 to 15: unsafe; the latch starts false by
60_exceptions.md R186. -/
def HostSide.reset : HostSide where
  boot := true
  consumer := none
  usbLock := none
  usbPend := false
  rtcFlag := false
  configured := false
  latch := false
  active := []

/-- Hardware reset for every value of the bits the spec draws (70_reset_and_hazards.md R201). -/
def State.resetWith (clkrdy ahbidle : Bool) (ints : BitVec 4) : State where
  flt := ⟨FilterState.reset, FilterState.reset⟩
  cap := Capsense.reset
  q := SampleQueue.reset
  phy := Phy.reset clkrdy
  usb := Usb.reset ahbidle ints
  bus := ⟨false⟩
  port := Port.reset
  host := HostSide.reset
  draws := 0
  inputs := []

/-- The machine right after hardware reset (70_reset_and_hazards.md R201). DESIGN CHOICE, log 2: unsafe; the three
drawn items (PHY_STAT.CLKRDY, CORE_RST.AHBIDLE, INT_STS) are 0 here, and any value by `EnvMove.hardwareReset`. -/
def State.reset : State := State.resetWith false false 0

end Sys2Proof.Machine
end

