-- ==== Sys2Proof/Machine/Flags.lean ====
section
/-! DEFINITION. The interrupt flags and the derived signals (10_state.md R26, R27, R39; 60_exceptions.md R175, R176). -/

namespace Sys2Proof.Machine

/-- `INT_STS.USBRST`, bit 0 (10_state.md R26). -/
def intUsbrst : BitVec 4 := 0x1

/-- `INT_STS.ENUMDONE`, bit 1. -/
def intEnumdone : BitVec 4 := 0x2

/-- `INT_STS.EP0IN`, bit 2. -/
def intEp0in : BitVec 4 := 0x4

/-- `INT_STS.EP0OUT`, bit 3. -/
def intEp0out : BitVec 4 := 0x8

/-- Whether any flag of `mask` is set in `ints`. -/
def anyFlag (ints mask : BitVec 4) : Bool := ints &&& mask != 0

/-- `ints` with the flags of `mask` set. -/
def setFlags (ints mask : BitVec 4) : BitVec 4 := ints ||| mask

/-- `ints` with the flags of `mask` cleared. -/
def clearFlags (ints mask : BitVec 4) : BitVec 4 := ints &&& ~~~mask

/-- `irq_usb` (10_state.md R39). -/
def irqUsb (s : State) : Bool := s.usb.ginten && anyFlag s.usb.ints s.usb.intm

/-- `irq_tmr` (10_state.md R39). -/
def irqTmr (s : State) : Bool := s.cap.ovf

/-- `presented` (10_state.md R39). -/
def presented (s : State) : Bool := s.usb.linkOk && !s.usb.sftdiscon

/-- `session_phase` (10_state.md R39, 45_usb_fifo.md R150). -/
def sessionPhase (s : State) : SessionPhase :=
  if !presented s then .detached else if s.usb.addr = 0 then .default else .addressed

end Sys2Proof.Machine
end

