-- ==== Sys2Proof/WellFormed.lean ====
section
/-! DEFINITION. Which operands the command word can carry (30_encoding.md R60, R61). -/

namespace Sys2Proof

/-- Every numeric operand fits its field: `idx` 4 bits (values above 3 are legal, 44_usb_control.md R138), `len` 16
bits, `regno` 8 bits (30_encoding.md R61). -/
def Instr.wf : Instr → Bool
  | .sysRdreg regno => regno < 256
  | .usbAlloc _ idx => idx < 16
  | .usbWrite _ idx len => idx < 16 && len < 65536
  | .usbRead _ idx len => idx < 16 && len < 65536
  | .usbSetstall _ idx _ => idx < 16
  | .usbIsstalled _ idx => idx < 16
  | .capMeasure | .capCapture | .tmrAck | .fltPush .. | .fltRaw _ | .fltMean _ | .fltMax _ | .qSplit | .qEnq | .qDeq
  | .qLen | .usbEnable | .usbReset | .usbSetaddr _ | .usbPoll => true

end Sys2Proof
end

