-- ==== Sys2Proof/Decode.lean ====
section
/-! DEFINITION. The command word: its fields, the decoder (total, rejecting by name), the encoder, and the opcode map
of 30_encoding.md R65. There is one fixed length and no byte order of fetch (R67, 20_memory.md R47, R56). -/

namespace Sys2Proof

/-- The five fields of format C (30_encoding.md R60). -/
structure Fields where
  op  : BitVec 8
  dir : BitVec 1
  z   : BitVec 3
  sel : BitVec 4
  arg : BitVec 16
  deriving DecidableEq, Repr

/-- Cut a command word at the bit positions of R60. -/
def Fields.ofWord (w : Word) : Fields where
  op := w.extractLsb' 24 8
  dir := w.extractLsb' 23 1
  z := w.extractLsb' 20 3
  sel := w.extractLsb' 16 4
  arg := w.extractLsb' 0 16

/-- Put the fields of R60 together, `op` in the high bits. -/
def Fields.toWord (f : Fields) : Word := f.op ++ (f.dir ++ (f.z ++ (f.sel ++ f.arg)))

/-- Why a word is reserved (30_encoding.md R66). -/
inductive DecodeError where
  /-- the opcode is not in the map of R65 -/
  | reservedOpcode (op : BitVec 8)
  /-- a listed opcode with a nonzero bit where its mask requires zero -/
  | reservedBits (op : BitVec 8)
  deriving DecidableEq, Repr

/-- `dir` decodes to Out (0) or In (1) (30_encoding.md R61). -/
def Dir.ofBit (b : BitVec 1) : Dir := if b = 0 then .out else .inn

/-- Out is 0 and In is 1 (10_state.md R18). -/
def Dir.bit : Dir → BitVec 1
  | .out => 0
  | .inn => 1

/-- `ch = sel[0]`, 0 = A, 1 = B (30_encoding.md R60, R61). -/
def Channel.ofSel (sel : BitVec 4) : Channel := if sel.extractLsb' 0 1 = 0 then .A else .B

/-- The place of a channel among the `NCH` channels, A first (00_scope.md R4, 10_state.md R10). -/
def Channel.index : Channel → Fin Config.nch
  | .A => 0
  | .B => 1

/-- The channel at a place. -/
def Channel.ofIndex : Fin Config.nch → Channel
  | ⟨0, _⟩ => .A
  | ⟨1, _⟩ => .B

/-- The channel as the one-bit field (10_state.md R10). -/
def Channel.bit : Channel → BitVec 1
  | .A => 0
  | .B => 1

/-- The channel in the four bits of `sel` (30_encoding.md R60). -/
def Channel.sel (ch : Channel) : BitVec 4 := ch.bit.setWidth 4

/-- Accept `i` when the bits outside its operand fields are zero, else the word is reserved (30_encoding.md R66). -/
def accept (f : Fields) (zeros : Bool) (i : Instr) : Except DecodeError Instr :=
  if zeros then .ok i else .error (.reservedBits f.op)

/-- A command without operands: every field below `op` must be zero. -/
def Fields.noOperands (f : Fields) : Bool := f.dir == 0 && f.z == 0 && f.sel == 0 && f.arg == 0

/-- A filter read-out: only `sel[0]` is an operand. -/
def Fields.onlyChannel (f : Fields) : Bool := f.dir == 0 && f.z == 0 && f.sel.extractLsb' 1 3 == 0

/-- Only `arg[7:0]` is an operand. -/
def Fields.onlyArgByte (f : Fields) : Bool := f.dir == 0 && f.z == 0 && f.sel == 0 && f.arg.extractLsb' 8 8 == 0

/-- The opcode map of 30_encoding.md R65 over the fields. -/
def decodeFields (f : Fields) : Except DecodeError Instr :=
  match f.op with
  | 0x01#8 => accept f f.noOperands .capMeasure
  | 0x02#8 => accept f f.noOperands .capCapture
  | 0x04#8 => accept f f.noOperands .tmrAck
  | 0x0F#8 => accept f f.onlyArgByte (.sysRdreg (f.arg.extractLsb' 0 8).toNat)
  | 0x20#8 => accept f f.onlyChannel (.fltPush (Channel.ofSel f.sel) f.arg)
  | 0x21#8 => accept f (f.onlyChannel && f.arg == 0) (.fltRaw (Channel.ofSel f.sel))
  | 0x22#8 => accept f (f.onlyChannel && f.arg == 0) (.fltMean (Channel.ofSel f.sel))
  | 0x23#8 => accept f (f.onlyChannel && f.arg == 0) (.fltMax (Channel.ofSel f.sel))
  | 0x30#8 => accept f f.noOperands .qSplit
  | 0x31#8 => accept f f.noOperands .qEnq
  | 0x32#8 => accept f f.noOperands .qDeq
  | 0x33#8 => accept f f.noOperands .qLen
  | 0x40#8 => accept f f.noOperands .usbEnable
  | 0x41#8 => accept f f.noOperands .usbReset
  | 0x42#8 => accept f (f.z == 0 && f.arg == 0) (.usbAlloc (Dir.ofBit f.dir) f.sel.toNat)
  | 0x43#8 => accept f (f.z == 0) (.usbWrite (Dir.ofBit f.dir) f.sel.toNat f.arg.toNat)
  | 0x44#8 => accept f (f.z == 0) (.usbRead (Dir.ofBit f.dir) f.sel.toNat f.arg.toNat)
  | 0x45#8 => accept f f.onlyArgByte (.usbSetaddr (f.arg.extractLsb' 0 8))
  | 0x46#8 => accept f (f.z == 0 && f.arg.extractLsb' 1 15 == 0)
      (.usbSetstall (Dir.ofBit f.dir) f.sel.toNat (f.arg.extractLsb' 0 1 == 1))
  | 0x47#8 => accept f (f.z == 0 && f.arg == 0) (.usbIsstalled (Dir.ofBit f.dir) f.sel.toNat)
  | 0x48#8 => accept f f.noOperands .usbPoll
  | op => .error (.reservedOpcode op)

/-- The decoder, total on every 32-bit word (30_encoding.md R65, R66). -/
def decode (w : Word) : Except DecodeError Instr := decodeFields (Fields.ofWord w)

/-- The fields of a command (30_encoding.md R60, R65), written from the map independently of the decoder. -/
def encodeFields : Instr → Fields
  | .capMeasure => ⟨0x01, 0, 0, 0, 0⟩
  | .capCapture => ⟨0x02, 0, 0, 0, 0⟩
  | .tmrAck => ⟨0x04, 0, 0, 0, 0⟩
  | .sysRdreg regno => ⟨0x0F, 0, 0, 0, BitVec.ofNat 16 regno⟩
  | .fltPush ch value => ⟨0x20, 0, 0, ch.sel, value⟩
  | .fltRaw ch => ⟨0x21, 0, 0, ch.sel, 0⟩
  | .fltMean ch => ⟨0x22, 0, 0, ch.sel, 0⟩
  | .fltMax ch => ⟨0x23, 0, 0, ch.sel, 0⟩
  | .qSplit => ⟨0x30, 0, 0, 0, 0⟩
  | .qEnq => ⟨0x31, 0, 0, 0, 0⟩
  | .qDeq => ⟨0x32, 0, 0, 0, 0⟩
  | .qLen => ⟨0x33, 0, 0, 0, 0⟩
  | .usbEnable => ⟨0x40, 0, 0, 0, 0⟩
  | .usbReset => ⟨0x41, 0, 0, 0, 0⟩
  | .usbAlloc dir idx => ⟨0x42, dir.bit, 0, BitVec.ofNat 4 idx, 0⟩
  | .usbWrite dir idx len => ⟨0x43, dir.bit, 0, BitVec.ofNat 4 idx, BitVec.ofNat 16 len⟩
  | .usbRead dir idx len => ⟨0x44, dir.bit, 0, BitVec.ofNat 4 idx, BitVec.ofNat 16 len⟩
  | .usbSetaddr addr8 => ⟨0x45, 0, 0, 0, addr8.setWidth 16⟩
  | .usbSetstall dir idx stalled => ⟨0x46, dir.bit, 0, BitVec.ofNat 4 idx, (BitVec.ofBool stalled).setWidth 16⟩
  | .usbIsstalled dir idx => ⟨0x47, dir.bit, 0, BitVec.ofNat 4 idx, 0⟩
  | .usbPoll => ⟨0x48, 0, 0, 0, 0⟩

/-- The command word of a command (30_encoding.md R60). -/
def encode (i : Instr) : Word := (encodeFields i).toWord

/-- One row of the map of 30_encoding.md R65. -/
structure OpcodeRow where
  mnemonic : String
  pattern : Word
  mask : Word
  deriving DecidableEq, Repr

/-- `w` selects a row when `w and mask = match` (30_encoding.md R65). -/
def OpcodeRow.selects (r : OpcodeRow) (w : Word) : Bool := w &&& r.mask == r.pattern

/-- The `match` and `mask` columns of 30_encoding.md R65, capsense, system and filter rows. -/
def opcodeRowsLow : List OpcodeRow := [
  ⟨"CAP.MEASURE", 0x01000000, 0xFFFFFFFF⟩,
  ⟨"CAP.CAPTURE", 0x02000000, 0xFFFFFFFF⟩,
  ⟨"TMR.ACK", 0x04000000, 0xFFFFFFFF⟩,
  ⟨"SYS.RDREG", 0x0F000000, 0xFFFFFF00⟩,
  ⟨"FLT.PUSH", 0x20000000, 0xFFFE0000⟩,
  ⟨"FLT.RAW", 0x21000000, 0xFFFEFFFF⟩,
  ⟨"FLT.MEAN", 0x22000000, 0xFFFEFFFF⟩,
  ⟨"FLT.MAX", 0x23000000, 0xFFFEFFFF⟩,
  ⟨"Q.SPLIT", 0x30000000, 0xFFFFFFFF⟩,
  ⟨"Q.ENQ", 0x31000000, 0xFFFFFFFF⟩,
  ⟨"Q.DEQ", 0x32000000, 0xFFFFFFFF⟩,
  ⟨"Q.LEN", 0x33000000, 0xFFFFFFFF⟩]

/-- The USB rows of 30_encoding.md R65. -/
def opcodeRowsUsb : List OpcodeRow := [
  ⟨"USB.ENABLE", 0x40000000, 0xFFFFFFFF⟩,
  ⟨"USB.RESET", 0x41000000, 0xFFFFFFFF⟩,
  ⟨"USB.ALLOC", 0x42000000, 0xFF70FFFF⟩,
  ⟨"USB.WRITE", 0x43000000, 0xFF700000⟩,
  ⟨"USB.READ", 0x44000000, 0xFF700000⟩,
  ⟨"USB.SETADDR", 0x45000000, 0xFFFFFF00⟩,
  ⟨"USB.SETSTALL", 0x46000000, 0xFF70FFFE⟩,
  ⟨"USB.ISSTALLED", 0x47000000, 0xFF70FFFF⟩,
  ⟨"USB.POLL", 0x48000000, 0xFFFFFFFF⟩]

/-- All twenty-one rows. -/
def opcodeMap : List OpcodeRow := opcodeRowsLow ++ opcodeRowsUsb

/-- The word whose low `nbits` bits are those of `w` and whose other bits are zero. -/
def tableWord (nbits w : Nat) : Word := BitVec.ofNat 32 (w % 2 ^ nbits)

/-- What the decoder reads from a word given as a number (bit 0 least significant). A command is exactly 32 bits
(30_encoding.md R67), so more than 32 bits are no command. -/
def decodeTableWord (nbits w : Nat) : Option Instr :=
  if nbits ≤ 32 then (decode (tableWord nbits w)).toOption else none

end Sys2Proof
end

