-- ==== Sys2Proof/Machine/Operands.lean ====
section
/-! DEFINITION. Operand forms and byte order: lengths, endpoint addresses, packing of bytes into FIFO words, and the
bytes put on DATA (20_memory.md R47, 30_encoding.md R61, R64, R71, 45_usb_fifo.md R140, R142). -/

namespace Sys2Proof.Machine

/-- `succ(ch)`, the cyclic successor among the `NCH` channels (10_state.md R10). -/
def succChannel (ch : Channel) : Channel := Channel.ofIndex (ch.index + 1)

/-- `n = min(len, 1536)` (45_usb_fifo.md R141, R143). -/
def transferLen (len : Nat) : Nat := min len Config.fifoBytes

/-- `ceil4(n)`, the FIFO words that hold `n` bytes: `(n + 3) / 4` for the 4-byte word (00_scope.md R8). -/
def ceil4 (n : Nat) : Nat := (n + (Config.fifoWord - 1)) / Config.fifoWord

/-- The address packed into the result value: `value[7] = dir`, `value[3:0] = idx` (30_encoding.md R71). -/
def endpointValue (ep : EndpointAddress) : Half :=
  (0 : BitVec 8) ++ (ep.dir.bit ++ ((0 : BitVec 3) ++ BitVec.ofNat 4 ep.idx.val))

/-- The register takes the low `ADDR_BITS` bits, `addr8[6:0]` (44_usb_control.md R131). -/
def deviceAddress (addr8 : BitVec 8) : BitVec Config.addrBits := addr8.extractLsb' 0 Config.addrBits

/-- At most `FIFO_WORD` bytes as one FIFO word, the first in bits 7:0, zeros in the lanes beyond (20_memory.md R47,
45_usb_fifo.md R140). -/
def wordOfBytes (bs : List Byte) : FifoWord := bs.foldr (fun b w => w <<< 8 ||| b.setWidth (8 * Config.fifoWord)) 0

/-- The byte lanes of a FIFO word, lane 0 first (20_memory.md R47). -/
def wordLanes (w : FifoWord) : List Byte := (List.range Config.fifoWord).map (fun j => w.extractLsb' (8 * j) 8)

/-- The four bytes of a register on DATA, low byte first (30_encoding.md R64, R71). -/
def wordBytes (w : Word) : List Byte := [w.extractLsb' 0 8, w.extractLsb' 8 8, w.extractLsb' 16 8, w.extractLsb' 24 8]

/-- A half-word as two bytes, low byte first (30_encoding.md R64). -/
def halfBytes (h : Half) : List Byte := [h.extractLsb' 0 8, h.extractLsb' 8 8]

/-- `Pack` (45_usb_fifo.md R140): word `i` holds the bytes from `FIFO_WORD * i` on; the tail stands in the low lanes of the
last word, with zeros above. -/
def pack (b : List Byte) : List FifoWord :=
  (List.range (ceil4 b.length)).map (fun i => wordOfBytes ((b.drop (Config.fifoWord * i)).take Config.fifoWord))

/-- `Unpack` (45_usb_fifo.md R142): the first `n` lanes of the words, in order. -/
def unpack (ws : List FifoWord) (n : Nat) : List Byte := (ws.flatMap wordLanes).take n

/-- One filter state on DATA: 19 half-words (30_encoding.md R64). -/
def FilterState.halves (f : FilterState) : List Half := f.hist.toList ++ [BitVec.ofNat 16 f.cur.val, f.mean, f.max]

/-- A frame on DATA: 38 half-words, channel A first, each low byte first (30_encoding.md R64). -/
def CapsenseFrame.bytes (f : CapsenseFrame) : List Byte := (f.a.halves ++ f.b.halves).flatMap halfBytes

/-- The status code of an error result (30_encoding.md R63). -/
def ErrorResult.code : ErrorResult → BitVec 4
  | .invalidEndpoint => 1
  | .capacityExceeded => 2
  | .wouldBlock => 3
  | .alreadyAllocated => 4
  | .queueFull => 5
  | .empty => 6

/-- The result word: status in 31:28, zeros in 27:16, value in 15:0 (30_encoding.md R62). -/
def resultWord (status : BitVec 4) (value : Half) : Word := status ++ ((0 : BitVec 12) ++ value)

/-- The priority of a context (60_exceptions.md R178). -/
def Context.prio : Context → Nat
  | .idle => Config.prioIdle
  | .usb => Config.prioUsb
  | .timer => Config.prioTimer
  | .rtc => Config.prioRtc

end Sys2Proof.Machine
end

