-- ==== Sys2Proof/Machine/Ops.lean ====
section
/-! DEFINITION. The shared operations: selectors, byte memory, the primitives of the spec (FltPush, Snapshot, QEnq,
QDeq, TxPush, RxPop, CoreReset), the result of a command, and the raising of an error result. The block takes no traps
(60_exceptions.md R170, R180): an error result is what stands in their place. -/

namespace Sys2Proof.Machine

/-! ### Selectors -/

/-- The value of a channel. -/
def PerChannel.get {α : Type} (p : PerChannel α) : Channel → α
  | .A => p.a
  | .B => p.b

/-- Replace the value of one channel. -/
def PerChannel.set {α : Type} (p : PerChannel α) (ch : Channel) (v : α) : PerChannel α :=
  match ch with
  | .A => { p with a := v }
  | .B => { p with b := v }

/-- The value of a direction. -/
def PerDir.get {α : Type} (p : PerDir α) : Dir → α
  | .out => p.out
  | .inn => p.inn

/-- Replace the value of one direction. -/
def PerDir.set {α : Type} (p : PerDir α) (d : Dir) (v : α) : PerDir α :=
  match d with
  | .out => { p with out := v }
  | .inn => { p with inn := v }

/-! ### Byte memory (BUF, 20_memory.md R44) -/

/-- `MemRead(BUF, a, 1)`; an unlisted index reads 0. DESIGN CHOICE, log 8: unsafe. -/
def Memory.read : Memory → Nat → Byte
  | [], _ => 0
  | (k, v) :: rest, a => if k = a then v else Memory.read rest a

/-- `MemWrite(BUF, a, 1, b)`, keeping the canonical form: writing 0 removes the entry. -/
def Memory.write : Memory → Nat → Byte → Memory
  | [], a, b => if b = 0 then [] else [(a, b)]
  | (k, v) :: rest, a, b =>
    if a < k then (if b = 0 then (k, v) :: rest else (a, b) :: (k, v) :: rest)
    else if a = k then (if b = 0 then rest else (a, b) :: rest)
    else (k, v) :: Memory.write rest a b

/-- `BUF[0..n-1]`, each index below `n` read once (20_memory.md R44). -/
def Memory.readBytes (m : Memory) (n : Nat) : List Byte := (List.range n).map (Memory.read m)

/-- Write consecutive bytes from index `a` on. -/
def Memory.writeBytes (m : Memory) (a : Nat) : List Byte → Memory
  | [] => m
  | b :: bs => Memory.writeBytes (Memory.write m a b) (a + 1) bs

/-- The canonical form: indices strictly rising, no listed zero. -/
abbrev Memory.wf (m : Memory) : Prop := m.Pairwise (fun x y => x.1 < y.1) ∧ ∀ x ∈ m, x.2 ≠ 0

/-! ### Filters (42_filter.md R90, R94, R95) -/

/-- The sum of the whole window in a 32-bit accumulator (42_filter.md R90, D25). -/
def windowSum (hist : Vector Sample Config.window) : Word := hist.toList.foldl (fun sum v => sum + v.setWidth 32) 0

/-- `trunc_16(sum / 16)`, the window's size as divisor and the sample's width (42_filter.md R94). -/
def windowMean (hist : Vector Sample Config.window) : Sample :=
  (windowSum hist / BitVec.ofNat 32 Config.window).setWidth Config.sampleBits

/-- `FltPush` on one filter (42_filter.md R90). -/
def FilterState.push (f : FilterState) (v : Sample) : FilterState :=
  let hist := f.hist.set f.cur v
  { hist := hist
    cur := f.cur + 1
    mean := windowMean hist
    max := if v > f.max then v else f.max }

/-- The slot the last push wrote, `hist[(cur + 15) mod 16]` (42_filter.md R91; 90_conflicts.md C1). -/
def FilterState.latest (f : FilterState) : Sample := f.hist.get (f.cur + Fin.last (Config.window - 1))

/-- `FltPush(ch, v)` (42_filter.md R90). -/
def fltPush (ch : Channel) (v : Sample) (s : State) : State :=
  { s with flt := s.flt.set ch ((s.flt.get ch).push v) }

/-- `Snapshot()` (41_capsense_acquisition.md R86). -/
def snapshot (s : State) : CapsenseFrame := ⟨s.flt.a, s.flt.b⟩

/-! ### Queue (43_sample_queue.md R101, R102) -/

/-- `QEnq` on a split queue; none when it holds four frames (43_sample_queue.md R101). -/
def SampleQueue.enq (q : SampleQueue) (f : CapsenseFrame) : Option SampleQueue :=
  if q.count = Fin.last Config.qcap then none
  else some { q with slot := q.slot.set q.tail f, tail := q.tail + 1, count := q.count + 1 }

/-- `QDeq` on a split queue; none when it is empty (43_sample_queue.md R102). -/
def SampleQueue.deq (q : SampleQueue) : Option (CapsenseFrame × SampleQueue) :=
  if q.count = 0 then none
  else some (q.slot.get q.head, { q with head := q.head + 1, count := q.count - 1 })

/-- The frames held, oldest first: `q.slot[(q.head + i) mod 4]` for `i` below `q.count` (10_state.md R17). -/
def SampleQueue.frames (q : SampleQueue) : List CapsenseFrame :=
  (List.range q.count.val).map (fun i => q.slot.get (q.head + Fin.ofNat Config.qcap i))

/-! ### FIFOs (20_memory.md R42, R43) -/

/-- `TxPush(w)`; a full FIFO faults (20_memory.md R42). -/
def txPush (w : FifoWord) (s : State) : Except Fault State :=
  if s.usb.txf.length < Config.fifoWords then .ok { s with usb.txf := s.usb.txf ++ [w] } else .error .txFifoOverflow

/-- Push words in order (45_usb_fifo.md R141). -/
def txPushAll : List FifoWord → State → Except Fault State
  | [], s => .ok s
  | w :: ws, s =>
    match txPush w s with
    | .ok t => txPushAll ws t
    | .error f => .error f

/-- `RxPop()`; an empty FIFO gives a free value and stays empty (20_memory.md R43). -/
def rxPop (s : State) : FifoWord × State :=
  match s.usb.rxf with
  | w :: rest => (w, { s with usb.rxf := rest })
  | [] => (Config.freeWord s.draws, { s with draws := s.draws + 1 })

/-- Pop `k` words, first popped first. -/
def rxPopN : Nat → State → List FifoWord × State
  | 0, s => ([], s)
  | k + 1, s =>
    let (w, t) := rxPop s
    let (ws, u) := rxPopN k t
    (w :: ws, u)

/-! ### The lesser resets -/

/-- `CoreReset()` (44_usb_control.md R136): the USB core fields at their reset values, the flags drawn. -/
def coreReset (s : State) : State :=
  { s with
    usb := { s.usb with
      addr := 0
      stall := ⟨false, false⟩
      ints := Config.freeInts s.draws
      intm := 0
      ginten := false
      sftdiscon := true
      trdtim := 0
      trdset := false
      rxsize := 0
      txf := []
      rxf := []
      linkOk := false }
    bus := ⟨false⟩
    draws := s.draws + 1 }

/-- The effect of USB.RESET, for either value of `RESET_RELEASES_CTRL` (44_usb_control.md R129). -/
def sessionReset (releasesCtrl : Bool) (s : State) : State :=
  { s with
    usb := { s.usb with
      addr := 0
      stall := ⟨false, false⟩
      pend := ⟨false, false⟩
      txf := []
      rxf := []
      rxsize := 0
      ctrlAlloc := if releasesCtrl then ⟨false, false⟩ else s.usb.ctrlAlloc } }

/-! ### Results (00_scope.md R7, 30_encoding.md R62 to R64, 60_exceptions.md R170, R171) -/

/-- Put a result word and DATA on the command port. -/
def State.deliver (res : Option Word) (data : List Byte) (s : State) : State :=
  { s with port := { s.port with res := res, data := data } }

/-- `return v` with bytes on DATA. -/
def State.okData (v : Half) (data : List Byte) (s : State) : Result := .next (s.deliver (some (resultWord 0 v)) data)

/-- `return v` (00_scope.md R8). -/
def State.ok (v : Half) (s : State) : Result := s.okData v []

/-- `raise e` with bytes on DATA: the error is reported and nothing else changes (60_exceptions.md R171). -/
def State.raiseData (e : ErrorResult) (data : List Byte) (s : State) : Result :=
  .next (s.deliver (some (resultWord e.code 0)) data)

/-- `raise e` (00_scope.md R8, 60_exceptions.md R171). -/
def State.raise (e : ErrorResult) (s : State) : Result := s.raiseData e []

/-- `refuse HostProtocol` (60_exceptions.md R173). -/
def breach (b : Breach) : Result := .refused (.hostProtocol b)

/-- Run a USB command unless USB.ENABLE holds the unit (44_usb_control.md R111, 60_exceptions.md R173). -/
def whenUsbFree (s : State) (r : Result) : Result := if s.usb.enBusy then breach .usbWhileEnabling else r

end Sys2Proof.Machine
end

