-- ==== Sys2Proof/Machine/Capsense.lean ====
section
/-! DEFINITION. CAP.MEASURE, CAP.CAPTURE, TMR.ACK (41_capsense_acquisition.md R81 to R83). -/

namespace Sys2Proof.Machine

/-- CAP.MEASURE (41_capsense_acquisition.md R81). -/
def execCapMeasure (s : State) : Result :=
  if s.cap.phase = .idle then
    State.ok 0 { s with
      cap := { s.cap with mux := s.cap.ch, cnt := 0, ttRun := true, toRun := true, phase := .measuring } }
  else breach .measureOutsideIdle

/-- The first half of CAP.CAPTURE: stop both timers, enter Captured, push the sample (R82). -/
def captureSample (s : State) : State :=
  fltPush s.cap.ch s.cap.cnt { s with cap := { s.cap with ttRun := false, toRun := false, phase := .captured } }

/-- The second half: advance the active channel, back to Idle (R82). -/
def captureAdvance (s : State) : State := { s with cap := { s.cap with ch := succChannel s.cap.ch, phase := .idle } }

/-- The enqueue of a B capture: a full queue drops the frame silently (R82). -/
def captureEnqueue (s : State) : State := { s with q := (s.q.enq (snapshot s)).getD s.q }

/-- CAP.CAPTURE (41_capsense_acquisition.md R82). -/
def execCapCapture (s : State) : Result :=
  if s.cap.phase = .measuring then
    match s.cap.ch with
    | .A => State.ok 0 (captureAdvance (captureSample s))
    | .B =>
      if s.q.split then State.ok 0 (captureAdvance (captureEnqueue (captureSample s)))
      else breach .enqueueBeforeSplit
  else breach .captureOutsideMeasuring

/-- TMR.ACK (41_capsense_acquisition.md R83). -/
def execTmrAck (s : State) : Result := State.ok 0 { s with cap.ovf := false }

end Sys2Proof.Machine
end

