-- ==== Sys2Proof/Machine/FilterCmd.lean ====
section
/-! DEFINITION. FLT.PUSH, FLT.RAW, FLT.MEAN, FLT.MAX (42_filter.md R90 to R93). -/

namespace Sys2Proof.Machine

/-- FLT.PUSH (42_filter.md R90). -/
def execFltPush (ch : Channel) (value : Half) (s : State) : Result := State.ok 0 (fltPush ch value s)

/-- FLT.RAW (42_filter.md R91). -/
def execFltRaw (ch : Channel) (s : State) : Result := State.ok (s.flt.get ch).latest s

/-- FLT.MEAN (42_filter.md R92). -/
def execFltMean (ch : Channel) (s : State) : Result := State.ok (s.flt.get ch).mean s

/-- FLT.MAX (42_filter.md R93). -/
def execFltMax (ch : Channel) (s : State) : Result := State.ok (s.flt.get ch).max s

end Sys2Proof.Machine
end

