-- ==== Sys2Proof/Machine/QueueCmd.lean ====
section
/-! DEFINITION. Q.SPLIT, Q.ENQ, Q.DEQ, Q.LEN (43_sample_queue.md R100 to R103). -/

namespace Sys2Proof.Machine

/-- Q.SPLIT (43_sample_queue.md R100). -/
def execQSplit (s : State) : Result :=
  if s.q.split then breach .secondSplit else State.ok 0 { s with q.split := true }

/-- Q.ENQ: enqueue a snapshot; a full queue hands it back on DATA (43_sample_queue.md R101). -/
def execQEnq (s : State) : Result :=
  if s.q.split then
    match s.q.enq (snapshot s) with
    | some q => State.ok 0 { s with q := q }
    | none => State.raiseData .queueFull (snapshot s).bytes s
  else breach .enqueueBeforeSplit

/-- Q.DEQ: the oldest frame on DATA (43_sample_queue.md R102). -/
def execQDeq (s : State) : Result :=
  if s.q.split then
    match s.q.deq with
    | some (f, q) => State.okData 0 f.bytes { s with q := q }
    | none => State.raise .empty s
  else breach .dequeueBeforeSplit

/-- Q.LEN (43_sample_queue.md R103). -/
def execQLen (s : State) : Result := State.ok (BitVec.ofNat 16 s.q.count.val) s

end Sys2Proof.Machine
end

