-- ==== Sys2Proof/Machine/System.lean ====
section
/-! DEFINITION. The register map and SYS.RDREG (10_state.md R22 to R37, 46_system.md R160). -/

namespace Sys2Proof.Machine

/-- A channel as a register bit (10_state.md R10). -/
def channelBit (ch : Channel) : BitVec 1 := ch.bit

/-- `CAP_STAT.PHASE`: 0 Idle, 1 Measuring, 2 Captured (10_state.md R36). -/
def phaseBits : Phase → BitVec 2
  | .idle => 0
  | .measuring => 1
  | .captured => 2

/-- A flag as a register bit. -/
def flagBit (b : Bool) : BitVec 1 := BitVec.ofBool b

/-- Register 0x00 PHY_CTRL (10_state.md R22). -/
def regPhyCtrl (s : State) : Word :=
  (0 : BitVec 26) ++ (flagBit s.phy.phyen ++ (flagBit s.phy.lpdis ++ (flagBit s.phy.clksel ++ (flagBit s.phy.clkrec ++
    (flagBit s.phy.calen ++ flagBit s.phy.oscsel)))))

/-- Register 0x01 PHY_STAT (R23). -/
def regPhyStat (s : State) : Word := (0 : BitVec 31) ++ flagBit s.phy.clkrdy

/-- Register 0x02 CORE_RST (R24). -/
def regCoreRst (s : State) : Word := flagBit s.usb.ahbidle ++ ((0 : BitVec 30) ++ flagBit s.usb.csrst)

/-- Register 0x03 CORE_CFG (R25). -/
def regCoreCfg (s : State) : Word := (0 : BitVec 27) ++ (flagBit s.usb.trdset ++ s.usb.trdtim)

/-- Register 0x04 INT_STS (R26). -/
def regIntSts (s : State) : Word := (0 : BitVec 28) ++ s.usb.ints

/-- Register 0x05 INT_MSK (R27). -/
def regIntMsk (s : State) : Word := (0 : BitVec 28) ++ s.usb.intm

/-- Register 0x06 CORE_CTL (R28). -/
def regCoreCtl (s : State) : Word := (0 : BitVec 30) ++ (flagBit s.usb.sftdiscon ++ flagBit s.usb.ginten)

/-- Register 0x07 DEV_ADDR (R29). -/
def regDevAddr (s : State) : Word := (0 : BitVec 25) ++ s.usb.addr

/-- Register 0x08 EP0_CTL (R30). -/
def regEp0Ctl (s : State) : Word := (0 : BitVec 30) ++ (flagBit s.usb.stall.inn ++ flagBit s.usb.stall.out)

/-- Register 0x09 EP0_RXSIZE (R31). -/
def regEp0Rxsize (s : State) : Word := (0 : BitVec 21) ++ s.usb.rxsize

/-- Register 0x0A FIFO_STAT: TXWORDS in 8:0, RXWORDS in 24:16 (R32). -/
def regFifoStat (s : State) : Word :=
  (0 : BitVec 7) ++ (BitVec.ofNat 9 s.usb.rxf.length ++ ((0 : BitVec 7) ++ BitVec.ofNat 9 s.usb.txf.length))

/-- Register 0x0B DRV_STAT (R33). -/
def regDrvStat (s : State) : Word :=
  (0 : BitVec 24) ++ (flagBit s.usb.pend.inn ++ (flagBit s.usb.pend.out ++ (BitVec.ofNat 2 s.usb.next.inn.val ++
    (BitVec.ofNat 2 s.usb.next.out.val ++ (flagBit s.usb.ctrlAlloc.inn ++ flagBit s.usb.ctrlAlloc.out)))))

/-- Register 0x0C USB_CAP, hardwired: bit 0 is the quirk flag (R34). -/
def regUsbCap (_ : State) : Word := (0 : BitVec 31) ++ flagBit Config.quirkAddrBeforeStatus

/-- Register 0x0D EN_STAT (R35); `link_ok` and `reset_seen` are in no register. -/
def regEnStat (s : State) : Word := (0 : BitVec 27) ++ (flagBit s.usb.enBusy ++ BitVec.ofNat 4 s.usb.enStep.val)

/-- Register 0x10 CAP_STAT (R36). -/
def regCapStat (s : State) : Word :=
  (0 : BitVec 25) ++ (flagBit s.cap.ovf ++ (flagBit s.cap.toRun ++ (flagBit s.cap.ttRun ++ (channelBit s.cap.mux ++
    (phaseBits s.cap.phase ++ channelBit s.cap.ch)))))

/-- Register 0x11 CAP_CNT (R36). -/
def regCapCnt (s : State) : Word := (0 : BitVec 16) ++ s.cap.cnt

/-- Register 0x12 Q_STAT (R37). -/
def regQStat (s : State) : Word :=
  (0 : BitVec 24) ++ (BitVec.ofNat 2 s.q.tail.val ++ (BitVec.ofNat 2 s.q.head.val ++ (flagBit s.q.split ++
    BitVec.ofNat 3 s.q.count.val)))

/-- `MemRead(REG, regno, 4)`; none for a number with no register behind it (20_memory.md R41, 30_encoding.md R70). -/
def readRegister (regno : Nat) (s : State) : Option Word :=
  match regno with
  | 0x00 => some (regPhyCtrl s)
  | 0x01 => some (regPhyStat s)
  | 0x02 => some (regCoreRst s)
  | 0x03 => some (regCoreCfg s)
  | 0x04 => some (regIntSts s)
  | 0x05 => some (regIntMsk s)
  | 0x06 => some (regCoreCtl s)
  | 0x07 => some (regDevAddr s)
  | 0x08 => some (regEp0Ctl s)
  | 0x09 => some (regEp0Rxsize s)
  | 0x0A => some (regFifoStat s)
  | 0x0B => some (regDrvStat s)
  | 0x0C => some (regUsbCap s)
  | 0x0D => some (regEnStat s)
  | 0x10 => some (regCapStat s)
  | 0x11 => some (regCapCnt s)
  | 0x12 => some (regQStat s)
  | _ => none

/-- SYS.RDREG (46_system.md R160, 30_encoding.md R71). -/
def execSysRdreg (regno : Nat) (s : State) : Result :=
  match readRegister regno s with
  | some v => State.okData (v.extractLsb' 0 16) (wordBytes v) s
  | none => .refused .illegalRegister

end Sys2Proof.Machine
end

