-- ==== Sys2Proof/Machine/Enable.lean ====
section
/-! DEFINITION. The enable sequencer: steps E1 to E15 and its three waits (44_usb_control.md R111 to R126). -/

namespace Sys2Proof.Machine

/-- May step `Ek` pass? E4 waits for clock readiness, E8 for AHB idle, E10 for the end of the core reset
(44_usb_control.md R115, R119, R121); every other step is immediate. -/
def enableReady (k : Fin 16) (s : State) : Bool :=
  match k with
  | 4 => s.phy.clkrdy
  | 8 => s.usb.ahbidle
  | 10 => !s.usb.csrst
  | _ => true

/-- What step `Ek` performs (44_usb_control.md R112 to R126). The waits perform nothing. -/
def enableEffect (k : Fin 16) (s : State) : State :=
  match k with
  | 1 => { s with phy.oscsel := true }
  | 2 => { s with phy.calen := true }
  | 3 => { s with phy.clkrec := true }
  | 5 => { s with phy.clksel := true }
  | 6 => { s with phy.lpdis := true }
  | 7 => { s with phy.phyen := true }
  | 9 => { coreReset s with usb.csrst := true }
  | 11 => { s with usb.trdtim := Config.trdtimValue, usb.trdset := true }
  | 12 => { s with usb.intm := 0xF }
  | 13 => { s with usb.ints := 0 }
  | 14 => { s with usb.ginten := true }
  | 15 => { s with usb.sftdiscon := false, usb.linkOk := true }
  | _ => s

/-- `Ek`: its effect, then `usb.en_step <- k` (44_usb_control.md R111). -/
def enableStep (k : Fin 16) (s : State) : State :=
  let t := enableEffect k s
  { t with usb.enStep := k }

/-- After E15: `usb.en_busy <- 0 ; return 0`, the result going to the context that issued USB.ENABLE
(44_usb_control.md R111, 60_exceptions.md R171). -/
def enableDone (s : State) : State :=
  { s with
    usb.enBusy := false
    port := { s.port with issuer := s.usb.enIssuer, cmd := encode .usbEnable, res := some (resultWord 0 0), data := [] } }

/-- Run steps from `usb.en_step + 1` on until one must wait or all fifteen are done (44_usb_control.md R111). -/
def enableRun : Nat → State → State
  | 0, s => s
  | fuel + 1, s =>
    if s.usb.enStep = 15 then enableDone s
    else if enableReady (s.usb.enStep + 1) s then enableRun fuel (enableStep (s.usb.enStep + 1) s)
    else s

/-- Sixteen turns suffice: fifteen steps and the end. -/
def enableContinue (s : State) : State := enableRun 16 s

/-- `usb.en_busy <- 1 ; usb.en_step <- 0`, the result pending (44_usb_control.md R111). -/
def enableStart (s : State) : State :=
  { s.deliver none [] with usb.enBusy := true, usb.enStep := 0, usb.enIssuer := s.port.issuer }

/-- A hold lifted by a move goes on in the same step (44_usb_control.md R111; 95_test_vectors.md P2). DEDUCED, log 9:
unsafe only about how soon the issuer sees the lifted bit. -/
def enableResume (s : State) : State := if s.usb.enBusy then enableContinue s else s

end Sys2Proof.Machine
end

