-- ==== Sys2Proof/Machine/UsbControl.lean ====
section
/-! DEFINITION. USB.ENABLE, USB.RESET, USB.ALLOC, USB.SETADDR, USB.SETSTALL, USB.ISSTALLED, USB.POLL
(44_usb_control.md R111 to R138). No command checks that USB.ENABLE has run (R110). -/

namespace Sys2Proof.Machine

/-- USB.ENABLE: run to the first wait that must hold; the result comes when E15 is done (44_usb_control.md R111). -/
def execUsbEnable (s : State) : Result := whenUsbFree s (.next (enableContinue (enableStart s)))

/-- USB.RESET (44_usb_control.md R129). -/
def execUsbReset (s : State) : Result := whenUsbFree s (State.ok 0 (sessionReset Config.resetReleasesCtrl s))

/-- USB.ALLOC of index 0: the direction's control endpoint (44_usb_control.md R130). -/
def allocControl (dir : Dir) (s : State) : Result :=
  if s.usb.ctrlAlloc.get dir then State.raise .alreadyAllocated s
  else State.ok (endpointValue ⟨dir, 0⟩) { s with usb.ctrlAlloc := s.usb.ctrlAlloc.set dir true }

/-- The `n`-th interface endpoint of a direction; EP_CEIL is at most EP_MAX_INDEX (10_state.md R18, R19). -/
def interfaceAddress (dir : Dir) (n : Fin (Config.epCeil + 1)) : EndpointAddress := ⟨dir, n.castLE (by decide)⟩

/-- USB.ALLOC of a nonzero index: the next sequential one (44_usb_control.md R130). -/
def allocInterface (dir : Dir) (s : State) : Result :=
  if s.usb.next.get dir = Fin.last Config.epCeil then State.raise .capacityExceeded s
  else State.ok (endpointValue (interfaceAddress dir (s.usb.next.get dir + 1)))
    { s with usb.next := s.usb.next.set dir (s.usb.next.get dir + 1) }

/-- USB.ALLOC (44_usb_control.md R130); every nonzero request is served alike (R138). -/
def execUsbAlloc (dir : Dir) (idx : Nat) (s : State) : Result :=
  whenUsbFree s (if idx = 0 then allocControl dir s else allocInterface dir s)

/-- USB.SETADDR (44_usb_control.md R131). -/
def execUsbSetaddr (addr8 : BitVec 8) (s : State) : Result :=
  whenUsbFree s (State.ok 0 { s with usb.addr := deviceAddress addr8 })

/-- USB.SETSTALL: assigns the bit for index 0, ignored for every other index (44_usb_control.md R133). -/
def execUsbSetstall (dir : Dir) (idx : Nat) (stalled : Bool) (s : State) : Result :=
  whenUsbFree s (State.ok 0 (if idx = 0 then { s with usb.stall := s.usb.stall.set dir stalled } else s))

/-- USB.ISSTALLED: the bit for index 0, always 1 for every other index (44_usb_control.md R134). -/
def execUsbIsstalled (dir : Dir) (idx : Nat) (s : State) : Result :=
  whenUsbFree s (State.ok (if idx = 0 then (BitVec.ofBool (s.usb.stall.get dir)).setWidth 16 else 1) s)

/-- USB.POLL (44_usb_control.md R135). -/
def execUsbPoll (s : State) : Result :=
  whenUsbFree s
    (if anyFlag s.usb.ints (intUsbrst ||| intEnumdone) then
      State.ok 1 { s with usb.ints := clearFlags s.usb.ints (intUsbrst ||| intEnumdone) }
    else State.ok 0 { s with usb.pend := ⟨false, false⟩ })

end Sys2Proof.Machine
end

