-- ==== Sys2Proof/Machine/UsbFifo.lean ====
section
/-! DEFINITION. USB.WRITE, USB.READ (45_usb_fifo.md R141, R143). -/

namespace Sys2Proof.Machine

/-- The body of USB.WRITE for the address (In, 0) (45_usb_fifo.md R141). -/
def writeTransfer (len : Nat) (s : State) : Result :=
  if transferLen len = 0 then State.raise .wouldBlock s
  else
    match txPushAll (pack (Memory.readBytes s.port.buf (transferLen len))) s with
    | .ok t => State.ok (BitVec.ofNat 16 (transferLen len)) { t with usb.pend := t.usb.pend.set .inn true }
    | .error f => .fault f

/-- USB.WRITE: the address is checked before the length (45_usb_fifo.md R141). -/
def execUsbWrite (dir : Dir) (idx : Nat) (len : Nat) (s : State) : Result :=
  whenUsbFree s (if dir = .inn ∧ idx = 0 then writeTransfer len s else State.raise .invalidEndpoint s)

/-- The body of USB.READ for the address (Out, 0): whole words are popped, BUF[0..n-1] is written, the requested
length is reported (45_usb_fifo.md R143). -/
def readTransfer (len : Nat) (s : State) : Result :=
  if transferLen len = 0 then State.raise .wouldBlock s
  else
    let (ws, t) := rxPopN (ceil4 (transferLen len)) s
    State.ok (BitVec.ofNat 16 (transferLen len))
      { t with port.buf := Memory.writeBytes t.port.buf 0 (unpack ws (transferLen len)) }

/-- USB.READ (45_usb_fifo.md R143). -/
def execUsbRead (dir : Dir) (idx : Nat) (len : Nat) (s : State) : Result :=
  whenUsbFree s (if dir = .out ∧ idx = 0 then readTransfer len s else State.raise .invalidEndpoint s)

end Sys2Proof.Machine
end

