-- ==== Sys2Proof/Machine/Dispatch.lean ====
section
/-! DEFINITION. One arm per command, in the order of the opcode map (30_encoding.md R65). -/

namespace Sys2Proof.Machine

def exec (i : Instr) (s : State) : Host.Outcome State Fault Refusal :=
  match i with
  | .capMeasure => Sys2Proof.Machine.execCapMeasure s
  | .capCapture => Sys2Proof.Machine.execCapCapture s
  | .tmrAck => Sys2Proof.Machine.execTmrAck s
  | .sysRdreg regno => Sys2Proof.Machine.execSysRdreg regno s
  | .fltPush ch value => Sys2Proof.Machine.execFltPush ch value s
  | .fltRaw ch => Sys2Proof.Machine.execFltRaw ch s
  | .fltMean ch => Sys2Proof.Machine.execFltMean ch s
  | .fltMax ch => Sys2Proof.Machine.execFltMax ch s
  | .qSplit => Sys2Proof.Machine.execQSplit s
  | .qEnq => Sys2Proof.Machine.execQEnq s
  | .qDeq => Sys2Proof.Machine.execQDeq s
  | .qLen => Sys2Proof.Machine.execQLen s
  | .usbEnable => Sys2Proof.Machine.execUsbEnable s
  | .usbReset => Sys2Proof.Machine.execUsbReset s
  | .usbAlloc dir idx => Sys2Proof.Machine.execUsbAlloc dir idx s
  | .usbWrite dir idx len => Sys2Proof.Machine.execUsbWrite dir idx len s
  | .usbRead dir idx len => Sys2Proof.Machine.execUsbRead dir idx len s
  | .usbSetaddr addr8 => Sys2Proof.Machine.execUsbSetaddr addr8 s
  | .usbSetstall dir idx stalled => Sys2Proof.Machine.execUsbSetstall dir idx stalled s
  | .usbIsstalled dir idx => Sys2Proof.Machine.execUsbIsstalled dir idx s
  | .usbPoll => Sys2Proof.Machine.execUsbPoll s

end Sys2Proof.Machine
end

