-- ==== Sys2Proof/Machine/HostContract.lean ====
section
/-! DEFINITION. The host's side of the contract: ownership of the ports, the running context, preemption by priority, the
ceiling lock, software pend, the handlers as expansions into commands (60_exceptions.md R174 to R188, 30_encoding.md R69).
Entering a handler saves nothing in the block and there is no return command (R180, R182). -/

namespace Sys2Proof.Machine

/-! ### Ownership (60_exceptions.md R184) -/

/-- Does context `c` own the port of command `i`? The capture port and the producer port belong to the timer context;
the boot code in Idle may issue the first CAP.MEASURE (R187, 70_reset_and_hazards.md R206); the consumer port belongs
to one context other than the timer's; the USB port to the holder of the ceiling lock; the read-only commands to no one.
DEDUCED, logs 12 to 14. Q.SPLIT, which R184 lists under no port and not among the read-only commands, may come from any
context: DESIGN CHOICE, log 30. -/
def ownsPort (c : Context) (i : Instr) (s : State) : Bool :=
  match i with
  | .capMeasure => c == .timer || (c == .idle && s.host.boot)
  | .capCapture | .tmrAck | .fltPush .. | .qEnq => c == .timer
  | .qDeq => c != .timer && (s.host.consumer == none || s.host.consumer == some c)
  | .usbEnable | .usbReset | .usbAlloc .. | .usbWrite .. | .usbRead .. | .usbSetaddr _ | .usbSetstall ..
  | .usbIsstalled .. | .usbPoll => s.host.usbLock == none || s.host.usbLock == some c
  | .sysRdreg _ | .fltRaw _ | .fltMean _ | .fltMax _ | .qSplit | .qLen => true

/-- What issuing a command fixes about the ports: the first CAP.MEASURE ends boot (log 12), the first Q.DEQ shows who
owns the consumer port (log 13). -/
def noteIssue (c : Context) (i : Instr) (s : State) : State :=
  match i with
  | .capMeasure => { s with host.boot := false }
  | .qDeq => { s with host.consumer := some c }
  | .capCapture | .tmrAck | .sysRdreg _ | .fltPush .. | .fltRaw _ | .fltMean _ | .fltMax _ | .qSplit | .qEnq | .qLen
  | .usbEnable | .usbReset | .usbAlloc .. | .usbWrite .. | .usbRead .. | .usbSetaddr _ | .usbSetstall ..
  | .usbIsstalled .. | .usbPoll => s

/-- A context that may issue `i` on its port (the first choice where several may). -/
def issuerFor (i : Instr) (s : State) : Context :=
  match i with
  | .capMeasure | .capCapture | .tmrAck | .fltPush .. | .qEnq => .timer
  | .qDeq => s.host.consumer.getD .idle
  | .usbEnable | .usbReset | .usbAlloc .. | .usbWrite .. | .usbRead .. | .usbSetaddr _ | .usbSetstall ..
  | .usbIsstalled .. | .usbPoll => s.host.usbLock.getD .idle
  | .sysRdreg _ | .fltRaw _ | .fltMean _ | .fltMax _ | .qSplit | .qLen => .idle

/-! ### Handlers as expansions (30_encoding.md R69, 60_exceptions.md R185 to R188) -/

/-- A command as its issuer writes it. -/
def issue (c : Context) (i : Instr) (buf : Memory) : Stimulus := .cmd c (encode i) buf

/-- A command as a handler's own step. -/
def HandlerStep.issue (i : Instr) (buf : Memory) : HandlerStep := .cmd (encode i) buf

/-- `USB_ISR` (30_encoding.md R69, 60_exceptions.md R187); what the device core adds comes as further commands of this
context. -/
def usbIsr : List HandlerStep := [.issue .usbPoll []]

/-- `TIMER_ISR` (30_encoding.md R69, 60_exceptions.md R185). -/
def timerIsr : List HandlerStep := [.issue .tmrAck [], .issue .capCapture [], .issue .capMeasure [], .pendUsb]

/-- `CAP.CYCLE s`, the test bench's shorthand for one sample of value `s` (30_encoding.md R69). -/
def capCycle (s : Nat) : List Stimulus :=
  issue .timer .capMeasure [] :: (List.replicate s (.env .tick) ++
    [.env .timeout, issue .timer .tmrAck [], issue .timer .capCapture []])

/-- The HID report of a usage id: two bytes, low byte first (60_exceptions.md R188). PRESUMED, log 17: unsafe about the
report's byte order on the wire. -/
def hidReport (usage : Half) : Memory := Memory.writeBytes [] 0 (halfBytes usage)

/-- The RTC handler's status drain: one register read, without effect (60_exceptions.md R186). DESIGN CHOICE, log 15:
safe. -/
def rtcDrain : List HandlerStep := [.issue (.sysRdreg 0x04) []]

/-- The RTC handler up to its look at the Configured input: drain, then check (60_exceptions.md R186). -/
def rtcIsr : List HandlerStep := rtcDrain ++ [.reportIfConfigured]

/-- The RTC handler's report and pend, for the latch as just flipped (60_exceptions.md R186, R188). -/
def rtcReport (latch : Bool) : List HandlerStep :=
  [.issue (.usbWrite .inn 0 2) (hidReport (if latch then Config.usageKeyDown else Config.usageKeyUp)), .pendUsb]

/-! ### Who runs (60_exceptions.md R174 to R183) -/

/-- The running context: the innermost at work, else Idle (60_exceptions.md R178). -/
def running (s : State) : Context :=
  match s.host.active with
  | [] => .idle
  | a :: _ => a.ctx

/-- What the running context still does by itself. -/
def pendingSteps (s : State) : List HandlerStep :=
  match s.host.active with
  | [] => []
  | a :: _ => a.todo

/-- Is the handler of `c` asked for? (60_exceptions.md R175, R176, R177, R183) -/
def requested (c : Context) (s : State) : Bool :=
  match c with
  | .idle => false
  | .usb => irqUsb s || s.host.usbPend
  | .timer => irqTmr s
  | .rtc => s.host.rtcFlag

/-- The handler that must start now: the highest requested one (R179), if it is above the running context (R178, R182)
and no ceiling lock keeps it out: the ceiling of the USB unit is the highest priority (R181). -/
def due (s : State) : Option Context :=
  if s.host.usbLock.isSome then none
  else [Context.rtc, .timer, .usb].find? (fun c => requested c s && decide ((running s).prio < c.prio))

/-- Does the running context wait in USB.ENABLE? It is blocked until the hold is lifted (60_exceptions.md R174,
44_usb_control.md R111). -/
def hung (s : State) : Bool := s.usb.enBusy && decide ((running s).prio ≤ s.usb.enIssuer.prio)

/-- May context `c` act on its own account now? No handler is due, the running one has no step of its own left, and `c`
runs and is not blocked, or is above the running context and no lock keeps it out (log 11). -/
def mayAct (c : Context) (s : State) : Bool :=
  (due s).isNone && (pendingSteps s).isEmpty &&
    ((c == running s && !hung s) || (decide ((running s).prio < c.prio) && s.host.usbLock.isNone))

/-- Put context `c` at work, with steps of its own. -/
def activate (c : Context) (todo : List HandlerStep) (s : State) : State :=
  { s with host.active := ⟨c, todo⟩ :: s.host.active }

/-- Context `c` runs: it does already, or it starts (log 11). -/
def enterContext (c : Context) (s : State) : State := if c = running s then s else activate c [] s

/-- Start the handler of `c` (60_exceptions.md R180, R185 to R187): the RTC handler clears its flag, the USB handler takes the
software pend. DESIGN CHOICE, log 31, unsafe: where a software pend waits while `irq_usb` is asserted too, one run, so one
USB.POLL, serves both; R183 merges several pends and does not speak of a pend beside the line. -/
def startHandler (c : Context) (s : State) : State :=
  match c with
  | .idle => s
  | .usb => activate .usb usbIsr { s with host.usbPend := false }
  | .timer => activate .timer timerIsr s
  | .rtc => activate .rtc rtcIsr { s with host.rtcFlag := false }

/-- The running handler takes the first of its own steps off its list. -/
def dropStep (s : State) : State :=
  match s.host.active with
  | [] => s
  | a :: below => { s with host.active := { a with todo := a.todo.tail } :: below }

/-- The running handler does these steps before what is left of its list. -/
def addSteps (steps : List HandlerStep) (s : State) : State :=
  match s.host.active with
  | [] => s
  | a :: below => { s with host.active := { a with todo := steps ++ a.todo } :: below }

/-- The RTC handler has drained and looks at the Configured input: if the device is configured, the latch flips, and a
report for the new phase is pushed and the USB handler pended next (60_exceptions.md R186). -/
def reportIfConfigured (s : State) : State :=
  if s.host.configured then addSteps (rtcReport (!s.host.latch)) { s with host.latch := !s.host.latch } else s

/-- The running context has issued its last command: the preempted one resumes (60_exceptions.md R182). A
holder of the lock goes on until it has given it back (R181). -/
def endHandler (s : State) : State :=
  if s.host.usbLock.isSome then s else { s with host.active := s.host.active.tail }

/-- One act of the host beside issuing commands, by whoever may take it. -/
def runHostAct (a : HostAct) (s : State) : Result :=
  match a with
  | .lock c =>
    if s.usb.enBusy || s.host.usbLock.isSome then breach .lockDiscipline else .next { s with host.usbLock := some c }
  | .unlock c => if s.host.usbLock == some c then .next { s with host.usbLock := none } else breach .lockDiscipline
  | .pendUsb => .next { s with host.usbPend := true }
  | .rtcMatch => .next { s with host.rtcFlag := true }
  | .setConfigured b => .next { s with host.configured := b }

end Sys2Proof.Machine
end

