-- ==== Sys2Proof/Machine/Moves.lean ====
section
/-! DEFINITION. The environment's moves: capsense (41_capsense_acquisition.md R84, R85), readiness (44_usb_control.md
R127), USB bus (45_usb_fifo.md R144 to R148), hardware reset (70_reset_and_hazards.md R201). -/

namespace Sys2Proof.Machine

/-- The guard of a move. -/
def EnvMove.enabled (m : EnvMove) (s : State) : Bool :=
  match m with
  | .tick => s.cap.ttRun
  | .timeout => s.cap.toRun
  | .clkrdy => s.phy.oscsel && !s.phy.clkrdy
  | .ahbidle => !s.usb.ahbidle
  | .crstdone => s.usb.csrst
  | .busReset => presented s
  | .busEnumdone => presented s && s.bus.resetSeen
  | .busIn addr k => presented s && !s.usb.stall.inn && decide (1 ≤ k) && decide (k ≤ s.usb.txf.length) && addr == s.usb.addr
  | .busOut addr ws k =>
    presented s && !s.usb.stall.out && decide (k ≤ Config.fifoBytes) && ws.length == ceil4 k &&
      decide (s.usb.rxf.length + ws.length ≤ Config.rxFifoWords) && addr == s.usb.addr
  | .hardwareReset .. => true

/-- Power-on: every field at its reset value, the drawn bits as the move draws them. What the agents do next is not
reset, and free values stay fresh. DESIGN CHOICE, log 19: safe. -/
def powerOn (clkrdy ahbidle : Bool) (ints : BitVec 4) (s : State) : State :=
  { State.resetWith clkrdy ahbidle ints with draws := s.draws, inputs := s.inputs }

/-- The effect of a move. -/
def EnvMove.effect (m : EnvMove) (s : State) : State :=
  match m with
  | .tick => { s with cap.cnt := s.cap.cnt + 1 }
  | .timeout => { s with cap.ovf := true }
  | .clkrdy => { s with phy.clkrdy := true }
  | .ahbidle => { s with usb.ahbidle := true }
  | .crstdone => { s with usb.csrst := false }
  | .busReset => { s with usb.ints := setFlags s.usb.ints intUsbrst, bus.resetSeen := true }
  | .busEnumdone => { s with usb.ints := setFlags s.usb.ints intEnumdone, bus.resetSeen := false }
  | .busIn _ k => { s with usb.txf := s.usb.txf.drop k, usb.ints := setFlags s.usb.ints intEp0in }
  | .busOut _ ws k =>
    { s with
      usb := { s.usb with
        rxf := s.usb.rxf ++ ws
        rxsize := BitVec.ofNat 11 k
        ints := setFlags s.usb.ints intEp0out } }
  | .hardwareReset c a ints => powerOn c a ints s

/-- One move: nothing happens when it is not enabled (95_test_vectors.md V8, V55; log 10); a lifted hold goes on
(log 9). -/
def runMove (m : EnvMove) (s : State) : State := if m.enabled s then enableResume (m.effect s) else s

end Sys2Proof.Machine
end

