-- ==== Sys2Proof/Machine/Agents.lean ====
section
/-! DEFINITION. One step of whichever agent moves next (00_scope.md R6, 20_memory.md R52, R53). -/

namespace Sys2Proof.Machine

/-- Hand a request to the command port: the word, its issuer, the buffer; no output yet (10_state.md R38). -/
def latchRequest (c : Context) (word : Word) (buf : Memory) (s : State) : State :=
  { s with port := { issuer := c, cmd := word, buf := buf, res := none, data := [] } }

/-- One command: a reserved word is refused (30_encoding.md R66), a command on another's port is refused
(60_exceptions.md R173, R184), every other runs. -/
def runCommand (c : Context) (word : Word) (buf : Memory) (s : State) : Result :=
  match decode word with
  | .error _ => .refused .illegalCommand
  | .ok i => if ownsPort c i s then exec i (latchRequest c word buf (noteIssue c i s)) else breach .notOwner

/-- The host goes on by itself (60_exceptions.md R179, R180, R182): the handler that is due starts, whoever runs; else a
running context that waits in USB.ENABLE goes on waiting (R174); else it takes the next step of its own, or ends. Idle has
nothing of its own to do (R187). -/
def hostTurn (s : State) : Result :=
  match due s with
  | some c => .next (startHandler c s)
  | none =>
    if hung s then .next s
    else
      match pendingSteps s with
      | .cmd word buf :: _ => runCommand (running s) word buf (dropStep s)
      | .pendUsb :: _ => runHostAct .pendUsb (dropStep s)
      | .reportIfConfigured :: _ => .next (reportIfConfigured (dropStep s))
      | [] => .next (endHandler s)

/-- The context that must run for this step to happen, if any. -/
def actor (x : Stimulus) : Option Context :=
  match x with
  | .cmd c _ _ => some c
  | .host (.lock c) => some c
  | .host (.unlock c) => some c
  | .host .pendUsb => none
  | .host .rtcMatch => none
  | .host (.setConfigured _) => none
  | .env _ => none
  | .turn => none

/-- Can this step happen now? -/
def ready (x : Stimulus) (s : State) : Bool :=
  match actor x with
  | some c => mayAct c s
  | none => true

/-- The state in which it happens: its context runs. -/
def enterActor (x : Stimulus) (s : State) : State :=
  match actor x with
  | some c => enterContext c s
  | none => s

/-- One step of an agent. -/
def runStimulus (x : Stimulus) (s : State) : Result :=
  match x with
  | .cmd c word buf => runCommand c word buf s
  | .env m => .next (runMove m s)
  | .host a => runHostAct a s
  | .turn => hostTurn s

/-- The oldest waiting step; one whose context cannot run yet keeps waiting while the host goes on, and so does the host
when nothing waits. The block starts nothing by itself (70_reset_and_hazards.md R201). -/
def advance (s : State) : Result :=
  match s.inputs with
  | [] => hostTurn s
  | x :: rest => if ready x s then runStimulus x (enterActor x { s with inputs := rest }) else hostTurn s

/-- Let the host issue `word` next, from a context that may issue it, with a buffer of zeros (log 1). That context runs
already, starts by itself, or is put in place of those at work. -/
def placeCommand (word : Word) (s : State) : State :=
  let c := match decode word with
    | .ok i => issuerFor i s
    | .error _ => .idle
  let x := Stimulus.cmd c word []
  if ready x s then { s with inputs := x :: s.inputs }
  else { s with inputs := x :: s.inputs, host.active := if c = .idle then [] else [⟨c, []⟩] }

end Sys2Proof.Machine
end

