-- ==== Sys2Proof/Machine/Step.lean ====
section
/-! DEFINITION. One step of the machine. There is no fetch (20_memory.md R56): the next command is the oldest entry of
`inputs` (log 1). -/

namespace Sys2Proof.Machine

/-- One step (20_memory.md R52, R53). -/
def step (s : State) : Host.Outcome State Fault Refusal := advance s

/-- `s` with the command word of `nbits` low bits of `w` as what the host issues next (log 1). -/
def State.withFetchWord (s : State) (nbits w : Nat) : State := placeCommand (tableWord nbits w) s

end Sys2Proof.Machine
end

