-- ==== Sys2Proof/Machine/Runs.lean ====
section
/-! DEFINITION. Runs of the machine and their fairness, which is no timing (70_reset_and_hazards.md R225): the readiness moves
under the argument `WORKING_SILICON` (00_scope.md R5, 44_usb_control.md R127), the safety timeout always
(41_capsense_acquisition.md R85). -/

namespace Sys2Proof.Machine

/-- A run: each state follows from the one before by a step, after which the agents outside may have added to what waits
(log 1). -/
def IsRun (run : Nat → State) : Prop :=
  ∀ n, ∃ t more, step (run n) = .next t ∧ run (n + 1) = { t with inputs := t.inputs ++ more }

/-- The next step of `s` is the move `m`. -/
def Fires (m : EnvMove) (s : State) : Prop := ∃ rest, s.inputs = .env m :: rest

/-- The readiness move a holding USB.ENABLE waits for (44_usb_control.md R115, R119, R121). -/
def awaited (s : State) : Option EnvMove :=
  if s.usb.enBusy then
    match s.usb.enStep with
    | 3 => some .clkrdy
    | 7 => some .ahbidle
    | 9 => some .crstdone
    | _ => none
  else none

/-- A run the environment may make, `WORKING_SILICON` being an argument of the model (00_scope.md R5, D39): when it is true,
a readiness move that is enabled while USB.ENABLE holds for it fires in the end, unless that hold ends otherwise; when it is
false it may never fire. While the safety timer runs, the timeout fires in the end (41_capsense_acquisition.md R85). -/
def FairRun (workingSilicon : Bool) (run : Nat → State) : Prop :=
  IsRun run ∧
  (workingSilicon = true → ∀ n m, awaited (run n) = some m → m.enabled (run n) = true →
    ∃ k, n ≤ k ∧ (Fires m (run k) ∨ awaited (run k) ≠ some m)) ∧
  (∀ n, (run n).cap.toRun = true → ∃ k, n ≤ k ∧ (Fires .timeout (run k) ∨ (run k).cap.toRun = false))

end Sys2Proof.Machine
end

