-- ==== Sys2Proof/Safety.lean ====
section
/-! DEFINITION. The terms statements are made in: what a command answers, runs of commands, and the invariants of the
block. -/

namespace Sys2Proof.Safety

open Sys2Proof.Machine

/-- `t` shows the result word `res` and the bytes `data`, and nothing else of the command port differs from `s`: the
word, its issuer and every byte of BUF are as before (10_state.md R38, 20_memory.md R44). -/
def Answers (s t : State) (res : Option Word) (data : List Byte) : Prop :=
  t.port.res = res ∧ t.port.data = data ∧ t.port.cmd = s.port.cmd ∧ t.port.issuer = s.port.issuer ∧
    ∀ a, Memory.read t.port.buf a = Memory.read s.port.buf a

/-- The result word of `return v` (30_encoding.md R62). -/
def okWord (v : Half) : Option Word := some (BitVec.ofNat 32 v.toNat)

/-- The result word of an error: the code in bits 31:28, all else 0 (30_encoding.md R62, R63). -/
def errorWord (code : Nat) : Option Word := some (BitVec.ofNat 32 (code * 2 ^ 28))

/-- Commands one after the other, stopping at the first fault or refusal. -/
def execAll : List Instr → State → Result
  | [], s => .next s
  | i :: is, s =>
    match exec i s with
    | .next t => execAll is t
    | .fault f => .fault f
    | .refused r => .refused r

/-- The next agent step of `s` is the move `m`. -/
def NextMove (s : State) (m : EnvMove) (rest : List Stimulus) : Prop := s.inputs = .env m :: rest

/-- The exact sum of a list of samples. -/
def sampleSum (vs : List Half) : Nat := (vs.map BitVec.toNat).sum

/-! ### Invariants -/

/-- The ring of the queue (10_state.md R17): `q.tail = (q.head + q.count) mod 4`; an unsplit queue is empty. -/
def QueueInv (s : State) : Prop :=
  s.q.tail.val = (s.q.head.val + s.q.count.val) % 4 ∧ (s.q.split = false → s.q.count = 0)

/-- Step E9 has been taken between `s` and `t`: the core fields are at their reset values with the flags free, the core reset
bit is set, USB.ENABLE waits at E10, allocation and pending state are kept (44_usb_control.md R120, R136). -/
def CoreResetIssued (s t : State) : Prop :=
  t.usb = { Usb.reset true t.usb.ints with
    csrst := true, enBusy := true, enStep := 9, enIssuer := s.usb.enIssuer, ctrlAlloc := s.usb.ctrlAlloc,
    next := s.usb.next, pend := s.usb.pend } ∧ t.bus.resetSeen = false

/-- A filter's stored mean is the truncating average of its window, and no sample of the window exceeds its maximum
(10_state.md R12). -/
def FilterOk (f : FilterState) : Prop :=
  f.mean.toNat = sampleSum f.hist.toList / 16 ∧ ∀ v ∈ f.hist.toList, v ≤ f.max

/-- Both filters, and both halves of every frame the queue holds, are right (10_state.md R12, R13). -/
def FilterInv (s : State) : Prop :=
  FilterOk s.flt.a ∧ FilterOk s.flt.b ∧ ∀ f ∈ s.q.frames, FilterOk f.a ∧ FilterOk f.b

/-- Between commands the acquisition is in Idle or Measuring, both timers run exactly in Measuring, and then the
multiplexer is on the active channel (41_capsense_acquisition.md R80 to R82). -/
def AcquisitionInv (s : State) : Prop :=
  s.cap.phase ≠ .captured ∧ (s.cap.ttRun = true ↔ s.cap.phase = .measuring) ∧
    (s.cap.toRun = true ↔ s.cap.phase = .measuring) ∧ (s.cap.phase = .measuring → s.cap.mux = s.cap.ch)

/-- The FIFOs and the received size keep their bounds (10_state.md R31, R32), and no Out transfer is ever pending
(10_state.md R20). -/
def FifoInv (s : State) : Prop :=
  s.usb.txf.length ≤ 384 ∧ s.usb.rxf.length ≤ 384 ∧ s.usb.rxsize.toNat ≤ 1536 ∧ s.usb.pend.out = false

/-- Between steps a running USB.ENABLE holds at one of its three waits, whose bit is not set yet; otherwise none or all
fifteen steps are done; the core reset bit is set only while E10 waits (44_usb_control.md R111, R115, R119, R121). -/
def EnableInv (s : State) : Prop :=
  (s.usb.enBusy = true →
    (s.usb.enStep = 3 ∧ s.phy.clkrdy = false) ∨ (s.usb.enStep = 7 ∧ s.usb.ahbidle = false) ∨
      (s.usb.enStep = 9 ∧ s.usb.csrst = true)) ∧
  (s.usb.enBusy = false → s.usb.enStep = 0 ∨ s.usb.enStep = 15) ∧
  (s.usb.csrst = true → s.usb.enBusy = true ∧ s.usb.enStep = 9)

/-- All six PHY controls are on (`PHY_CTRL` = 0x3F, 44_usb_control.md R111). -/
def PhyOn (p : Phy) : Prop :=
  p.oscsel = true ∧ p.calen = true ∧ p.clkrec = true ∧ p.clksel = true ∧ p.lpdis = true ∧ p.phyen = true

/-- The order contract: the link is functional exactly when the soft-disconnect bit is clear, the turnaround field is
programmed, the four sources and the global line are unmasked; then the PHY is live and ready and no USB.ENABLE runs;
while one runs, what its completed steps have written stays (44_usb_control.md R111, R128, 70_reset_and_hazards.md R210,
R211). -/
def LinkInv (s : State) : Prop :=
  s.usb.sftdiscon = !s.usb.linkOk ∧ s.usb.trdset = s.usb.linkOk ∧ s.usb.ginten = s.usb.linkOk ∧
    s.usb.intm = (if s.usb.linkOk then 0xF else 0) ∧
    (s.usb.linkOk = true →
      PhyOn s.phy ∧ s.phy.clkrdy = true ∧ s.usb.ahbidle = true ∧ s.usb.enBusy = false ∧ s.usb.enStep = 15) ∧
    (s.usb.enBusy = true → s.phy.oscsel = true ∧ s.phy.calen = true ∧ s.phy.clkrec = true) ∧
    (s.usb.enBusy = true → 7 ≤ s.usb.enStep.val → PhyOn s.phy ∧ s.phy.clkrdy = true) ∧
    (s.usb.enBusy = true → 9 ≤ s.usb.enStep.val → s.usb.ahbidle = true)

/-- What a context at work still does by itself is the rest of its handler (30_encoding.md R69, 60_exceptions.md R185 to
R187). -/
def OwnSteps (a : Activation) : Prop :=
  match a.ctx with
  | .idle => False
  | .usb => a.todo <:+ usbIsr
  | .timer => a.todo <:+ timerIsr
  | .rtc => a.todo <:+ rtcIsr ∨ ∃ b, a.todo <:+ rtcReport b

/-- The contexts at work are nested by strict priority, each with the rest of its handler to do; the holder of the ceiling
lock runs; the issuer of a running USB.ENABLE is Idle or at work (60_exceptions.md R174, R178, R181, R182). -/
def ContextInv (s : State) : Prop :=
  s.host.active.Pairwise (fun a b => b.ctx.prio < a.ctx.prio) ∧ (∀ a ∈ s.host.active, OwnSteps a) ∧
    (∀ c, s.host.usbLock = some c → running s = c) ∧
    (s.usb.enBusy = true → s.usb.enIssuer = .idle ∨ ∃ a ∈ s.host.active, a.ctx = s.usb.enIssuer)

/-- The handler of `c` must start: it is requested, no requested one is above it, it is above the running context, and no
ceiling lock is held (60_exceptions.md R175 to R183). -/
def Due (c : Context) (s : State) : Prop :=
  requested c s = true ∧ (∀ d, requested d s = true → d.prio ≤ c.prio) ∧ (running s).prio < c.prio ∧ s.host.usbLock = none

/-- No handler must start. -/
def NoneDue (s : State) : Prop := ∀ c, ¬ Due c s

/-- What starting the handler of `c` makes of the host's side (30_encoding.md R69, 60_exceptions.md R185 to R187): it runs, with
the steps of its expansion to do; what it preempts is below it. -/
def Started (c : Context) (s : State) (k : HostSide) : Prop :=
  match c with
  | .idle => False
  | .usb => k = { s.host with usbPend := false, active := ⟨.usb, [.cmd 0x48000000 []]⟩ :: s.host.active }
  | .timer => k = { s.host with active :=
      ⟨.timer, [.cmd 0x04000000 [], .cmd 0x02000000 [], .cmd 0x01000000 [], .pendUsb]⟩ :: s.host.active }
  | .rtc => k = { s.host with rtcFlag := false, active :=
      ⟨.rtc, [.cmd 0x0F000004 [], .reportIfConfigured]⟩ :: s.host.active }

/-- The waiting step `x` is one that context `c` must take itself: a command, or taking or giving back the lock. -/
def StepOf (c : Context) (x : Stimulus) : Prop :=
  (∃ w b, x = .cmd c w b) ∨ x = .host (.lock c) ∨ x = .host (.unlock c)

/-- The command the running handler issues by itself when the host goes on, if that is what happens next. -/
def ownCommand (s : State) : Option (Context × Word × Memory) :=
  match due s, hung s, pendingSteps s with
  | none, false, .cmd w b :: _ => some (running s, w, b)
  | _, _, _ => none

/-- The command the next step issues, if it issues one: the waiting one when its context can run, else the running
handler's own. -/
def nextCommand (s : State) : Option (Context × Word × Memory) :=
  match s.inputs with
  | [] => ownCommand s
  | .turn :: _ => ownCommand s
  | .cmd c w b :: _ => if mayAct c s then some (c, w, b) else ownCommand s
  | .env _ :: _ => none
  | .host a :: _ => if ready (.host a) s then none else ownCommand s

/-- Half-word `k` of serialised data is `h`, low byte first (30_encoding.md R64). -/
def HalfAt (data : List Byte) (k : Nat) (h : Half) : Prop :=
  data[2 * k]? = some (BitVec.ofNat 8 h.toNat) ∧ data[2 * k + 1]? = some (BitVec.ofNat 8 (h.toNat / 256))

/-- The nineteen half-words from `k` on are those of the filter `f` (30_encoding.md R64). -/
def FilterAt (data : List Byte) (k : Nat) (f : FilterState) : Prop :=
  (∀ i : Fin 16, HalfAt data (k + i.val) (f.hist.get i)) ∧ HalfAt data (k + 16) (BitVec.ofNat 16 f.cur.val) ∧
    HalfAt data (k + 17) f.mean ∧ HalfAt data (k + 18) f.max

/-- BUF, every buffer that waits to be handed over, and every buffer of a handler's own command, are in canonical form. -/
def MemoryInv (s : State) : Prop :=
  Memory.wf s.port.buf ∧ (∀ c w b, Stimulus.cmd c w b ∈ s.inputs → Memory.wf b) ∧
    ∀ a ∈ s.host.active, ∀ w b, HandlerStep.cmd w b ∈ a.todo → Memory.wf b

end Sys2Proof.Safety
end

