-- ==== Sys2Proof/Certificates/Slice0/Obligations.lean ====
section
/-! DEFINITION. The statements about the model, from the spec's numbered rules. -/

open Sys2Proof Sys2Proof.Machine Sys2Proof.Safety

/-! ### Encoding -/

/-- 30_encoding.md R60, R61, R65: no operand bit is dropped; every command with operands in range decodes from its own
word. -/
def Obligations.DecodeOfEncode : Prop :=
  ∀ i : Instr, i.wf = true → decode (encode i) = .ok i

/-- 30_encoding.md R60, R61, R65: a word has one meaning; what decodes is well-formed and is that command's own word. -/
def Obligations.EncodeOfDecode : Prop :=
  ∀ (w : Word) (i : Instr), decode w = .ok i → i.wf = true ∧ encode i = w

/-- 30_encoding.md R66: a word is a command exactly when it matches a row of the map by mask; every other word is
refused as `IllegalCommand`, whoever issues it. -/
def Obligations.WordsOffTheMapAreReserved : Prop :=
  ∀ w : Word,
    ((∃ r ∈ opcodeMap, w &&& r.mask = r.pattern) → ∃ i, decode w = .ok i) ∧
    ((∀ r ∈ opcodeMap, w &&& r.mask ≠ r.pattern) →
      ∀ c buf s, runCommand c w buf s = .refused .illegalCommand)

/-- 95_test_vectors.md E1 to E15: words written out by the spec decode to the commands they stand for. -/
def Obligations.WrittenWordsDecode : Prop :=
  decode 0x01000000 = .ok .capMeasure ∧
  decode 0x02000000 = .ok .capCapture ∧
  decode 0x0F000006 = .ok (.sysRdreg 6) ∧
  decode 0x20011234 = .ok (.fltPush .B 0x1234) ∧
  decode 0x31000000 = .ok .qEnq ∧
  decode 0x42810000 = .ok (.usbAlloc .inn 1) ∧
  decode 0x43800005 = .ok (.usbWrite .inn 0 5) ∧
  decode 0x44000006 = .ok (.usbRead .out 0 6) ∧
  decode 0x46800001 = .ok (.usbSetstall .inn 0 true) ∧
  decode 0x47010000 = .ok (.usbIsstalled .out 1)

/-! ### The step -/

/-- 20_memory.md R52, 30_encoding.md R66, 60_exceptions.md R173, R178, R182: when the next act is a command word from a context
that may act, or the running handler's own next step is one and the host goes on, the step is that command on the state in
which its context runs, whatever the word: a reserved word is refused, a command on another's port is refused, and every
other is its meaning with the request handed to the port (10_state.md R38). The contexts at work stay, those preempted
among them: the issuer's own is added where it did not run, or its own step is off its list. The list of next acts, the
contexts at work, the port's fields and what ownership records are the model's choices (logs 1, 11 to 15, 20). -/
def Obligations.StepRunsTheDecodedCommand : Prop :=
  ∀ (s : State) (c : Context) (w : Word) (buf : Memory) (rest : List Stimulus) (fs : List Activation),
    (s.inputs = .cmd c w buf :: rest ∧ mayAct c s = true ∧
        fs = (if c = running s then s.host.active else ⟨c, []⟩ :: s.host.active) ∨
      (s.inputs = .turn :: rest ∨ s.inputs = [] ∧ rest = []) ∧ NoneDue s ∧ hung s = false ∧
        ∃ more below, s.host.active = ⟨c, .cmd w buf :: more⟩ :: below ∧ fs = ⟨c, more⟩ :: below) →
    running { s with host := { s.host with active := fs } } = c ∧
    step s = runCommand c w buf { s with inputs := rest, host := { s.host with active := fs } } ∧
    ((∀ i, decode w ≠ .ok i) → step s = .refused .illegalCommand) ∧
    (∀ i, decode w = .ok i → ownsPort c i s = false → step s = .refused (.hostProtocol .notOwner)) ∧
    (∀ i, decode w = .ok i → ownsPort c i s = true → step s = exec i { s with
      inputs := rest
      port := { issuer := c, cmd := w, buf := buf, res := none, data := [] }
      host := if i = .capMeasure then { s.host with boot := false, active := fs }
        else if i = .qDeq then { s.host with consumer := some c, active := fs }
        else { s.host with active := fs } })

/-- 60_exceptions.md R173, R184, R187: a command on a port by a context that does not own it is refused, and one by its
owner runs. The capture port and the producer port are the timer context's (the boot code may issue the first CAP.MEASURE,
log 12), the USB port is the lock holder's or, with no lock held, anyone's (log 14), the consumer port is never the
producer's and stays with its first user (log 13); the read-only commands may come from any context, and so may Q.SPLIT
(log 30). -/
def Obligations.PortsBelongToTheirOwners : Prop :=
  ∀ (s : State) (c : Context) (w : Word) (buf : Memory) (i : Instr), decode w = .ok i →
    ((i = .capCapture ∨ i = .tmrAck ∨ i = .qEnq ∨ ∃ ch v, i = .fltPush ch v) → c ≠ .timer →
      runCommand c w buf s = .refused (.hostProtocol .notOwner)) ∧
    (i = .capMeasure → c ≠ .timer → (c ≠ .idle ∨ s.host.boot = false) →
      runCommand c w buf s = .refused (.hostProtocol .notOwner)) ∧
    (i = .qDeq → (c = .timer ∨ ∃ d, s.host.consumer = some d ∧ d ≠ c) →
      runCommand c w buf s = .refused (.hostProtocol .notOwner)) ∧
    (i.isUsb = true → (∃ d, s.host.usbLock = some d ∧ d ≠ c) →
      runCommand c w buf s = .refused (.hostProtocol .notOwner)) ∧
    (((i = .capMeasure ∨ i = .capCapture ∨ i = .tmrAck ∨ i = .qEnq ∨ ∃ ch v, i = .fltPush ch v) ∧ c = .timer ∨
        i = .capMeasure ∧ c = .idle ∧ s.host.boot = true ∨
        i = .qDeq ∧ c ≠ .timer ∧ (s.host.consumer = none ∨ s.host.consumer = some c) ∨
        i.isUsb = true ∧ (s.host.usbLock = none ∨ s.host.usbLock = some c) ∨
        i = .qLen ∨ i = .qSplit ∨ (∃ ch, i = .fltRaw ch ∨ i = .fltMean ch ∨ i = .fltMax ch) ∨ ∃ n, i = .sysRdreg n) →
      runCommand c w buf s = exec i (latchRequest c w buf (noteIssue c i s)))

/-! ### Capacitive-sense acquisition -/

/-- 41_capsense_acquisition.md R81. -/
def Obligations.MeasureStartsTheActiveChannel : Prop :=
  ∀ s : State,
    (s.cap.phase = .idle →
      ∃ t, exec .capMeasure s = .next t ∧
        t.cap = { ch := s.cap.ch, phase := .measuring, mux := s.cap.ch, ttRun := true, toRun := true, cnt := 0,
                  ovf := s.cap.ovf } ∧
        t = { s with cap := t.cap, port := t.port } ∧ Answers s t (okWord 0) []) ∧
    (s.cap.phase ≠ .idle → exec .capMeasure s = .refused (.hostProtocol .measureOutsideIdle))

/-- 41_capsense_acquisition.md R82: an A capture pushes the sample into A's filter, leaves the queue alone, and goes to
Idle(B); outside Measuring, on either channel, CAP.CAPTURE is refused (60_exceptions.md R173). -/
def Obligations.CaptureOfAPushesTheSample : Prop :=
  ∀ s : State,
    (s.cap.phase = .measuring → s.cap.ch = .A →
      ∃ t, exec .capCapture s = .next t ∧
        t.flt = { a := s.flt.a.push s.cap.cnt, b := s.flt.b } ∧
        t.cap = { s.cap with ch := .B, phase := .idle, ttRun := false, toRun := false } ∧
        t = { s with flt := t.flt, cap := t.cap, port := t.port } ∧ Answers s t (okWord 0) []) ∧
    (s.cap.phase ≠ .measuring → exec .capCapture s = .refused (.hostProtocol .captureOutsideMeasuring))

/-- 41_capsense_acquisition.md R82: a B capture pushes the sample into B's filter, enqueues a frame of A's filter as it
is and B's filter after the push, drops it silently when four frames are held, answers Ok either way, and goes to
Idle(A); before Q.SPLIT it is refused (43_sample_queue.md R101). -/
def Obligations.CaptureOfBEnqueuesOrDropsTheFrame : Prop :=
  ∀ s : State, s.cap.phase = .measuring → s.cap.ch = .B →
    (s.q.split = true → ∃ t, exec .capCapture s = .next t ∧
      t.flt = { a := s.flt.a, b := s.flt.b.push s.cap.cnt } ∧
      t.cap = { s.cap with ch := .A, phase := .idle, ttRun := false, toRun := false } ∧
      t = { s with flt := t.flt, cap := t.cap, q := t.q, port := t.port } ∧ Answers s t (okWord 0) [] ∧
      t.q.head = s.q.head ∧ t.q.split = true ∧
      (s.q.count.val = 4 → t.q = s.q) ∧
      (s.q.count.val < 4 → t.q.count.val = s.q.count.val + 1 ∧ t.q.tail.val = (s.q.tail.val + 1) % 4 ∧
        t.q.slot = s.q.slot.set s.q.tail { a := s.flt.a, b := s.flt.b.push s.cap.cnt })) ∧
    (s.q.split = false → exec .capCapture s = .refused (.hostProtocol .enqueueBeforeSplit))

/-- 41_capsense_acquisition.md R83. -/
def Obligations.AckClearsTheOverflowFlag : Prop :=
  ∀ s : State, ∃ t, exec .tmrAck s = .next t ∧ irqTmr t = false ∧
    t.cap = { s.cap with ovf := false } ∧ t = { s with cap := t.cap, port := t.port } ∧ Answers s t (okWord 0) []

/-- 41_capsense_acquisition.md R84, R85, 44_usb_control.md R127: ENV.TICK counts modulo 65536 while the timing timer runs;
ENV.TIMEOUT raises the timer interrupt while the safety timer runs; ENV.CLKRDY sets its bit once the oscillator is
selected, ENV.AHBIDLE its own; outside the hold that waits for it neither readiness move does anything else, at that hold
the sequencer goes on to its next wait. A move that is not enabled leaves the block as it was (log 10); that the sequencer
goes on in the lifting step is the model's choice (log 9). -/
def Obligations.TimerAndReadinessMoves : Prop :=
  ∀ (s : State) (rest : List Stimulus), EnableInv s →
    (NextMove s .tick rest → ∃ t, step s = .next t ∧ t = { s with inputs := rest, cap := t.cap } ∧
      t.cap = { s.cap with cnt := t.cap.cnt } ∧
      t.cap.cnt.toNat = if s.cap.ttRun then (s.cap.cnt.toNat + 1) % 65536 else s.cap.cnt.toNat) ∧
    (NextMove s .timeout rest → ∃ t, step s = .next t ∧ t = { s with inputs := rest, cap := t.cap } ∧
      t.cap = { s.cap with ovf := if s.cap.toRun then true else s.cap.ovf }) ∧
    (NextMove s .clkrdy rest →
      (s.phy.oscsel = false ∨ s.phy.clkrdy = true → step s = .next { s with inputs := rest }) ∧
      (s.phy.oscsel = true → s.phy.clkrdy = false → ¬ (s.usb.enBusy = true ∧ s.usb.enStep = 3) →
        step s = .next { s with inputs := rest, phy := { s.phy with clkrdy := true } }) ∧
      (s.phy.oscsel = true → s.phy.clkrdy = false → s.usb.enBusy = true → s.usb.enStep = 3 →
        ∃ t, step s = .next t ∧ t = { s with inputs := rest, phy := t.phy, usb := t.usb, bus := t.bus, draws := t.draws } ∧
          t.phy = { s.phy with clkrdy := true, clksel := true, lpdis := true, phyen := true } ∧
          (s.usb.ahbidle = false → t.usb = { s.usb with enStep := 7 } ∧ t.bus = s.bus ∧ t.draws = s.draws) ∧
          (s.usb.ahbidle = true → CoreResetIssued s t))) ∧
    (NextMove s .ahbidle rest →
      (s.usb.ahbidle = true → step s = .next { s with inputs := rest }) ∧
      (s.usb.ahbidle = false → ¬ (s.usb.enBusy = true ∧ s.usb.enStep = 7) →
        step s = .next { s with inputs := rest, usb := { s.usb with ahbidle := true } }) ∧
      (s.usb.ahbidle = false → s.usb.enBusy = true → s.usb.enStep = 7 →
        ∃ t, step s = .next t ∧ t = { s with inputs := rest, usb := t.usb, bus := t.bus, draws := t.draws } ∧
          CoreResetIssued s t)) ∧
    (NextMove s .crstdone rest → s.usb.csrst = false → step s = .next { s with inputs := rest })

/-- 41_capsense_acquisition.md R87: from Idle(A) with a split queue, `k` measure and capture pairs alternate A, B, A,
B and so on; A receives `ceil(k/2)` pushes and B `floor(k/2)` (seen at the cursors); a frame is added only on the B
captures, and never beyond four. -/
def Obligations.CapturesAlternate : Prop :=
  ∀ (k : Nat) (s : State), s.cap.phase = .idle → s.cap.ch = .A → s.q.split = true →
    ∃ t, execAll (List.replicate k [Instr.capMeasure, Instr.capCapture]).flatten s = .next t ∧
      t.cap.phase = .idle ∧ t.cap.ch = (if k % 2 = 0 then .A else .B) ∧
      t.flt.a.cur.val = (s.flt.a.cur.val + (k + 1) / 2) % 16 ∧
      t.flt.b.cur.val = (s.flt.b.cur.val + k / 2) % 16 ∧
      t.q.count.val = min 4 (s.q.count.val + k / 2) ∧ t.q.head = s.q.head

/-! ### Filters -/

/-- 42_filter.md R90: FLT.PUSH overwrites the slot at the cursor, advances the cursor modulo 16, recomputes the mean as
the truncating sixteenth of the exact sum of the window, raises the maximum by one unsigned comparison, and touches
nothing else. -/
def Obligations.PushUpdatesOneFilter : Prop :=
  ∀ (s : State) (ch : Channel) (v : Half),
    ∃ t, exec (.fltPush ch v) s = .next t ∧
      (∀ i : Fin 16, (t.flt.get ch).hist.get i = if i = (s.flt.get ch).cur then v else (s.flt.get ch).hist.get i) ∧
      (t.flt.get ch).cur.val = ((s.flt.get ch).cur.val + 1) % 16 ∧
      (t.flt.get ch).mean.toNat = sampleSum (t.flt.get ch).hist.toList / 16 ∧
      (t.flt.get ch).max.toNat = max (s.flt.get ch).max.toNat v.toNat ∧
      t.flt.get (succChannel ch) = s.flt.get (succChannel ch) ∧
      t = { s with flt := t.flt, port := t.port } ∧ Answers s t (okWord 0) []

/-- 42_filter.md R91, R92, R93: FLT.RAW answers the slot before the cursor (R91's own decision D26, log 24), FLT.MEAN the
stored mean, FLT.MAX the stored maximum; none changes anything but the result. -/
def Obligations.ReadoutsAnswerTheFilter : Prop :=
  ∀ (s : State) (ch : Channel),
    (∃ t, exec (.fltRaw ch) s = .next t ∧ t = { s with port := t.port } ∧
      Answers s t (okWord ((s.flt.get ch).hist.get (Fin.ofNat 16 ((s.flt.get ch).cur.val + 15)))) []) ∧
    (∃ t, exec (.fltMean ch) s = .next t ∧ t = { s with port := t.port } ∧ Answers s t (okWord (s.flt.get ch).mean) []) ∧
    (∃ t, exec (.fltMax ch) s = .next t ∧ t = { s with port := t.port } ∧ Answers s t (okWord (s.flt.get ch).max) [])

/-- 42_filter.md R97: after at least sixteen pushes from any state the mean is the truncating average of exactly the
sixteen last values pushed; with fewer, from reset, it is the sixteenth of the sum of all of them; and from reset the
maximum is the largest value ever pushed. -/
def Obligations.MeanAndMaximumOfPushes : Prop :=
  ∀ (vs : List Half) (ch : Channel) (s : State),
    ∃ t, execAll (vs.map (Instr.fltPush ch)) s = .next t ∧
      (16 ≤ vs.length → (t.flt.get ch).mean.toNat = sampleSum (vs.drop (vs.length - 16)) / 16) ∧
      (vs.length < 16 → s.flt.get ch = FilterState.reset → (t.flt.get ch).mean.toNat = sampleSum vs / 16) ∧
      (s.flt.get ch = FilterState.reset → (t.flt.get ch).max.toNat = (vs.map BitVec.toNat).foldr max 0)

/-- 42_filter.md R93, R95: no step of any agent lowers a maximum, but a hardware reset. -/
def Obligations.MaximumNeverDecays : Prop :=
  ∀ s t : State, step s = .next t → (∀ c a n rest, s.inputs ≠ .env (.hardwareReset c a n) :: rest) →
    s.flt.a.max ≤ t.flt.a.max ∧ s.flt.b.max ≤ t.flt.b.max

/-! ### Queue -/

/-- 43_sample_queue.md R100. -/
def Obligations.SplitHappensOnce : Prop :=
  ∀ s : State,
    (s.q.split = false → ∃ t, exec .qSplit s = .next t ∧ t.q = { s.q with split := true } ∧
      t = { s with q := t.q, port := t.port } ∧ Answers s t (okWord 0) []) ∧
    (s.q.split = true → exec .qSplit s = .refused (.hostProtocol .secondSplit))

/-- 43_sample_queue.md R101: Q.ENQ puts a snapshot of both filters behind the frames held; with four held it hands the
snapshot back on DATA with QueueFull and changes nothing; before Q.SPLIT it is refused. -/
def Obligations.EnqueueAppendsASnapshot : Prop :=
  ∀ s : State,
    (s.q.split = true → s.q.count.val < 4 →
      ∃ t, exec .qEnq s = .next t ∧ t = { s with q := t.q, port := t.port } ∧ Answers s t (okWord 0) [] ∧
        t.q.slot = s.q.slot.set s.q.tail { a := s.flt.a, b := s.flt.b } ∧
        t.q.tail.val = (s.q.tail.val + 1) % 4 ∧ t.q.count.val = s.q.count.val + 1 ∧
        t.q.head = s.q.head ∧ t.q.split = true) ∧
    (s.q.split = true → s.q.count.val = 4 →
      ∃ t, exec .qEnq s = .next t ∧ t = { s with port := t.port } ∧
        Answers s t (errorWord 5) (CapsenseFrame.bytes { a := s.flt.a, b := s.flt.b })) ∧
    (s.q.split = false → exec .qEnq s = .refused (.hostProtocol .enqueueBeforeSplit))

/-- 43_sample_queue.md R102: Q.DEQ delivers the frame at the head on DATA; an empty queue answers Empty and is left as
it is; before Q.SPLIT it is refused. -/
def Obligations.DequeueDeliversTheHead : Prop :=
  ∀ s : State,
    (s.q.split = true → 0 < s.q.count.val →
      ∃ t, exec .qDeq s = .next t ∧ t = { s with q := t.q, port := t.port } ∧
        Answers s t (okWord 0) (s.q.slot.get s.q.head).bytes ∧
        t.q.head.val = (s.q.head.val + 1) % 4 ∧ t.q.count.val = s.q.count.val - 1 ∧
        t.q.slot = s.q.slot ∧ t.q.tail = s.q.tail ∧ t.q.split = true) ∧
    (s.q.split = true → s.q.count.val = 0 →
      ∃ t, exec .qDeq s = .next t ∧ t = { s with port := t.port } ∧ Answers s t (errorWord 6) []) ∧
    (s.q.split = false → exec .qDeq s = .refused (.hostProtocol .dequeueBeforeSplit))

/-- 43_sample_queue.md R103. -/
def Obligations.LengthCountsTheFrames : Prop :=
  ∀ s : State, ∃ t, exec .qLen s = .next t ∧ t = { s with port := t.port } ∧
    Answers s t (okWord (BitVec.ofNat 16 s.q.frames.length)) []

/-- 10_state.md R17, 43_sample_queue.md R102: the ring of four slots is a first-in first-out list: Q.ENQ appends to it
and Q.DEQ delivers and removes its first frame. -/
def Obligations.RingIsAFifo : Prop :=
  ∀ s t : State, QueueInv s →
    (exec .qEnq s = .next t → s.q.count.val < 4 → t.q.frames = s.q.frames ++ [snapshot s]) ∧
    (exec .qEnq s = .next t → s.q.count.val = 4 → t.q.frames = s.q.frames) ∧
    (exec .qDeq s = .next t → ∀ f fs, s.q.frames = f :: fs → t.q.frames = fs ∧ t.port.data = f.bytes)

/-- 10_state.md R17, 43_sample_queue.md R101 (the source's property): five enqueues on an empty split queue: the fifth
fails and the queue holds four items. -/
def Obligations.FifthEnqueueFails : Prop :=
  ∀ s : State, s.q.split = true → s.q.count = 0 →
    ∃ t, execAll (List.replicate 5 .qEnq) s = .next t ∧ t.port.res = errorWord 5 ∧
      t.port.data = (snapshot s).bytes ∧
      ∃ u, exec .qLen t = .next u ∧ u.port.res = okWord 4

/-- 30_encoding.md R64: a frame is 76 bytes: the half-words of A's filter, `hist[0]` to `hist[15]`, `cur`, `mean`, `max`, then
those of B's, each low byte first; so the bytes determine the frame they came from. -/
def Obligations.FrameBytesAreFaithful : Prop :=
  ∀ f g : CapsenseFrame, f.bytes.length = 76 ∧ FilterAt f.bytes 0 f.a ∧ FilterAt f.bytes 19 f.b ∧
    (f.bytes = g.bytes → f = g)

/-! ### USB control -/

/-- 44_usb_control.md R111 to R120: USB.ENABLE runs to its first wait whose bit is not set. With CLKRDY 0 it holds at E4
after E1 to E3; with CLKRDY 1 and AHBIDLE 0 it holds at E8 with the PHY on; with both 1 it performs the core soft reset
and holds at E10. A hold is a next state without a result word: the model's choice, log 9. Refused while another
USB.ENABLE holds. -/
def Obligations.EnableRunsToItsFirstWait : Prop :=
  ∀ s : State,
    (s.usb.enBusy = true → exec .usbEnable s = .refused (.hostProtocol .usbWhileEnabling)) ∧
    (s.usb.enBusy = false → ∃ t, exec .usbEnable s = .next t ∧ Answers s t none [] ∧
      t.usb.enBusy = true ∧ t.usb.enIssuer = s.port.issuer ∧
      t = { s with phy := t.phy, usb := t.usb, bus := t.bus, port := t.port, draws := t.draws } ∧
      (s.phy.clkrdy = false → t.usb.enStep = 3 ∧
        t.phy = { s.phy with oscsel := true, calen := true, clkrec := true } ∧
        t.usb = { s.usb with enBusy := true, enStep := 3, enIssuer := s.port.issuer } ∧
        t.bus = s.bus ∧ t.draws = s.draws) ∧
      (s.phy.clkrdy = true → s.usb.ahbidle = false → PhyOn t.phy ∧ t.phy.clkrdy = true ∧
        t.usb = { s.usb with enBusy := true, enStep := 7, enIssuer := s.port.issuer } ∧
        t.bus = s.bus ∧ t.draws = s.draws) ∧
      (s.phy.clkrdy = true → s.usb.ahbidle = true → PhyOn t.phy ∧ t.phy.clkrdy = true ∧
        t.bus.resetSeen = false ∧
        t.usb = { Usb.reset true t.usb.ints with
          csrst := true, enBusy := true, enStep := 9, enIssuer := s.port.issuer, ctrlAlloc := s.usb.ctrlAlloc,
          next := s.usb.next, pend := s.usb.pend }))

/-- 44_usb_control.md R121 to R126: when ENV.CRSTDONE lifts the hold at E10, steps E11 to E15 run and the command
returns 0 to the context that issued it; that it does so in the lifting step is the model's choice, log 9. The
turnaround value is any value (log 5). -/
def Obligations.EnableCompletesAfterTheCoreReset : Prop :=
  ∀ (s : State) (rest : List Stimulus), NextMove s .crstdone rest →
    s.usb.enBusy = true → s.usb.enStep = 9 → s.usb.csrst = true →
    ∃ t, step s = .next t ∧ t.port.res = okWord 0 ∧ t.port.data = [] ∧ t.port.issuer = s.usb.enIssuer ∧
      t.port.cmd = 0x40000000 ∧ t.port.buf = s.port.buf ∧
      t.usb = { s.usb with csrst := false, trdtim := Config.trdtimValue, trdset := true, intm := 0xF, ints := 0,
                           ginten := true, sftdiscon := false, linkOk := true, enStep := 15, enBusy := false } ∧
      t = { s with usb := t.usb, port := t.port, inputs := rest } ∧ presented t = true ∧ irqUsb t = false

/-- 44_usb_control.md R111, R127 (the worked example; 95_test_vectors.md V26): from any state in which no USB.ENABLE
holds, with the three readiness moves following, USB.ENABLE completes within four steps and returns 0, whatever
CLKRDY, AHBIDLE and the flags were. The premise on the moves is what `WORKING_SILICON` grants (log 22); that a held
command goes on in the lifting step is the model's choice (log 9). -/
def Obligations.EnableCompletesOnWorkingSilicon : Prop :=
  ∀ (s : State) (c : Context) (rest : List Stimulus),
    s.usb.enBusy = false → s.usb.csrst = false → mayAct c s = true → ownsPort c .usbEnable s = true →
    s.inputs = .cmd c 0x40000000 [] :: .env .clkrdy :: .env .ahbidle :: .env .crstdone :: rest →
    ∃ t, Host.Core.run core 4 s = .next t ∧ t.inputs = rest ∧ t.port.res = okWord 0 ∧ t.port.issuer = c ∧
      readRegister 0x00 t = some 0x3F ∧ readRegister 0x01 t = some 0x01 ∧ readRegister 0x02 t = some 0x80000000 ∧
      readRegister 0x03 t = some (0x10 + Config.trdtimValue.setWidth 32) ∧
      readRegister 0x04 t = some 0 ∧ readRegister 0x05 t = some 0x0F ∧ readRegister 0x06 t = some 0x01 ∧
      readRegister 0x0D t = some 0x0F ∧ t.usb.linkOk = true ∧ presented t = true ∧
      t.usb.ctrlAlloc = s.usb.ctrlAlloc ∧ t.usb.next = s.usb.next ∧ t.usb.pend = s.usb.pend

/-- 44_usb_control.md R115, R119, R121, 60_exceptions.md R174: a hold is lifted only by its own readiness move (or ended
by hardware reset): any other step leaves USB.ENABLE holding at the same step (the hold as a state: log 9). -/
def Obligations.HoldIsLiftedOnlyByItsMove : Prop :=
  ∀ s t : State, EnableInv s → s.usb.enBusy = true → step s = .next t →
    (∀ c a n rest, ¬ NextMove s (.hardwareReset c a n) rest) →
    (s.usb.enStep = 3 → (∀ rest, ¬ NextMove s .clkrdy rest) → t.usb.enBusy = true ∧ t.usb.enStep = 3) ∧
    (s.usb.enStep = 7 → (∀ rest, ¬ NextMove s .ahbidle rest) → t.usb.enBusy = true ∧ t.usb.enStep = 7) ∧
    (s.usb.enStep = 9 → (∀ rest, ¬ NextMove s .crstdone rest) → t.usb.enBusy = true ∧ t.usb.enStep = 9)

/-- 44_usb_control.md R111, 60_exceptions.md R173: while USB.ENABLE holds, every other USB command is refused;
46_system.md R160: SYS.RDREG is not. -/
def Obligations.HoldRefusesUsbCommands : Prop :=
  ∀ (s : State) (i : Instr), s.usb.enBusy = true →
    (i.isUsb = true → exec i s = .refused (.hostProtocol .usbWhileEnabling)) ∧
    (∀ n v, i = .sysRdreg n → readRegister n s = some v → ∃ t, exec i s = .next t)

/-- 44_usb_control.md R129 with `RESET_RELEASES_CTRL` at its default (log 6). -/
def Obligations.UsbResetClearsTheSession : Prop :=
  ∀ s : State, s.usb.enBusy = false →
    ∃ t, exec .usbReset s = .next t ∧
      t.usb = { s.usb with addr := 0, stall := ⟨false, false⟩, pend := ⟨false, false⟩, txf := [], rxf := [],
                           rxsize := 0, ctrlAlloc := ⟨false, false⟩ } ∧
      t = { s with usb := t.usb, port := t.port } ∧ Answers s t (okWord 0) []

/-- 44_usb_control.md R130: index 0 allocates the direction's control endpoint once; any nonzero index gets the
direction's next sequential interface endpoint up to 3, whatever number was asked for; the other direction is
untouched; errors change nothing. -/
def Obligations.AllocGivesSequentialEndpoints : Prop :=
  ∀ (s : State) (d : Dir) (idx : Nat), s.usb.enBusy = false →
    (idx = 0 → s.usb.ctrlAlloc.get d = false →
      ∃ t, exec (.usbAlloc d idx) s = .next t ∧ t.usb = { s.usb with ctrlAlloc := s.usb.ctrlAlloc.set d true } ∧
        t = { s with usb := t.usb, port := t.port } ∧ Answers s t (okWord (if d = .inn then 0x80 else 0x00)) []) ∧
    (idx = 0 → s.usb.ctrlAlloc.get d = true →
      ∃ t, exec (.usbAlloc d idx) s = .next t ∧ t = { s with port := t.port } ∧ Answers s t (errorWord 4) []) ∧
    (idx ≠ 0 → ∀ n : Fin 4, s.usb.next.get d = n → n.val < 3 →
      ∃ t, exec (.usbAlloc d idx) s = .next t ∧ t.usb = { s.usb with next := s.usb.next.set d (n + 1) } ∧
        t = { s with usb := t.usb, port := t.port } ∧
        Answers s t (okWord (BitVec.ofNat 16 ((if d = .inn then 0x80 else 0x00) + n.val + 1))) []) ∧
    (idx ≠ 0 → (s.usb.next.get d).val = 3 →
      ∃ t, exec (.usbAlloc d idx) s = .next t ∧ t = { s with port := t.port } ∧ Answers s t (errorWord 2) [])

/-- 10_state.md R19: only USB.ALLOC writes the allocation counters, they never decrease but by hardware reset, and the
control bits are set by USB.ALLOC and cleared by USB.RESET alone. -/
def Obligations.CountersNeverDecrease : Prop :=
  ∀ s t : State, step s = .next t → (∀ c a n rest, ¬ NextMove s (.hardwareReset c a n) rest) →
    s.usb.next.out ≤ t.usb.next.out ∧ s.usb.next.inn ≤ t.usb.next.inn ∧
    (t.usb.next ≠ s.usb.next ∨ t.usb.ctrlAlloc ≠ s.usb.ctrlAlloc →
      ∃ c w buf i, nextCommand s = some (c, w, buf) ∧ decode w = .ok i ∧
        ((∃ d n, i = .usbAlloc d n) ∨ (i = .usbReset ∧ t.usb.next = s.usb.next)))

/-- 44_usb_control.md R131: USB.SETADDR programs bits 6:0 of the operand and drops bit 7. -/
def Obligations.SetAddressTakesSevenBits : Prop :=
  ∀ (s : State) (a : BitVec 8), s.usb.enBusy = false →
    ∃ t, exec (.usbSetaddr a) s = .next t ∧ t.usb.addr.toNat = a.toNat % 128 ∧
      t.usb = { s.usb with addr := t.usb.addr } ∧ t = { s with usb := t.usb, port := t.port } ∧
      Answers s t (okWord 0) []

/-- 44_usb_control.md R133, R134: USB.SETSTALL assigns the direction's bit for index 0 and silently ignores every other
index; USB.ISSTALLED answers the bit for index 0 and 1 for every other index, and changes nothing. -/
def Obligations.StallBitsServeEndpointZero : Prop :=
  ∀ (s : State) (d : Dir) (idx : Nat) (b : Bool), s.usb.enBusy = false →
    (∃ t, exec (.usbSetstall d idx b) s = .next t ∧ t = { s with usb := t.usb, port := t.port } ∧
      t.usb = { s.usb with stall := t.usb.stall } ∧ Answers s t (okWord 0) [] ∧
      (∀ d' : Dir, t.usb.stall.get d' = if idx = 0 ∧ d' = d then b else s.usb.stall.get d')) ∧
    (∃ t, exec (.usbIsstalled d idx) s = .next t ∧ t = { s with port := t.port } ∧
      Answers s t (okWord (if idx = 0 then (if s.usb.stall.get d then 1 else 0) else 1)) [])

/-- 44_usb_control.md R135: USB.POLL reports and clears bus reset and enumeration done as one Reset, keeping the
endpoint-0 flags and the pending flags; otherwise it clears the pending flags and reports no event. -/
def Obligations.PollReportsOneReset : Prop :=
  ∀ s : State, s.usb.enBusy = false →
    ∃ t, exec .usbPoll s = .next t ∧ t = { s with usb := t.usb, port := t.port } ∧
      t.usb = { s.usb with ints := t.usb.ints, pend := t.usb.pend } ∧
      (s.usb.ints.getLsbD 0 = true ∨ s.usb.ints.getLsbD 1 = true →
        Answers s t (okWord 1) [] ∧ t.usb.pend = s.usb.pend ∧
        t.usb.ints.getLsbD 0 = false ∧ t.usb.ints.getLsbD 1 = false ∧
        t.usb.ints.getLsbD 2 = s.usb.ints.getLsbD 2 ∧ t.usb.ints.getLsbD 3 = s.usb.ints.getLsbD 3) ∧
      (s.usb.ints.getLsbD 0 = false → s.usb.ints.getLsbD 1 = false →
        Answers s t (okWord 0) [] ∧ t.usb.pend = ⟨false, false⟩ ∧ t.usb.ints = s.usb.ints)

/-- 70_reset_and_hazards.md R217, 10_state.md R26: an endpoint-0 interrupt flag, once set, is cleared by no step but
those of USB.ENABLE and hardware reset. -/
def Obligations.EndpointFlagsAreNeverAcknowledged : Prop :=
  ∀ (s t : State) (k : Nat), EnableInv s → (k = 2 ∨ k = 3) → s.usb.ints.getLsbD k = true → step s = .next t →
    s.usb.enBusy = false →
    (∀ c a n rest, ¬ NextMove s (.hardwareReset c a n) rest) →
    (∀ c w buf, nextCommand s = some (c, w, buf) → decode w ≠ .ok .usbEnable) →
    t.usb.ints.getLsbD k = true

/-! ### USB transfers -/

/-- 45_usb_fifo.md R140, R142: unpacking what was packed gives the bytes back; packing `n` bytes makes `ceil4(n)`
words; a lane beyond the data holds 0. -/
def Obligations.UnpackInvertsPack : Prop :=
  ∀ b : List Byte, unpack (pack b) b.length = b ∧ (pack b).length = (b.length + 3) / 4 ∧
    ∀ i j, j < 4 → b.length ≤ 4 * i + j → ∀ w, (pack b)[i]? = some w → w.extractLsb' (8 * j) 8 = 0

/-- 45_usb_fifo.md R141: a USB.WRITE to (In, 0) appends `ceil4(n)` words that hold BUF[0..n-1] little-endian, zeros in
the lanes beyond, for `n = min(len, 1536)`, sets the pending flag, and answers `n`. -/
def Obligations.WriteQueuesTheBuffer : Prop :=
  ∀ (s : State) (len : Nat), s.usb.enBusy = false → 0 < len →
    s.usb.txf.length + (min len 1536 + 3) / 4 ≤ 384 →
    ∃ t ws, exec (.usbWrite .inn 0 len) s = .next t ∧
      t.usb = { s.usb with txf := s.usb.txf ++ ws, pend := { s.usb.pend with inn := true } } ∧
      t = { s with usb := t.usb, port := t.port } ∧ Answers s t (okWord (BitVec.ofNat 16 (min len 1536))) [] ∧
      ws.length = (min len 1536 + 3) / 4 ∧
      ∀ i j w, j < 4 → ws[i]? = some w →
        w.extractLsb' (8 * j) 8 = if 4 * i + j < min len 1536 then Memory.read s.port.buf (4 * i + j) else 0

/-- 45_usb_fifo.md R141, R143, 60_exceptions.md R170, 20_memory.md R42: USB.WRITE serves only (In, 0) and USB.READ only
(Out, 0): any other address is InvalidEndpoint, whatever the length; length 0 there is WouldBlock; a write that does not
fit the FIFO faults. -/
def Obligations.TransferErrorsAndOverflow : Prop :=
  ∀ (s : State) (d : Dir) (idx len : Nat), s.usb.enBusy = false →
    (¬ (d = .inn ∧ idx = 0) → ∃ t, exec (.usbWrite d idx len) s = .next t ∧ t = { s with port := t.port } ∧
      Answers s t (errorWord 1) []) ∧
    (d = .inn → idx = 0 → len = 0 → ∃ t, exec (.usbWrite d idx len) s = .next t ∧ t = { s with port := t.port } ∧
      Answers s t (errorWord 3) []) ∧
    (d = .inn → idx = 0 → 0 < len → 384 < s.usb.txf.length + (min len 1536 + 3) / 4 →
      exec (.usbWrite d idx len) s = .fault .txFifoOverflow) ∧
    (¬ (d = .out ∧ idx = 0) → ∃ t, exec (.usbRead d idx len) s = .next t ∧ t = { s with port := t.port } ∧
      Answers s t (errorWord 1) []) ∧
    (d = .out → idx = 0 → len = 0 → ∃ t, exec (.usbRead d idx len) s = .next t ∧ t = { s with port := t.port } ∧
      Answers s t (errorWord 3) [])

/-- 45_usb_fifo.md R143, 20_memory.md R43: a USB.READ from (Out, 0) pops `ceil4(n)` words, fills BUF[0..n-1] with their
lanes (free values where the FIFO ran dry, log 4), leaves every other byte of BUF, and answers the requested `n`,
whatever the received size. -/
def Obligations.ReadFillsTheBuffer : Prop :=
  ∀ (s : State) (len : Nat), s.usb.enBusy = false → 0 < len → Memory.wf s.port.buf →
    ∃ t, exec (.usbRead .out 0 len) s = .next t ∧
      t.usb = { s.usb with rxf := s.usb.rxf.drop ((min len 1536 + 3) / 4) } ∧
      t = { s with usb := t.usb, port := t.port, draws := t.draws } ∧
      t.port = { s.port with buf := t.port.buf, res := okWord (BitVec.ofNat 16 (min len 1536)), data := [] } ∧
      (∀ a w, a < min len 1536 → s.usb.rxf[a / 4]? = some w →
        Memory.read t.port.buf a = w.extractLsb' (8 * (a % 4)) 8) ∧
      (∀ a, a < min len 1536 → s.usb.rxf.length ≤ a / 4 →
        Memory.read t.port.buf a =
          (Config.freeWord (s.draws + (a / 4 - s.usb.rxf.length))).extractLsb' (8 * (a % 4)) 8) ∧
      (∀ a, min len 1536 ≤ a → Memory.read t.port.buf a = Memory.read s.port.buf a)

/-- 45_usb_fifo.md R144 to R148, 70_reset_and_hazards.md R204: BUS.RESET sets one flag and remembers the reset;
BUS.ENUMDONE follows it; BUS.IN takes the oldest `k` words and sets EP0IN; BUS.OUT appends its words, records the size and
sets EP0OUT. A device that is not presented, a stalled direction, another address, or words that are not there or do not
fit disable them. A disabled move leaves the block as it was, and a move carries an address: the model's choices, logs 10
and 18; the receive FIFO's size is log 7. -/
def Obligations.BusMovesFollowTheirGuards : Prop :=
  ∀ (s : State) (rest : List Stimulus) (addr : BitVec 7) (k : Nat) (ws : List FifoWord), EnableInv s →
    (NextMove s .busReset rest → ∃ t, step s = .next t ∧
      t = if presented s then { s with inputs := rest, usb := { s.usb with ints := s.usb.ints ||| 1 },
                                       bus := { s.bus with resetSeen := true } }
          else { s with inputs := rest }) ∧
    (NextMove s .busEnumdone rest → ∃ t, step s = .next t ∧
      t = if presented s ∧ s.bus.resetSeen = true then
            { s with inputs := rest, usb := { s.usb with ints := s.usb.ints ||| 2 },
                     bus := { s.bus with resetSeen := false } }
          else { s with inputs := rest }) ∧
    (NextMove s (.busIn addr k) rest → ∃ t, step s = .next t ∧
      t = if presented s ∧ s.usb.stall.inn = false ∧ 1 ≤ k ∧ k ≤ s.usb.txf.length ∧ addr = s.usb.addr then
            { s with inputs := rest, usb := { s.usb with txf := s.usb.txf.drop k, ints := s.usb.ints ||| 4 } }
          else { s with inputs := rest }) ∧
    (NextMove s (.busOut addr ws k) rest → ∃ t, step s = .next t ∧
      t = if presented s ∧ s.usb.stall.out = false ∧ k ≤ 1536 ∧ ws.length = (k + 3) / 4 ∧
              s.usb.rxf.length + ws.length ≤ 384 ∧ addr = s.usb.addr then
            { s with inputs := rest, usb := { s.usb with rxf := s.usb.rxf ++ ws, rxsize := BitVec.ofNat 11 k,
                                                         ints := s.usb.ints ||| 8 } }
          else { s with inputs := rest })

/-! ### Registers -/

/-- 46_system.md R160, 30_encoding.md R70, R71: SYS.RDREG of a defined number answers bits 15:0 in the result word and
all 32 bits on DATA, low byte first, and changes nothing; of any other number it is refused. -/
def Obligations.RegisterReadHasNoSideEffect : Prop :=
  ∀ (s : State) (n : Nat),
    (n ≤ 0x0D ∨ (0x10 ≤ n ∧ n ≤ 0x12) → ∃ t v, exec (.sysRdreg n) s = .next t ∧ readRegister n s = some v ∧
      t = { s with port := t.port } ∧
      Answers s t (okWord (BitVec.ofNat 16 v.toNat))
        [BitVec.ofNat 8 v.toNat, BitVec.ofNat 8 (v.toNat / 2 ^ 8), BitVec.ofNat 8 (v.toNat / 2 ^ 16),
         BitVec.ofNat 8 (v.toNat / 2 ^ 24)]) ∧
    (¬ (n ≤ 0x0D ∨ (0x10 ≤ n ∧ n ≤ 0x12)) → exec (.sysRdreg n) s = .refused .illegalRegister)

/-- 10_state.md R22 to R37: where each field of the registers stands; every other bit reads 0, and USB_CAP is hardwired to 1
in every state. FIFO_STAT counts the words of FIFOs that keep their capacity. -/
def Obligations.RegistersHoldTheirFields : Prop :=
  ∀ s : State,
    readRegister 0x00 s = some (BitVec.ofNat 32 (s.phy.oscsel.toNat + 2 * s.phy.calen.toNat + 4 * s.phy.clkrec.toNat +
      8 * s.phy.clksel.toNat + 16 * s.phy.lpdis.toNat + 32 * s.phy.phyen.toNat)) ∧
    readRegister 0x01 s = some (BitVec.ofNat 32 s.phy.clkrdy.toNat) ∧
    readRegister 0x02 s = some (BitVec.ofNat 32 (s.usb.csrst.toNat + 2 ^ 31 * s.usb.ahbidle.toNat)) ∧
    readRegister 0x03 s = some (BitVec.ofNat 32 (s.usb.trdtim.toNat + 16 * s.usb.trdset.toNat)) ∧
    readRegister 0x04 s = some (BitVec.ofNat 32 s.usb.ints.toNat) ∧
    readRegister 0x05 s = some (BitVec.ofNat 32 s.usb.intm.toNat) ∧
    readRegister 0x06 s = some (BitVec.ofNat 32 (s.usb.ginten.toNat + 2 * s.usb.sftdiscon.toNat)) ∧
    readRegister 0x07 s = some (BitVec.ofNat 32 s.usb.addr.toNat) ∧
    readRegister 0x08 s = some (BitVec.ofNat 32 (s.usb.stall.out.toNat + 2 * s.usb.stall.inn.toNat)) ∧
    readRegister 0x0C s = some 1 ∧
    readRegister 0x09 s = some (BitVec.ofNat 32 s.usb.rxsize.toNat) ∧
    (FifoInv s → readRegister 0x0A s = some (BitVec.ofNat 32 (s.usb.txf.length + 2 ^ 16 * s.usb.rxf.length))) ∧
    readRegister 0x0B s = some (BitVec.ofNat 32 (s.usb.ctrlAlloc.out.toNat + 2 * s.usb.ctrlAlloc.inn.toNat +
      4 * s.usb.next.out.val + 16 * s.usb.next.inn.val + 64 * s.usb.pend.out.toNat + 128 * s.usb.pend.inn.toNat)) ∧
    readRegister 0x0D s = some (BitVec.ofNat 32 (s.usb.enStep.val + 16 * s.usb.enBusy.toNat)) ∧
    readRegister 0x10 s = some (BitVec.ofNat 32 ((if s.cap.ch = .B then 1 else 0) +
      2 * (match s.cap.phase with | .idle => 0 | .measuring => 1 | .captured => 2) +
      8 * (if s.cap.mux = .B then 1 else 0) + 16 * s.cap.ttRun.toNat + 32 * s.cap.toRun.toNat + 64 * s.cap.ovf.toNat)) ∧
    readRegister 0x11 s = some (BitVec.ofNat 32 s.cap.cnt.toNat) ∧
    readRegister 0x12 s = some (BitVec.ofNat 32 (s.q.count.val + 8 * s.q.split.toNat + 16 * s.q.head.val +
      64 * s.q.tail.val))

/-! ### Reset -/

/-- 70_reset_and_hazards.md R201: hardware reset, whatever it draws for CLKRDY, AHBIDLE and the four flags. Hardware
reset as a move that keeps what the agents do next is the model's choice, log 19. -/
def Obligations.HardwareResetValues : Prop :=
  ∀ (s : State) (c a : Bool) (n : BitVec 4) (rest : List Stimulus), NextMove s (.hardwareReset c a n) rest →
    ∃ t, step s = .next t ∧ t.inputs = rest ∧
      (∀ ch, t.flt.get ch = { hist := Vector.replicate 16 0, cur := 0, mean := 0, max := 0 }) ∧
      t.cap = { ch := .A, phase := .idle, mux := .A, ttRun := false, toRun := false, cnt := 0, ovf := false } ∧
      t.q.count = 0 ∧ t.q.head = 0 ∧ t.q.tail = 0 ∧ t.q.split = false ∧
      t.phy = { oscsel := false, calen := false, clkrec := false, clksel := false, lpdis := false, phyen := false,
                clkrdy := c } ∧
      t.usb.csrst = false ∧ t.usb.ahbidle = a ∧ t.usb.trdtim = 0 ∧ t.usb.trdset = false ∧ t.usb.ints = n ∧
      t.usb.intm = 0 ∧ t.usb.ginten = false ∧ t.usb.sftdiscon = true ∧ t.usb.addr = 0 ∧
      (∀ d, t.usb.stall.get d = false ∧ t.usb.pend.get d = false ∧ t.usb.ctrlAlloc.get d = false ∧ t.usb.next.get d = 0) ∧
      t.usb.rxsize = 0 ∧ t.usb.txf = [] ∧ t.usb.rxf = [] ∧ t.usb.enStep = 0 ∧ t.usb.enBusy = false ∧
      t.usb.linkOk = false ∧ t.bus.resetSeen = false ∧ readRegister 0x0C t = some 1 ∧
      irqUsb t = false ∧ irqTmr t = false ∧ sessionPhase t = .detached

/-- The state after hardware reset meets every invariant below, for every draw. That State.reset draws zeros is the model's
choice, log 2; that the port's buffer is empty, logs 8 and 20; that no context is at work, log 15. -/
def Obligations.ResetMeetsTheInvariants : Prop :=
  State.reset = State.resetWith false false 0 ∧
  ∀ (c a : Bool) (n : BitVec 4), QueueInv (State.resetWith c a n) ∧ FilterInv (State.resetWith c a n) ∧
    AcquisitionInv (State.resetWith c a n) ∧ FifoInv (State.resetWith c a n) ∧ EnableInv (State.resetWith c a n) ∧
    LinkInv (State.resetWith c a n) ∧ MemoryInv (State.resetWith c a n) ∧ ContextInv (State.resetWith c a n)

/-! ### Invariants of every step -/

/-- 10_state.md R17: the queue stays a ring. -/
def Obligations.StepKeepsTheQueueRing : Prop :=
  ∀ s t : State, QueueInv s → step s = .next t → QueueInv t

/-- 10_state.md R12: every stored mean stays the truncating average of its window, in the filters and in every frame the
queue holds, and no sample exceeds its maximum. -/
def Obligations.StepKeepsMeansExact : Prop :=
  ∀ s t : State, QueueInv s → FilterInv s → step s = .next t → FilterInv t

/-- 41_capsense_acquisition.md R80: Captured is never seen between two steps, and the timers run exactly in
Measuring. -/
def Obligations.StepKeepsTheAcquisitionPhases : Prop :=
  ∀ s t : State, AcquisitionInv s → step s = .next t → AcquisitionInv t

/-- 10_state.md R20, R31, R32: the FIFOs keep their capacity, the received size its bound, and the Out pending flag
stays 0. -/
def Obligations.StepKeepsFifoBounds : Prop :=
  ∀ s t : State, FifoInv s → step s = .next t → FifoInv t

/-- 44_usb_control.md R111: between steps USB.ENABLE is complete, never run, or at one of its three waits. That a held one
never stands with its awaited bit already there is the model's choice, log 9. -/
def Obligations.StepKeepsTheSequencer : Prop :=
  ∀ s t : State, EnableInv s → step s = .next t → EnableInv t

/-- 44_usb_control.md R128, 70_reset_and_hazards.md R210, R211: no step breaks the order contract: a device that is
presented has its PHY live, its turnaround field programmed and its interrupts unmasked. -/
def Obligations.StepKeepsTheOrderContract : Prop :=
  ∀ s t : State, EnableInv s → LinkInv s → step s = .next t → LinkInv t

/-- BUF, every waiting buffer and every handler's own buffer stay in canonical form (the model's own, log 8). -/
def Obligations.StepKeepsMemoryCanonical : Prop :=
  ∀ s t : State, MemoryInv s → step s = .next t → MemoryInv t

/-- 60_exceptions.md R178, R181, R182: the contexts at work stay nested by strict priority, so at most three are above Idle;
each has the rest of its handler to do; the lock holder runs; the issuer of a running USB.ENABLE is not gone (logs 11 and
15: who is at work is the model's rendering). -/
def Obligations.StepKeepsTheContexts : Prop :=
  ∀ s t : State, ContextInv s → step s = .next t → ContextInv t ∧ t.host.active.length ≤ 3

/-! ### Whole-machine rules -/

/-- 10_state.md R11, R14, R15, 46_system.md R161: only CAP.MEASURE, CAP.CAPTURE and TMR.ACK write the acquisition unit, and
TMR.ACK its overflow flag alone; only FLT.PUSH and CAP.CAPTURE write a filter; only the queue's commands and CAP.CAPTURE
write the queue; only USB commands write the USB unit; and no meaning writes the host's side. -/
def Obligations.UnitsAreWrittenByTheirCommands : Prop :=
  ∀ (i : Instr) (s t : State), exec i s = .next t →
    (t.cap ≠ s.cap → i = .capMeasure ∨ i = .capCapture ∨ i = .tmrAck) ∧
    (i = .tmrAck → t.cap = { s.cap with ovf := t.cap.ovf }) ∧
    (t.flt ≠ s.flt → i = .capCapture ∨ ∃ ch v, i = .fltPush ch v) ∧
    (t.q ≠ s.q → i = .capCapture ∨ i = .qSplit ∨ i = .qEnq ∨ i = .qDeq) ∧
    ((t.phy ≠ s.phy ∨ t.usb ≠ s.usb ∨ t.bus ≠ s.bus) → i.isUsb = true) ∧
    t.host = s.host ∧ t.inputs = s.inputs

/-- 60_exceptions.md R171, 44_usb_control.md R137: an error result changes nothing but the answer. -/
def Obligations.ErrorsChangeNothing : Prop :=
  ∀ (i : Instr) (s t : State) (r : Word), exec i s = .next t → t.port.res = some r → r.extractLsb' 28 4 ≠ 0 →
    t = { s with port := t.port } ∧ ∀ a, Memory.read t.port.buf a = Memory.read s.port.buf a

/-! ### Interrupts, contexts and runs -/

/-- 10_state.md R39, 60_exceptions.md R175, R176, 45_usb_fifo.md R150: the two interrupt lines, `presented` and the session
phase; before USB.ENABLE has completed the USB line is low. -/
def Obligations.DerivedSignals : Prop :=
  ∀ s : State,
    (irqUsb s = true ↔ s.usb.ginten = true ∧ ∃ k, k < 4 ∧ s.usb.ints.getLsbD k = true ∧ s.usb.intm.getLsbD k = true) ∧
    (irqTmr s = true ↔ s.cap.ovf = true) ∧
    (LinkInv s → s.usb.linkOk = false → irqUsb s = false) ∧
    (presented s = true ↔ s.usb.linkOk = true ∧ s.usb.sftdiscon = false) ∧
    (sessionPhase s = .detached ↔ presented s = false) ∧
    (sessionPhase s = .default ↔ presented s = true ∧ s.usb.addr.toNat = 0) ∧
    (sessionPhase s = .addressed ↔ presented s = true ∧ s.usb.addr.toNat ≠ 0)

/-- 60_exceptions.md R175 to R183, R185 to R187, 30_encoding.md R69: a handler that is due starts before any context acts
again, and whatever a context would do next itself (a command, taking or giving back the lock) keeps waiting; it starts
with the steps of its expansion, the USB handler taking the software pend and the RTC handler clearing its flag, and the
start changes nothing else. No other handler starts. A context acts exactly when none is due, the running one has nothing
of its own left, and it runs and is not blocked, or is above the running one and no lock is held; otherwise what it would
do waits while the host goes on. The contexts at work and the waiting list are the model's rendering (logs 1, 11, 15); that a
context may start without a request is its choice (log 11), and so is one run for a software pend beside an asserted line
(log 31). -/
def Obligations.DispatchFollowsPriority : Prop :=
  ∀ s : State,
    (∀ c, Due c s →
      (∀ rest, s.inputs = .turn :: rest → ∃ k, step s = .next { s with inputs := rest, host := k } ∧ Started c s k) ∧
      ((s.inputs = [] ∨ ∃ d x rest, s.inputs = x :: rest ∧ StepOf d x) →
        ∃ k, step s = .next { s with host := k } ∧ Started c s k)) ∧
    (∀ t c x xs, step s = .next t → t.host.active = ⟨c, x :: xs⟩ :: s.host.active → Due c s) ∧
    (∀ c, mayAct c s = true ↔ NoneDue s ∧ pendingSteps s = [] ∧
      (c = running s ∧ hung s = false ∨ (running s).prio < c.prio ∧ s.host.usbLock = none)) ∧
    (∀ c x rest, s.inputs = x :: rest → StepOf c x → mayAct c s = false →
      step s = step { s with inputs := .turn :: s.inputs })

/-- 60_exceptions.md R174, R180, R182, R183, R187: when the host goes on, by a turn or because nothing waits, and no handler is
due: a running context that waits in USB.ENABLE hangs; Idle has nothing of its own to do; any other takes the next step of
its own, a command or the pend of the USB handler (the RTC handler's look at Configured is RtcHandlerAlternatesReports);
with none left it ends, the preempted context runs again, and a line that is still asserted makes its handler due at once.
Of this the turn as a step and Idle's turn are the model's (logs 1, 11), own steps as a list and the end when none is left
too (logs 11, 15); that a context at or below the issuer of a held USB.ENABLE takes no step and does not end is log 29, and
that a holder of the lock does not end before it has given it back is log 14. -/
def Obligations.HandlersRunToCompletion : Prop :=
  ∀ (s : State) (rest : List Stimulus), (s.inputs = .turn :: rest ∨ s.inputs = [] ∧ rest = []) → NoneDue s →
    (hung s = true → step s = .next { s with inputs := rest }) ∧
    (s.host.active = [] → step s = .next { s with inputs := rest }) ∧
    (hung s = false → ∀ a todo below, s.host.active = ⟨a, todo⟩ :: below →
      (∀ w b more, todo = .cmd w b :: more →
        step s = runCommand a w b { s with inputs := rest, host := { s.host with active := ⟨a, more⟩ :: below } }) ∧
      (∀ more, todo = .pendUsb :: more → step s =
        .next { s with inputs := rest, host := { s.host with active := ⟨a, more⟩ :: below, usbPend := true } }) ∧
      (todo = [] → s.host.usbLock ≠ none → step s = .next { s with inputs := rest }) ∧
      (todo = [] → s.host.usbLock = none → ∃ t, step s = .next t ∧
        t = { s with inputs := rest, host := { s.host with active := below } } ∧
        (requested a s = true → (∀ d, requested d s = true → d.prio ≤ a.prio) → (∀ x ∈ below, x.ctx.prio < a.prio) →
          Due a t)))

/-- 60_exceptions.md R177, R181, R182, R183, R186: while the ceiling lock is held no handler starts and only the running
context issues commands; a context that may act takes a free lock while no USB.ENABLE runs, those it preempts staying
below it, and its holder gives it back; anything else breaks the discipline. The lock and the host's inputs as acts are
the model's rendering (logs 14 to 16). -/
def Obligations.LockExcludesOtherContexts : Prop :=
  ∀ (s : State) (rest : List Stimulus),
    (s.host.usbLock ≠ none → NoneDue s ∧ ∀ d w b, nextCommand s = some (d, w, b) → d = running s) ∧
    (∀ c, s.inputs = .host (.lock c) :: rest → mayAct c s = true →
      (s.usb.enBusy = false → s.host.usbLock = none → ∃ t, step s = .next t ∧ running t = c ∧ t = { s with
        inputs := rest, host := { s.host with
          usbLock := some c, active := if c = running s then s.host.active else ⟨c, []⟩ :: s.host.active } }) ∧
      (s.usb.enBusy = true ∨ s.host.usbLock ≠ none → step s = .refused (.hostProtocol .lockDiscipline))) ∧
    (∀ c, s.inputs = .host (.unlock c) :: rest → mayAct c s = true →
      (s.host.usbLock = some c → step s = .next { s with inputs := rest, host := { s.host with usbLock := none } }) ∧
      (s.host.usbLock ≠ some c → step s = .refused (.hostProtocol .lockDiscipline))) ∧
    (s.inputs = .host .pendUsb :: rest → step s = .next { s with inputs := rest, host := { s.host with usbPend := true } }) ∧
    (s.inputs = .host .rtcMatch :: rest → step s = .next { s with inputs := rest, host := { s.host with rtcFlag := true } }) ∧
    (∀ b, s.inputs = .host (.setConfigured b) :: rest →
      step s = .next { s with inputs := rest, host := { s.host with configured := b } })

/-- 60_exceptions.md R186, R188: when the RTC handler starts it clears its flag, reads one register, and then looks at the
Configured input: if it is set at that moment the latch flips, and what is to do next is the report of the new phase,
key-down (E2 00) or key-up (00 00) in turn, by a two-byte USB.WRITE to (In, 0), and the pend of the USB handler; if it is not,
neither the latch nor the rest of the handler changes. The one register read, and own steps as a list, are log 15; endpoint
and byte order are log 17; that the host goes on by a turn or when nothing waits is log 1. -/
def Obligations.RtcHandlerAlternatesReports : Prop :=
  ∀ (s : State) (rest : List Stimulus), (s.inputs = .turn :: rest ∨ s.inputs = [] ∧ rest = []) →
    (Due .rtc s → step s = .next { s with inputs := rest, host := { s.host with
        rtcFlag := false, active := ⟨.rtc, [.cmd 0x0F000004 [], .reportIfConfigured]⟩ :: s.host.active } }) ∧
    (NoneDue s → hung s = false → ∀ a more below, s.host.active = ⟨a, .reportIfConfigured :: more⟩ :: below →
      (s.host.configured = true → ∃ buf, step s = .next { s with inputs := rest, host := { s.host with
          latch := !s.host.latch, active := ⟨a, .cmd 0x43800002 buf :: .pendUsb :: more⟩ :: below } } ∧
        Memory.read buf 0 = (if s.host.latch then 0x00 else 0xE2) ∧ Memory.read buf 1 = 0) ∧
      (s.host.configured = false → step s = .next { s with inputs := rest, host := { s.host with
          active := ⟨a, more⟩ :: below } }))

/-- 44_usb_control.md R127, 41_capsense_acquisition.md R85, 00_scope.md R5: in a fair run of working silicon every hold of
USB.ENABLE ends; without working silicon a run is fair in which it never ends (60_exceptions.md R174); and in every fair run a
running safety timer raises the timer interrupt or is stopped. Fairness is said of runs (log 22). -/
def Obligations.FairnessDecidesTheHold : Prop :=
  (∀ (run : Nat → State) (n : Nat), FairRun true run → EnableInv (run n) → LinkInv (run n) → (run n).usb.enBusy = true →
    ∃ k, n ≤ k ∧ (run k).usb.enBusy = false) ∧
  (∃ run : Nat → State, FairRun false run ∧ ∀ n, EnableInv (run n) ∧ LinkInv (run n) ∧ (run n).usb.enBusy = true) ∧
  (∀ (ws : Bool) (run : Nat → State) (n : Nat), FairRun ws run → (run n).cap.toRun = true →
    ∃ k, n ≤ k ∧ (irqTmr (run k) = true ∨ (run k).cap.toRun = false))
end

