-- ==== Sys2Proof/Laws/Decode.lean ====
section
/-! SUPPORT. The command word's fields and the word determine each other; the operand forms the decoder cuts out are the
ones the encoder put in (30_encoding.md R60, R61). -/

namespace Sys2Proof

/-- Every bit of a word from the fields it was put together from. -/
theorem Fields.getLsbD_toWord (f : Fields) (i : Nat) : f.toWord.getLsbD i =
    if i < 16 then f.arg.getLsbD i else if i < 20 then f.sel.getLsbD (i - 16) else if i < 23 then f.z.getLsbD (i - 20)
      else if i < 24 then f.dir.getLsbD (i - 23) else f.op.getLsbD (i - 24) := by
  show (f.op ++ (f.dir ++ (f.z ++ (f.sel ++ f.arg))) : BitVec (8 + (1 + (3 + (4 + 16))))).getLsbD i = _
  simp only [BitVec.getLsbD_append]
  by_cases h1 : i < 16 <;> by_cases h2 : i < 20 <;> by_cases h3 : i < 23 <;> by_cases h4 : i < 24 <;>
    simp [h1, h2, h3, h4] <;> omega

@[simp] theorem Fields.ofWord_toWord (f : Fields) : Fields.ofWord f.toWord = f := by
  obtain ⟨op, dir, z, sel, arg⟩ := f
  simp only [Fields.ofWord, Fields.mk.injEq]
  refine ⟨?_, ?_, ?_, ?_, ?_⟩ <;>
  · ext i hi
    simp only [BitVec.getElem_extractLsb', Fields.getLsbD_toWord]
    repeat' split
    all_goals first | omega | (simp [← BitVec.getLsbD_eq_getElem])

@[simp] theorem Fields.toWord_ofWord (w : Word) : (Fields.ofWord w).toWord = w := by
  simp only [Fields.ofWord, Fields.toWord]
  ext i hi
  simp only [BitVec.getElem_append, BitVec.getElem_extractLsb']
  repeat' split
  all_goals simp [← BitVec.getLsbD_eq_getElem]
  all_goals congr 1; omega

@[simp] theorem decode_encode_fields (i : Instr) : decode (encode i) = decodeFields (encodeFields i) := by
  simp only [decode, encode, Fields.ofWord_toWord]

@[simp] theorem Channel.ofSel_sel (ch : Channel) : Channel.ofSel ch.sel = ch := by cases ch <;> decide

@[simp] theorem Channel.sel_high_zero (ch : Channel) : ch.sel.extractLsb' 1 3 = 0 := by cases ch <;> decide

theorem Channel.sel_ofSel : ∀ sel : BitVec 4, sel.extractLsb' 1 3 = 0 → (Channel.ofSel sel).sel = sel := by decide

@[simp] theorem Dir.ofBit_bit (d : Dir) : Dir.ofBit d.bit = d := by cases d <;> decide

@[simp] theorem Dir.bit_ofBit : ∀ b : BitVec 1, (Dir.ofBit b).bit = b := by decide

/-- An accepted word met its mask. -/
theorem accept_eq_ok {f : Fields} {zeros : Bool} {i j : Instr} (h : accept f zeros i = .ok j) : zeros = true ∧ i = j := by
  unfold accept at h; split at h <;> simp_all

end Sys2Proof
end

