-- ==== Sys2Proof/Laws/State.lean ====
section
/-! SUPPORT. One lemma per field per update, so that no proof unfolds a record update. -/

namespace Sys2Proof.Machine

variable {α : Type}

/-- The parameters' derived numbers, as the proofs use them (00_scope.md R4). -/
theorem Config.fifoWords_eq : Config.fifoWords = 384 := rfl
@[simp] theorem Config.nch_eq : Config.nch = 2 := rfl
@[simp] theorem Config.fifoWord_eq : Config.fifoWord = 4 := rfl
@[simp] theorem Config.epMaxIndex_eq : Config.epMaxIndex = 3 := rfl
@[simp] theorem Config.window_eq : Config.window = 16 := rfl
@[simp] theorem Config.sampleBits_eq : Config.sampleBits = 16 := rfl
@[simp] theorem Config.qcap_eq : Config.qcap = 4 := rfl
@[simp] theorem Config.epCeil_eq : Config.epCeil = 3 := rfl
@[simp] theorem Config.addrBits_eq : Config.addrBits = 7 := rfl
@[simp] theorem last_qcap : Fin.last Config.qcap = 4 := rfl
@[simp] theorem last_epCeil : Fin.last Config.epCeil = 3 := rfl

@[simp] theorem ofIndex_index (ch : Channel) : Channel.ofIndex ch.index = ch := by cases ch <;> rfl
@[simp] theorem index_ofIndex (i : Fin Config.nch) : (Channel.ofIndex i).index = i := by revert i; decide
theorem succChannel_A : succChannel .A = .B := rfl
theorem succChannel_B : succChannel .B = .A := rfl
@[simp] theorem succChannel_ne (ch : Channel) : succChannel ch ≠ ch := by cases ch <;> decide
@[simp] theorem succChannel_succChannel (ch : Channel) : succChannel (succChannel ch) = ch := by cases ch <;> rfl

@[simp] theorem PerChannel.get_set_same (p : PerChannel α) (ch : Channel) (v : α) : (p.set ch v).get ch = v := by
  cases ch <;> rfl
@[simp] theorem PerChannel.get_set_succ (p : PerChannel α) (ch : Channel) (v : α) :
    (p.set ch v).get (succChannel ch) = p.get (succChannel ch) := by cases ch <;> rfl
theorem PerChannel.get_set_ne (p : PerChannel α) {ch ch' : Channel} (v : α) (h : ch' ≠ ch) :
    (p.set ch v).get ch' = p.get ch' := by cases ch <;> cases ch' <;> first | rfl | exact absurd rfl h
@[simp] theorem PerDir.get_set_same (p : PerDir α) (d : Dir) (v : α) : (p.set d v).get d = v := by cases d <;> rfl
theorem PerDir.get_set_ne (p : PerDir α) {d d' : Dir} (v : α) (h : d' ≠ d) : (p.set d v).get d' = p.get d' := by
  cases d <;> cases d' <;> first | rfl | exact absurd rfl h

variable (r : Option Word) (d : List Byte) (s : State)

@[simp] theorem State.deliver_flt : (s.deliver r d).flt = s.flt := rfl
@[simp] theorem State.deliver_cap : (s.deliver r d).cap = s.cap := rfl
@[simp] theorem State.deliver_q : (s.deliver r d).q = s.q := rfl
@[simp] theorem State.deliver_phy : (s.deliver r d).phy = s.phy := rfl
@[simp] theorem State.deliver_usb : (s.deliver r d).usb = s.usb := rfl
@[simp] theorem State.deliver_bus : (s.deliver r d).bus = s.bus := rfl
@[simp] theorem State.deliver_host : (s.deliver r d).host = s.host := rfl
@[simp] theorem State.deliver_draws : (s.deliver r d).draws = s.draws := rfl
@[simp] theorem State.deliver_inputs : (s.deliver r d).inputs = s.inputs := rfl
@[simp] theorem State.deliver_res : (s.deliver r d).port.res = r := rfl
@[simp] theorem State.deliver_data : (s.deliver r d).port.data = d := rfl
@[simp] theorem State.deliver_buf : (s.deliver r d).port.buf = s.port.buf := rfl
@[simp] theorem State.deliver_cmd : (s.deliver r d).port.cmd = s.port.cmd := rfl
@[simp] theorem State.deliver_issuer : (s.deliver r d).port.issuer = s.port.issuer := rfl

variable (ch : Channel) (v : Half)

@[simp] theorem fltPush_flt : (fltPush ch v s).flt = s.flt.set ch ((s.flt.get ch).push v) := rfl
@[simp] theorem fltPush_cap : (fltPush ch v s).cap = s.cap := rfl
@[simp] theorem fltPush_q : (fltPush ch v s).q = s.q := rfl
@[simp] theorem fltPush_phy : (fltPush ch v s).phy = s.phy := rfl
@[simp] theorem fltPush_usb : (fltPush ch v s).usb = s.usb := rfl
@[simp] theorem fltPush_bus : (fltPush ch v s).bus = s.bus := rfl
@[simp] theorem fltPush_port : (fltPush ch v s).port = s.port := rfl
@[simp] theorem fltPush_host : (fltPush ch v s).host = s.host := rfl
@[simp] theorem fltPush_draws : (fltPush ch v s).draws = s.draws := rfl
@[simp] theorem fltPush_inputs : (fltPush ch v s).inputs = s.inputs := rfl

@[simp] theorem coreReset_flt : (coreReset s).flt = s.flt := rfl
@[simp] theorem coreReset_cap : (coreReset s).cap = s.cap := rfl
@[simp] theorem coreReset_q : (coreReset s).q = s.q := rfl
@[simp] theorem coreReset_phy : (coreReset s).phy = s.phy := rfl
@[simp] theorem coreReset_port : (coreReset s).port = s.port := rfl
@[simp] theorem coreReset_host : (coreReset s).host = s.host := rfl
@[simp] theorem coreReset_inputs : (coreReset s).inputs = s.inputs := rfl
@[simp] theorem coreReset_draws : (coreReset s).draws = s.draws + 1 := rfl

end Sys2Proof.Machine
end

