-- ==== Sys2Proof/Laws/Enable.lean ====
section
/-! SUPPORT. Everything USB.ENABLE can do between two waits, and what the environment's moves do to it
(44_usb_control.md R111 to R127). -/

namespace Sys2Proof.Machine

/-- What running the sequencer never touches. -/
theorem enableRun_frame (n : Nat) (s : State) :
    (enableRun n s).flt = s.flt ∧ (enableRun n s).cap = s.cap ∧ (enableRun n s).q = s.q ∧
    (enableRun n s).host = s.host ∧ (enableRun n s).inputs = s.inputs ∧ (enableRun n s).port.buf = s.port.buf ∧
    (enableRun n s).usb.ctrlAlloc = s.usb.ctrlAlloc ∧ (enableRun n s).usb.next = s.usb.next ∧
    (enableRun n s).usb.pend = s.usb.pend ∧ (enableRun n s).usb.ahbidle = s.usb.ahbidle ∧
    (enableRun n s).phy.clkrdy = s.phy.clkrdy ∧ (enableRun n s).usb.enIssuer = s.usb.enIssuer := by
  have hstep : ∀ (k : Fin 16) (s : State),
      (enableStep k s).flt = s.flt ∧ (enableStep k s).cap = s.cap ∧ (enableStep k s).q = s.q ∧
      (enableStep k s).host = s.host ∧ (enableStep k s).inputs = s.inputs ∧ (enableStep k s).port = s.port ∧
      (enableStep k s).usb.ctrlAlloc = s.usb.ctrlAlloc ∧ (enableStep k s).usb.next = s.usb.next ∧
      (enableStep k s).usb.pend = s.usb.pend ∧ (enableStep k s).usb.ahbidle = s.usb.ahbidle ∧
      (enableStep k s).phy.clkrdy = s.phy.clkrdy ∧ (enableStep k s).usb.enIssuer = s.usb.enIssuer := by
    intro k s; fin_cases k <;> exact ⟨rfl, rfl, rfl, rfl, rfl, rfl, rfl, rfl, rfl, rfl, rfl, rfl⟩
  induction n generalizing s with
  | zero => simp [enableRun]
  | succ n ih =>
    simp only [enableRun]
    split
    · simp [enableDone]
    · split
      · have h1 := ih (enableStep (s.usb.enStep + 1) s)
        have h2 := hstep (s.usb.enStep + 1) s
        obtain ⟨a1, a2, a3, a4, a5, a6, a7, a8, a9, a10, a11, a12⟩ := h1
        obtain ⟨b1, b2, b3, b4, b5, b6, b7, b8, b9, b10, b11, b12⟩ := h2
        exact ⟨a1.trans b1, a2.trans b2, a3.trans b3, a4.trans b4, a5.trans b5, a6.trans (by rw [b6]), a7.trans b7,
          a8.trans b8, a9.trans b9, a10.trans b10, a11.trans b11, a12.trans b12⟩
      · simp

/-- What every step and the end of the sequencer keep, a run keeps. -/
theorem enableRun_keeps {P : State → Prop} (hs : ∀ k s, P s → P (enableStep k s)) (hd : ∀ s, P s → P (enableDone s))
    (n : Nat) {s : State} (h : P s) : P (enableRun n s) := by
  induction n generalizing s with
  | zero => exact h
  | succ n ih =>
    simp only [enableRun]
    split
    · exact hd s h
    · split
      · exact ih (hs _ s h)
      · exact h

/-- With the clock not ready, a start performs E1 to E3 and holds at E4 (R112 to R115). -/
theorem enableStart_hold4 (s : State) (h : s.phy.clkrdy = false) :
    enableContinue (enableStart s) = { s.deliver none [] with
      phy := { s.phy with oscsel := true, calen := true, clkrec := true },
      usb := { s.usb with enBusy := true, enStep := 3, enIssuer := s.port.issuer } } := by
  simp [enableContinue, enableStart, enableRun, enableReady, enableStep, enableEffect, State.deliver, h]

/-- With the clock ready, a start passes E4 and performs E5 to E7 (R112 to R118). -/
theorem enableStart_pass4 (s : State) (h : s.phy.clkrdy = true) :
    enableContinue (enableStart s) = enableRun 9 { s.deliver none [] with
      phy := { oscsel := true, calen := true, clkrec := true, clksel := true, lpdis := true, phyen := true, clkrdy := true },
      usb := { s.usb with enBusy := true, enStep := 7, enIssuer := s.port.issuer } } := by
  simp [enableContinue, enableStart, enableRun, enableReady, enableStep, enableEffect, State.deliver, h]

/-- From E4 with the clock ready, E5 to E7 (R116 to R118). -/
theorem enableRun_pass4 (s : State) (n : Nat) (h3 : s.usb.enStep = 3) (h : s.phy.clkrdy = true) :
    enableRun (n + 5) s = enableRun (n + 1) { s with
      phy := { s.phy with clksel := true, lpdis := true, phyen := true }, usb := { s.usb with enStep := 7 } } := by
  simp [enableRun, enableReady, enableStep, enableEffect, h, h3]

/-- With the AHB master busy, E8 holds (R119). -/
theorem enableRun_hold8 (s : State) (n : Nat) (h7 : s.usb.enStep = 7) (h : s.usb.ahbidle = false) : enableRun n s = s := by
  cases n <;> simp [enableRun, enableReady, h7, h]

/-- With the AHB master idle, E9 resets the core and E10 holds (R119 to R121). -/
theorem enableRun_pass8 (s : State) (n : Nat) (h7 : s.usb.enStep = 7) (h : s.usb.ahbidle = true) :
    enableRun (n + 3) s = { coreReset s with usb := { (coreReset s).usb with csrst := true, enStep := 9 } } := by
  simp [enableRun, enableReady, enableStep, enableEffect, h, h7, coreReset]

/-- With the core reset over, E11 to E15 run and the command is done (R121 to R126). -/
theorem enableRun_pass10 (s : State) (n : Nat) (h9 : s.usb.enStep = 9) (h : s.usb.csrst = false) :
    enableRun (n + 7) s = enableDone { s with usb := { s.usb with
      enStep := 15, trdtim := Config.trdtimValue, trdset := true, intm := 0xF, ints := 0, ginten := true,
      sftdiscon := false, linkOk := true } } := by
  simp [enableRun, enableReady, enableStep, enableEffect, h, h9, enableDone]

/-- A disabled move changes nothing (log 10). -/
theorem runMove_disabled {m : EnvMove} {s : State} (h : m.enabled s = false) : runMove m s = s := by
  simp [runMove, h]

/-- An enabled move with no USB.ENABLE running is its effect alone. -/
theorem runMove_free {m : EnvMove} {s : State} (h : m.enabled s = true) (hb : (m.effect s).usb.enBusy = false) :
    runMove m s = m.effect s := by
  simp [runMove, h, enableResume, hb]

/-- An enabled move with USB.ENABLE running lets the sequencer go on. -/
theorem runMove_resumes {m : EnvMove} {s : State} (h : m.enabled s = true) (hb : (m.effect s).usb.enBusy = true) :
    runMove m s = enableRun 16 (m.effect s) := by
  simp only [runMove, h, if_true, enableResume, hb, enableContinue]

/-- A sequencer whose next step must wait stays. -/
theorem enableRun_waits {s : State} (n : Nat) (h15 : s.usb.enStep ≠ 15)
    (hn : enableReady (s.usb.enStep + 1) s = false) : enableRun n s = s := by
  cases n <;> simp [enableRun, h15, hn]

/-- ENV.CLKRDY lifts the hold at E4; the next hold is at E8, or at E10 when the AHB master is idle already. -/
theorem runMove_clkrdy_lifts {s : State} (ho : s.phy.oscsel = true) (hc : s.phy.clkrdy = false)
    (hb : s.usb.enBusy = true) (h3 : s.usb.enStep = 3) :
    (s.usb.ahbidle = false → runMove .clkrdy s = { s with
      phy := { s.phy with clkrdy := true, clksel := true, lpdis := true, phyen := true },
      usb := { s.usb with enStep := 7 } }) ∧
    (s.usb.ahbidle = true → runMove .clkrdy s = { coreReset s with
      phy := { s.phy with clkrdy := true, clksel := true, lpdis := true, phyen := true },
      usb := { (coreReset s).usb with csrst := true, enStep := 9 } }) := by
  have h := runMove_resumes (m := .clkrdy) (s := s) (by simp [EnvMove.enabled, ho, hc]) hb
  have h4 := enableRun_pass4 (EnvMove.clkrdy.effect s) 11 h3 rfl
  rw [h, h4]
  exact ⟨fun ha => enableRun_hold8 _ _ rfl ha, fun ha => enableRun_pass8 _ 9 rfl ha⟩

/-- ENV.AHBIDLE lifts the hold at E8; the next is at E10. -/
theorem runMove_ahbidle_lifts {s : State} (ha : s.usb.ahbidle = false) (hb : s.usb.enBusy = true)
    (h7 : s.usb.enStep = 7) : runMove .ahbidle s = { coreReset s with
      usb := { (coreReset s).usb with ahbidle := true, csrst := true, enStep := 9 } } :=
  (runMove_resumes (m := .ahbidle) (s := s) (by simp [EnvMove.enabled, ha]) hb).trans
    (enableRun_pass8 (EnvMove.ahbidle.effect s) 13 h7 rfl)

/-- ENV.CRSTDONE lifts the hold at E10 and the command completes. -/
theorem runMove_crstdone_lifts {s : State} (hc : s.usb.csrst = true) (hb : s.usb.enBusy = true)
    (h9 : s.usb.enStep = 9) : runMove .crstdone s = enableDone { s with usb := { s.usb with
      csrst := false, enStep := 15, trdtim := Config.trdtimValue, trdset := true, intm := 0xF, ints := 0,
      ginten := true, sftdiscon := false, linkOk := true } } :=
  (runMove_resumes (m := .crstdone) (s := s) hc hb).trans (enableRun_pass10 (EnvMove.crstdone.effect s) 9 h9 rfl)

end Sys2Proof.Machine
end

