-- ==== Sys2Proof/Laws/Fifo.lean ====
section
/-! SUPPORT. Packing, and what a run of FIFO pushes and pops does (45_usb_fifo.md R140, R142; 20_memory.md R42, R43). -/

namespace Sys2Proof.Machine

theorem ceil4_eq (n : Nat) : ceil4 n = (n + 3) / 4 := rfl

/-- A lane of a word made of bytes is its byte, 0 beyond them (20_memory.md R47). -/
theorem wordOfBytes_lane (bs : List Byte) {j : Nat} (hj : j < 4) :
    (wordOfBytes bs).extractLsb' (8 * j) 8 = bs.getD j 0 := by
  have key : ∀ (bs : List Byte) (k : Nat), k < 32 →
      (wordOfBytes bs).getLsbD k = (bs.getD (k / 8) 0).getLsbD (k % 8) := by
    intro bs
    induction bs with
    | nil => intro k _; simp [wordOfBytes]
    | cons b bs ih =>
      intro k hk
      have hw : wordOfBytes (b :: bs) = wordOfBytes bs <<< 8 ||| b.setWidth (8 * Config.fifoWord) := rfl
      rw [hw, BitVec.getLsbD_or, BitVec.getLsbD_shiftLeft, BitVec.getLsbD_setWidth]
      by_cases h8 : k < 8
      · simp [h8, show k / 8 = 0 by omega, show k % 8 = k by omega, hk]
      · obtain ⟨c, rfl⟩ : ∃ c, k = c + 8 := ⟨k - 8, by omega⟩
        have h1 : (c + 8) / 8 = c / 8 + 1 := by omega
        have h2 : b.getLsbD (c + 8) = false := BitVec.getLsbD_of_ge _ _ (by omega)
        rw [h1, List.getD_cons_succ, Nat.add_mod_right, h2]
        simp [hk, ih c (by omega)]
  ext i hi
  rw [BitVec.getElem_extractLsb', key bs _ (by omega), ← BitVec.getLsbD_eq_getElem]
  rw [show (8 * j + i) / 8 = j by omega, show (8 * j + i) % 8 = i by omega]

/-- The `i`-th word of packed bytes holds the bytes from `4i` on (45_usb_fifo.md R140). -/
theorem pack_getElem? (b : List Byte) (i : Nat) : (pack b)[i]? =
    if 4 * i < b.length then some (wordOfBytes ((b.drop (4 * i)).take 4)) else none := by
  rw [pack, List.getElem?_map]
  by_cases h : 4 * i < b.length
  · rw [if_pos h, List.getElem?_range (by rw [ceil4_eq]; omega)]; rfl
  · rw [if_neg h, List.getElem?_eq_none (by rw [List.length_range, ceil4_eq]; omega)]; rfl

/-- A lane of a packed word is its byte of the data, 0 beyond it. -/
theorem pack_lane {b : List Byte} {i j : Nat} {w : FifoWord} (hw : (pack b)[i]? = some w) (hj : j < 4) :
    w.extractLsb' (8 * j) 8 = b.getD (4 * i + j) 0 := by
  rw [pack_getElem?] at hw
  split at hw
  · simp only [Option.some.injEq] at hw
    rw [← hw, wordOfBytes_lane _ hj, List.getD_eq_getElem?_getD, List.getElem?_take_of_lt hj,
      List.getElem?_drop, List.getD_eq_getElem?_getD]
  · simp at hw

theorem pack_length (b : List Byte) : (pack b).length = (b.length + 3) / 4 := by
  simp only [pack, List.length_map, List.length_range, ceil4_eq]

/-- A run of pushes appends all its words, or faults when they do not fit (20_memory.md R42). -/
theorem txPushAll_eq (ws : List FifoWord) (s : State) (h0 : ws ≠ [] ∨ s.usb.txf.length ≤ 384) :
    txPushAll ws s =
    if s.usb.txf.length + ws.length ≤ 384 then .ok { s with usb.txf := s.usb.txf ++ ws } else .error .txFifoOverflow := by
  induction ws generalizing s with
  | nil => simp [txPushAll, h0.resolve_left (fun h => h rfl)]
  | cons w ws ih =>
    by_cases h : s.usb.txf.length < 384
    · simp only [txPushAll, txPush, Config.fifoWords_eq, h, if_true]
      rw [ih]
      · simp only [List.length_append, List.length_cons, List.length_nil, List.append_assoc, List.cons_append,
          List.nil_append, Nat.add_assoc, Nat.add_comm 1, Nat.zero_add]
      · right; simp; omega
    · rw [if_neg (by simp only [List.length_cons]; omega)]
      simp [txPushAll, txPush, Config.fifoWords_eq, h]

/-- A run of pops takes the words held, then free values (20_memory.md R43). -/
theorem rxPopN_eq (k : Nat) (s : State) : rxPopN k s =
    (s.usb.rxf.take k ++ (List.range (k - s.usb.rxf.length)).map (fun i => Config.freeWord (s.draws + i)),
      { s with usb.rxf := s.usb.rxf.drop k, draws := s.draws + (k - s.usb.rxf.length) }) := by
  induction k generalizing s with
  | zero => simp [rxPopN]
  | succ k ih =>
    cases h : s.usb.rxf with
    | nil =>
      simp only [rxPopN, rxPop, h, ih, List.length_nil, Nat.sub_zero, List.take_nil, List.nil_append, List.drop_nil,
        List.range_succ_eq_map, List.map_cons, List.map_map, Nat.add_zero]
      congr 1
      · congr 2; funext i; simp [Nat.add_assoc, Nat.add_comm 1]
      · congr 1; omega
    | cons w rest =>
      simp only [rxPopN, rxPop, h, ih, List.length_cons, List.take_succ_cons, List.drop_succ_cons, List.cons_append,
        Nat.add_sub_add_right]

@[simp] theorem rxPopN_length (k : Nat) (s : State) : (rxPopN k s).1.length = k := by rw [rxPopN_eq]; simp; omega

theorem wordLanes_eq (w : FifoWord) :
    wordLanes w = [w.extractLsb' 0 8, w.extractLsb' 8 8, w.extractLsb' 16 8, w.extractLsb' 24 8] := rfl

/-- A byte of the unpacked words is its lane of its word (45_usb_fifo.md R142). -/
theorem unpack_getD (ws : List FifoWord) (n a : Nat) (w : FifoWord) (h : a < n) (hw : ws[a / 4]? = some w) :
    (unpack ws n).getD a 0 = w.extractLsb' (8 * (a % 4)) 8 := by
  have key : (ws.flatMap wordLanes)[a]? = some (w.extractLsb' (8 * (a % 4)) 8) := by
    clear h
    induction ws generalizing a with
    | nil => simp at hw
    | cons v ws ih =>
      by_cases h4 : a < 4
      · have : a / 4 = 0 := by omega
        rw [this] at hw; simp at hw; subst hw
        match a, h4 with
        | 0, _ => rfl
        | 1, _ => rfl
        | 2, _ => rfl
        | 3, _ => rfl
      · obtain ⟨c, rfl⟩ : ∃ c, a = c + 4 := ⟨a - 4, by omega⟩
        have h1 : (c + 4) / 4 = c / 4 + 1 := by omega
        rw [h1, List.getElem?_cons_succ] at hw
        have := ih c hw
        rw [Nat.add_mod_right, List.flatMap_cons, List.getElem?_append_right (by simp [wordLanes_eq])]
        simpa [wordLanes_eq] using this
  rw [unpack, List.getD_eq_getElem?_getD, List.getElem?_take_of_lt h, key]; rfl

@[simp] theorem unpack_length (ws : List FifoWord) (n : Nat) : (unpack ws n).length = min n (4 * ws.length) := by
  have : (ws.flatMap wordLanes).length = 4 * ws.length := by
    induction ws with
    | nil => rfl
    | cons v ws ih => rw [List.flatMap_cons, List.length_append, ih]; simp [wordLanes_eq]; omega
  rw [unpack, List.length_take, this]

end Sys2Proof.Machine
end

