-- ==== Sys2Proof/Laws/Queue.lean ====
section
/-! SUPPORT. The ring of frames as the list it holds, oldest first (10_state.md R17, 43_sample_queue.md R101, R102). -/

namespace Sys2Proof.Machine

@[simp] theorem SampleQueue.frames_length (q : SampleQueue) : q.frames.length = q.count.val := by
  simp [SampleQueue.frames]

theorem SampleQueue.enq_eq_none {q : SampleQueue} {f : CapsenseFrame} : q.enq f = none ↔ q.count = 4 := by
  unfold SampleQueue.enq; split <;> simp_all

theorem SampleQueue.enq_eq_some {q q' : SampleQueue} {f : CapsenseFrame} : q.enq f = some q' ↔
    q.count ≠ 4 ∧ q' = { q with slot := q.slot.set q.tail f, tail := q.tail + 1, count := q.count + 1 } := by
  unfold SampleQueue.enq; split <;> simp_all [eq_comm]

theorem SampleQueue.deq_eq_none {q : SampleQueue} : q.deq = none ↔ q.count = 0 := by
  unfold SampleQueue.deq; split <;> simp_all

theorem SampleQueue.deq_eq_some {q q' : SampleQueue} {f : CapsenseFrame} : q.deq = some (f, q') ↔
    q.count ≠ 0 ∧ f = q.slot.get q.head ∧ q' = { q with head := q.head + 1, count := q.count - 1 } := by
  unfold SampleQueue.deq; split <;> simp_all [eq_comm]

/-- On a ring, an enqueue appends. -/
theorem SampleQueue.frames_enq {q q' : SampleQueue} {f : CapsenseFrame}
    (h : q.tail.val = (q.head.val + q.count.val) % 4) (he : q.enq f = some q') : q'.frames = q.frames ++ [f] := by
  obtain ⟨h4, rfl⟩ := SampleQueue.enq_eq_some.mp he
  obtain ⟨slot, head, tail, count, split⟩ := q
  obtain ⟨⟨slot⟩, hs⟩ := slot
  simp at hs h h4
  match slot, hs with
  | [a, b, c, d], _ =>
    have : tail = head + Fin.ofNat 4 count.val := by apply Fin.ext; simp [h, Fin.val_add]
    subst this
    fin_cases count <;> fin_cases head <;> first | rfl | exact absurd rfl h4

/-- A dequeue takes the first frame. -/
theorem SampleQueue.frames_deq {q q' : SampleQueue} {f : CapsenseFrame} (he : q.deq = some (f, q')) :
    q.frames = f :: q'.frames := by
  obtain ⟨h4, rfl, rfl⟩ := SampleQueue.deq_eq_some.mp he
  obtain ⟨slot, head, tail, count, split⟩ := q
  obtain ⟨⟨slot⟩, hs⟩ := slot
  simp at hs h4
  match slot, hs with
  | [a, b, c, d], _ =>
    fin_cases count <;> fin_cases head <;> first | rfl | exact absurd rfl h4

end Sys2Proof.Machine
end

