-- ==== Sys2Proof/Laws/Exec.lean ====
section
/-! SUPPORT. When each command answers a next state, and which: one lemma per command, so that a proof over all commands
cites them and unfolds none. -/

namespace Sys2Proof.Machine

variable {s t : State}

theorem next_eq_next {a : State} : (Host.Outcome.next a : Result) = .next t ↔ t = a := by
  rw [Host.Outcome.next.injEq]; exact eq_comm

theorem whenUsbFree_next {r : Result} : whenUsbFree s r = .next t ↔ s.usb.enBusy = false ∧ r = .next t := by
  unfold whenUsbFree breach; split <;> simp_all

theorem exec_capMeasure_next : exec .capMeasure s = .next t ↔ s.cap.phase = .idle ∧
    t = State.deliver (some (resultWord 0 0)) [] { s with
      cap := { s.cap with mux := s.cap.ch, cnt := 0, ttRun := true, toRun := true, phase := .measuring } } := by
  simp only [exec, execCapMeasure, State.ok, State.okData, breach]; split <;> simp_all [next_eq_next, -Host.Outcome.next.injEq]

/-- The state a capture leaves, before its result is delivered: a queue that may have taken a frame. -/
theorem exec_capCapture_next : exec .capCapture s = .next t ↔ s.cap.phase = .measuring ∧
    (s.cap.ch = .B → s.q.split = true) ∧
    t = State.deliver (some (resultWord 0 0)) [] { s with
      flt := s.flt.set s.cap.ch ((s.flt.get s.cap.ch).push s.cap.cnt)
      cap := { s.cap with ttRun := false, toRun := false, ch := succChannel s.cap.ch, phase := .idle }
      q := if s.cap.ch = .B then
          (s.q.enq (snapshot { s with flt := s.flt.set s.cap.ch ((s.flt.get s.cap.ch).push s.cap.cnt) })).getD s.q
        else s.q } := by
  simp only [exec, execCapCapture, State.ok, State.okData, breach]
  split
  · cases h : s.cap.ch <;> simp only
    · simp_all [captureAdvance, captureSample, fltPush, next_eq_next, -Host.Outcome.next.injEq]
    · split <;> simp_all [captureAdvance, captureSample, captureEnqueue, fltPush, snapshot, next_eq_next, -Host.Outcome.next.injEq]
  · simp_all

theorem exec_tmrAck_next : exec .tmrAck s = .next t ↔
    t = State.deliver (some (resultWord 0 0)) [] { s with cap := { s.cap with ovf := false } } := by
  simp only [exec, execTmrAck, State.ok, State.okData, next_eq_next]

theorem exec_sysRdreg_next {n : Nat} : exec (.sysRdreg n) s = .next t ↔ ∃ v, readRegister n s = some v ∧
    t = s.deliver (some (resultWord 0 (v.extractLsb' 0 16))) (wordBytes v) := by
  simp only [exec, execSysRdreg, State.okData]
  cases readRegister n s <;> simp [next_eq_next, -Host.Outcome.next.injEq]

theorem exec_fltPush_next {ch : Channel} {v : Half} : exec (.fltPush ch v) s = .next t ↔
    t = (fltPush ch v s).deliver (some (resultWord 0 0)) [] := by
  simp only [exec, execFltPush, State.ok, State.okData, next_eq_next]

theorem exec_fltRaw_next {ch : Channel} : exec (.fltRaw ch) s = .next t ↔
    t = s.deliver (some (resultWord 0 (s.flt.get ch).latest)) [] := by
  simp only [exec, execFltRaw, State.ok, State.okData, next_eq_next]

theorem exec_fltMean_next {ch : Channel} : exec (.fltMean ch) s = .next t ↔
    t = s.deliver (some (resultWord 0 (s.flt.get ch).mean)) [] := by
  simp only [exec, execFltMean, State.ok, State.okData, next_eq_next]

theorem exec_fltMax_next {ch : Channel} : exec (.fltMax ch) s = .next t ↔
    t = s.deliver (some (resultWord 0 (s.flt.get ch).max)) [] := by
  simp only [exec, execFltMax, State.ok, State.okData, next_eq_next]

theorem exec_qSplit_next : exec .qSplit s = .next t ↔ s.q.split = false ∧
    t = State.deliver (some (resultWord 0 0)) [] { s with q := { s.q with split := true } } := by
  simp only [exec, execQSplit, State.ok, State.okData, breach]; split <;> simp_all [next_eq_next, -Host.Outcome.next.injEq]

theorem exec_qEnq_next : exec .qEnq s = .next t ↔ s.q.split = true ∧
    ((∃ q, s.q.enq (snapshot s) = some q ∧ t = State.deliver (some (resultWord 0 0)) [] { s with q := q }) ∨
      (s.q.enq (snapshot s) = none ∧ t = s.deliver (some (resultWord 5 0)) (snapshot s).bytes)) := by
  simp only [exec, execQEnq, State.ok, State.okData, State.raiseData, breach]
  split
  · split <;> simp_all [next_eq_next, -Host.Outcome.next.injEq, ErrorResult.code]
  · simp_all

theorem exec_qDeq_next : exec .qDeq s = .next t ↔ s.q.split = true ∧
    ((∃ f q, s.q.deq = some (f, q) ∧ t = State.deliver (some (resultWord 0 0)) f.bytes { s with q := q }) ∨
      (s.q.deq = none ∧ t = s.deliver (some (resultWord 6 0)) [])) := by
  simp only [exec, execQDeq, State.okData, State.raise, State.raiseData, breach]
  split
  · split <;> simp_all [next_eq_next, -Host.Outcome.next.injEq, ErrorResult.code]
  · simp_all

theorem exec_qLen_next : exec .qLen s = .next t ↔
    t = s.deliver (some (resultWord 0 (BitVec.ofNat 16 s.q.count.val))) [] := by
  simp only [exec, execQLen, State.ok, State.okData, next_eq_next]

theorem exec_usbEnable_next : exec .usbEnable s = .next t ↔ s.usb.enBusy = false ∧
    t = enableContinue (enableStart s) := by
  simp only [exec, execUsbEnable, whenUsbFree_next, next_eq_next]

theorem exec_usbReset_next : exec .usbReset s = .next t ↔ s.usb.enBusy = false ∧
    t = (sessionReset true s).deliver (some (resultWord 0 0)) [] := by
  simp only [exec, execUsbReset, whenUsbFree_next, State.ok, State.okData, next_eq_next]

theorem exec_usbAlloc_next {d : Dir} {n : Nat} : exec (.usbAlloc d n) s = .next t ↔ s.usb.enBusy = false ∧
    ((n = 0 ∧ s.usb.ctrlAlloc.get d = true ∧ t = s.deliver (some (resultWord 4 0)) []) ∨
     (n = 0 ∧ s.usb.ctrlAlloc.get d = false ∧ t = State.deliver (some (resultWord 0 (endpointValue ⟨d, 0⟩))) []
        { s with usb := { s.usb with ctrlAlloc := s.usb.ctrlAlloc.set d true } }) ∨
     (n ≠ 0 ∧ s.usb.next.get d = 3 ∧ t = s.deliver (some (resultWord 2 0)) []) ∨
     (n ≠ 0 ∧ s.usb.next.get d ≠ 3 ∧ t = State.deliver
        (some (resultWord 0 (endpointValue (interfaceAddress d (s.usb.next.get d + 1))))) []
        { s with usb := { s.usb with next := s.usb.next.set d (s.usb.next.get d + 1) } })) := by
  simp only [exec, execUsbAlloc, allocControl, allocInterface, whenUsbFree_next, State.ok, State.okData, State.raise,
    State.raiseData]
  repeat' split
  all_goals simp_all [next_eq_next, -Host.Outcome.next.injEq, ErrorResult.code]

theorem exec_usbWrite_next {d : Dir} {n len : Nat} : exec (.usbWrite d n len) s = .next t ↔ s.usb.enBusy = false ∧
    ((¬ (d = .inn ∧ n = 0) ∧ t = s.deliver (some (resultWord 1 0)) []) ∨
     ((d = .inn ∧ n = 0) ∧ transferLen len = 0 ∧ t = s.deliver (some (resultWord 3 0)) []) ∨
     ((d = .inn ∧ n = 0) ∧ transferLen len ≠ 0 ∧
        s.usb.txf.length + (pack (Memory.readBytes s.port.buf (transferLen len))).length ≤ 384 ∧
        t = State.deliver (some (resultWord 0 (BitVec.ofNat 16 (transferLen len)))) [] { s with
          usb := { s.usb with txf := s.usb.txf ++ pack (Memory.readBytes s.port.buf (transferLen len))
                              pend := { s.usb.pend with inn := true } } })) := by
  simp only [exec, execUsbWrite, writeTransfer, whenUsbFree_next, State.raise, State.raiseData, State.ok, State.okData]
  by_cases ha : d = .inn ∧ n = 0
  · by_cases h0 : transferLen len = 0
    · simp [ha, h0, next_eq_next, -Host.Outcome.next.injEq, ErrorResult.code]
    · have hp : pack (Memory.readBytes s.port.buf (transferLen len)) ≠ [] := by
        intro h
        have := pack_getElem? (Memory.readBytes s.port.buf (transferLen len)) 0
        rw [h, if_pos (by simp [Memory.readBytes]; omega)] at this
        simp at this
      rw [if_pos ha, if_neg h0, txPushAll_eq _ _ (Or.inl hp)]
      by_cases hl : s.usb.txf.length + (pack (Memory.readBytes s.port.buf (transferLen len))).length ≤ 384
      · simp [ha, h0, hl, PerDir.set, next_eq_next, -Host.Outcome.next.injEq]
      · simp [ha, h0, hl]
  · simp [ha, next_eq_next, -Host.Outcome.next.injEq, ErrorResult.code]

theorem exec_usbRead_next {d : Dir} {n len : Nat} : exec (.usbRead d n len) s = .next t ↔ s.usb.enBusy = false ∧
    ((¬ (d = .out ∧ n = 0) ∧ t = s.deliver (some (resultWord 1 0)) []) ∨
     ((d = .out ∧ n = 0) ∧ transferLen len = 0 ∧ t = s.deliver (some (resultWord 3 0)) []) ∨
     ((d = .out ∧ n = 0) ∧ transferLen len ≠ 0 ∧
        t = State.deliver (some (resultWord 0 (BitVec.ofNat 16 (transferLen len)))) [] { s with
          usb := { s.usb with rxf := s.usb.rxf.drop (ceil4 (transferLen len)) },
          draws := s.draws + (ceil4 (transferLen len) - s.usb.rxf.length),
          port := { s.port with
            buf := Memory.writeBytes s.port.buf 0 (unpack (rxPopN (ceil4 (transferLen len)) s).1 (transferLen len)) } }))
    := by
  simp only [exec, execUsbRead, readTransfer, whenUsbFree_next, State.raise, State.raiseData, State.ok, State.okData]
  by_cases ha : d = .out ∧ n = 0
  · by_cases h0 : transferLen len = 0
    · simp [ha, h0, next_eq_next, -Host.Outcome.next.injEq, ErrorResult.code]
    · rw [if_pos ha, if_neg h0]
      simp [rxPopN_eq, ha, h0, next_eq_next, -Host.Outcome.next.injEq]
  · simp [ha, next_eq_next, -Host.Outcome.next.injEq, ErrorResult.code]

theorem exec_usbSetaddr_next {a : BitVec 8} : exec (.usbSetaddr a) s = .next t ↔ s.usb.enBusy = false ∧
    t = State.deliver (some (resultWord 0 0)) [] { s with usb := { s.usb with addr := deviceAddress a } } := by
  simp only [exec, execUsbSetaddr, whenUsbFree_next, State.ok, State.okData, next_eq_next]

theorem exec_usbSetstall_next {d : Dir} {n : Nat} {b : Bool} : exec (.usbSetstall d n b) s = .next t ↔
    s.usb.enBusy = false ∧ t = State.deliver (some (resultWord 0 0)) []
      { s with usb := { s.usb with stall := if n = 0 then s.usb.stall.set d b else s.usb.stall } } := by
  simp only [exec, execUsbSetstall, whenUsbFree_next, State.ok, State.okData, next_eq_next]
  split <;> simp

theorem exec_usbIsstalled_next {d : Dir} {n : Nat} : exec (.usbIsstalled d n) s = .next t ↔ s.usb.enBusy = false ∧
    t = s.deliver (some (resultWord 0
      (if n = 0 then (BitVec.ofBool (s.usb.stall.get d)).setWidth 16 else 1))) [] := by
  simp only [exec, execUsbIsstalled, whenUsbFree_next, State.ok, State.okData, next_eq_next]

theorem exec_usbPoll_next : exec .usbPoll s = .next t ↔ s.usb.enBusy = false ∧
    t = if anyFlag s.usb.ints 3 then State.deliver (some (resultWord 0 1)) []
          { s with usb := { s.usb with ints := clearFlags s.usb.ints 3 } }
        else State.deliver (some (resultWord 0 0)) [] { s with usb := { s.usb with pend := ⟨false, false⟩ } } := by
  have h : intUsbrst ||| intEnumdone = 3 := rfl
  simp only [exec, execUsbPoll, whenUsbFree_next, State.ok, State.okData, h]
  split <;> simp [next_eq_next, -Host.Outcome.next.injEq]

end Sys2Proof.Machine
end

