-- ==== Sys2Proof/Laws/Filter.lean ====
section
/-! SUPPORT. What one filter push does (42_filter.md R90, R94): the mean is the exact truncating average, the maximum one
comparison. -/

namespace Sys2Proof.Safety

open Sys2Proof.Machine

theorem sampleSum_append (a b : List Half) : sampleSum (a ++ b) = sampleSum a + sampleSum b := by simp [sampleSum]

theorem sampleSum_le (l : List Half) : sampleSum l ≤ l.length * 65535 := by
  induction l with
  | nil => simp [sampleSum]
  | cons v l ih =>
    have hv : v.toNat < 65536 := v.isLt
    simp only [sampleSum, List.map_cons, List.sum_cons, List.length_cons] at ih ⊢; omega

/-- A 32-bit accumulator that cannot wrap holds the exact sum. -/
theorem foldl_sum_exact (l : List Half) : ∀ acc : Word, acc.toNat + sampleSum l < 2 ^ 32 →
    (l.foldl (fun sum v => sum + v.setWidth 32) acc).toNat = acc.toNat + sampleSum l := by
  induction l with
  | nil => intro acc _; simp [sampleSum]
  | cons v l ih =>
    intro acc h
    have hv : v.toNat < 65536 := v.isLt
    simp only [sampleSum, List.map_cons, List.sum_cons] at h ih ⊢
    have : (acc + v.setWidth 32).toNat = acc.toNat + v.toNat := by simp [BitVec.toNat_add]; omega
    rw [List.foldl_cons, ih _ (by rw [this]; omega), this]; omega

/-- Neither the accumulator nor the truncation loses anything (42_filter.md R94). -/
theorem windowMean_toNat (h : Vector Half 16) : (windowMean h).toNat = sampleSum h.toList / 16 := by
  have h1 := sampleSum_le h.toList
  simp only [Vector.length_toList] at h1
  have h2 : (windowSum h).toNat = sampleSum h.toList := by
    unfold windowSum; rw [foldl_sum_exact _ _ (by simp; omega)]; simp
  show ((windowSum h / 16#32).setWidth 16).toNat = _
  rw [BitVec.toNat_setWidth, BitVec.toNat_udiv, h2]
  simp; omega

@[simp] theorem FilterState.push_cur (f : FilterState) (v : Half) : (f.push v).cur = f.cur + 1 := rfl
@[simp] theorem FilterState.push_hist (f : FilterState) (v : Half) : (f.push v).hist = f.hist.set f.cur v := rfl

theorem FilterState.push_max (f : FilterState) (v : Half) : (f.push v).max.toNat = max f.max.toNat v.toNat := by
  simp only [FilterState.push]; split <;> simp_all only [BitVec.lt_def, gt_iff_lt] <;> omega

theorem FilterState.push_mean (f : FilterState) (v : Half) :
    (f.push v).mean.toNat = sampleSum (f.hist.set f.cur v).toList / 16 := windowMean_toNat _

theorem FilterState.push_latest (f : FilterState) (v : Half) : (f.push v).latest = v := by
  have : f.cur + 1 + 15 = f.cur := by generalize f.cur = c; revert c; decide
  simp [FilterState.latest, FilterState.push, this, Vector.get_eq_getElem]

/-- A push keeps a filter right. -/
theorem FilterOk.push {f : FilterState} (h : FilterOk f) (v : Half) : FilterOk (f.push v) := by
  refine ⟨windowMean_toNat _, ?_⟩
  intro w hw
  have hm := FilterState.push_max f v
  rw [FilterState.push_hist, Vector.mem_toList_iff] at hw
  rw [BitVec.le_def, hm]
  rcases Vector.mem_or_eq_of_mem_set hw with hw | rfl
  · have := h.2 w (Vector.mem_toList_iff.mpr hw)
    rw [BitVec.le_def] at this; omega
  · omega

theorem FilterOk.reset : FilterOk FilterState.reset := by
  refine ⟨by rfl, fun v hv => ?_⟩
  have : v = 0 := by simpa [FilterState.reset] using hv
  subst this; decide

end Sys2Proof.Safety
end

