-- ==== Sys2Proof/Laws/Memory.lean ====
section
/-! SUPPORT. The laws of the byte memory: a write gives its value at its index and leaves every other alone, and keeps
the canonical form (20_memory.md R44). -/

namespace Sys2Proof.Machine

@[simp] theorem Memory.wf_nil : Memory.wf [] := by decide

theorem Memory.read_write (m : Memory) (a c : Nat) (b : Byte) (hm : Memory.wf m) :
    Memory.read (Memory.write m a b) c = if c = a then b else Memory.read m c := by
  induction m with
  | nil =>
    by_cases hb : b = 0 <;> by_cases h2 : c = a
    · simp only [Memory.write, hb, if_true, h2, Memory.read]
    · simp only [Memory.write, hb, if_true, if_neg h2, Memory.read]
    · simp only [Memory.write, if_neg hb, h2, if_true, Memory.read]
    · simp only [Memory.write, if_neg hb, if_neg h2, Memory.read, if_neg (Ne.symm h2)]
  | cons x rest ih =>
    obtain ⟨k, v⟩ := x
    obtain ⟨hp, hz⟩ := hm
    have hp' := List.pairwise_cons.mp hp
    have ih := ih ⟨hp'.2, fun x hx => hz x (List.mem_cons_of_mem _ hx)⟩
    have absent : ∀ n, n ≤ k → Memory.read rest n = 0 := by
      intro n hn
      have : ∀ l : Memory, (∀ x ∈ l, k < x.1) → Memory.read l n = 0 := by
        intro l hl
        induction l with
        | nil => rfl
        | cons y l ih2 =>
          have := hl y List.mem_cons_self
          simp only [Memory.read]
          rw [if_neg (by omega), ih2 (fun x hx => hl x (List.mem_cons_of_mem _ hx))]
      exact this rest hp'.1
    simp only [Memory.write]
    by_cases h1 : a < k
    · by_cases hb : b = 0 <;> by_cases h2 : c = a
      · subst h2
        simp only [h1, hb, if_true, Memory.read, if_neg (Nat.ne_of_gt h1), absent c (Nat.le_of_lt h1)]
      · simp only [h1, hb, if_true, if_neg h2]
      · subst h2; simp only [h1, if_true, if_neg hb, Memory.read]
      · simp only [h1, if_true, if_neg hb, if_neg h2, Memory.read, if_neg (Ne.symm h2)]
    · by_cases h3 : a = k
      · subst h3
        by_cases hb : b = 0 <;> by_cases h2 : c = a
        · subst h2; simp only [h1, if_false, if_true, hb, absent c (Nat.le_refl c)]
        · simp only [h1, if_false, if_true, hb, if_neg h2, Memory.read, if_neg (Ne.symm h2)]
        · subst h2; simp only [h1, if_false, if_true, if_neg hb, Memory.read]
        · simp only [h1, if_false, if_true, if_neg hb, if_neg h2, Memory.read, if_neg (Ne.symm h2)]
      · simp only [h1, h3, if_false, Memory.read, ih]
        by_cases h4 : k = c
        · subst h4; simp [Ne.symm h3]
        · simp [h4]

theorem Memory.write_keys {m : Memory} {a : Nat} {b : Byte} {x : Host.Cell} (hx : x ∈ Memory.write m a b) :
    x ∈ m ∨ x.1 = a := by
  induction m with
  | nil => simp only [Memory.write] at hx; split at hx <;> simp_all
  | cons y rest ih =>
    obtain ⟨k, v⟩ := y
    simp only [Memory.write] at hx
    repeat' split at hx
    all_goals simp only [List.mem_cons] at hx ⊢
    all_goals grind

theorem Memory.write_wf {m : Memory} (a : Nat) (b : Byte) (hm : Memory.wf m) : Memory.wf (Memory.write m a b) := by
  induction m with
  | nil => simp only [Memory.write]; split <;> simp_all [Memory.wf]
  | cons y rest ih =>
    obtain ⟨k, v⟩ := y
    obtain ⟨hp, hz⟩ := hm
    have hp' := List.pairwise_cons.mp hp
    have hw : Memory.wf rest := ⟨hp'.2, fun x hx => hz x (List.mem_cons_of_mem _ hx)⟩
    have ih := ih hw
    have hv : v ≠ 0 := hz (k, v) List.mem_cons_self
    simp only [Memory.write]
    split
    · split
      · exact ⟨hp, hz⟩
      · refine ⟨List.pairwise_cons.mpr ⟨?_, hp⟩, ?_⟩
        · intro x hx
          rcases List.mem_cons.mp hx with rfl | hx
          · assumption
          · have := hp'.1 x hx; simp only at this ⊢; omega
        · intro x hx
          rcases List.mem_cons.mp hx with rfl | hx
          · assumption
          · exact hz x hx
    · split
      · split
        · exact hw
        · rename_i h1 h2 h3
          refine ⟨List.pairwise_cons.mpr ⟨?_, hp'.2⟩, ?_⟩
          · intro x hx; have := hp'.1 x hx; simp only at this ⊢; omega
          · intro x hx
            rcases List.mem_cons.mp hx with rfl | hx
            · assumption
            · exact hw.2 x hx
      · rename_i h1 h2
        refine ⟨List.pairwise_cons.mpr ⟨?_, ih.1⟩, ?_⟩
        · intro x hx
          rcases Memory.write_keys hx with h | h
          · exact hp'.1 x h
          · simp only [h]; omega
        · intro x hx
          rcases List.mem_cons.mp hx with rfl | hx
          · exact hv
          · exact ih.2 x hx

theorem Memory.writeBytes_wf {m : Memory} (a : Nat) (bs : List Byte) (hm : Memory.wf m) :
    Memory.wf (Memory.writeBytes m a bs) := by
  induction bs generalizing m a with
  | nil => exact hm
  | cons b bs ih => exact ih (a + 1) (Memory.write_wf a b hm)

theorem Memory.read_writeBytes {m : Memory} (a c : Nat) (bs : List Byte) (hm : Memory.wf m) :
    Memory.read (Memory.writeBytes m a bs) c = if a ≤ c ∧ c < a + bs.length then bs.getD (c - a) 0 else Memory.read m c := by
  induction bs generalizing m a with
  | nil => rw [Memory.writeBytes, if_neg (by simp only [List.length_nil]; omega)]
  | cons b bs ih =>
    rw [Memory.writeBytes, ih (a + 1) (Memory.write_wf a b hm), Memory.read_write m a c b hm]
    by_cases h1 : c = a
    · subst h1; simp
    · by_cases h2 : a + 1 ≤ c ∧ c < a + 1 + bs.length
      · have h3 : a ≤ c ∧ c < a + (b :: bs).length := by simp only [List.length_cons]; omega
        have h4 : c - a = c - (a + 1) + 1 := by omega
        rw [if_pos h2, if_pos h3, h4, List.getD_cons_succ]
      · have h3 : ¬ (a ≤ c ∧ c < a + (b :: bs).length) := by simp only [List.length_cons]; omega
        rw [if_neg h2, if_neg h1, if_neg h3]

end Sys2Proof.Machine
end

