-- ==== Sys2Proof/Laws/PerInstr.lean ====
section
/-! SUPPORT. A statement about every command as syntax, one lemma per constructor: its word has zeros in bits 22:20, the
field `z` that 30_encoding.md R60 says must be 0. -/

namespace Sys2Proof.Laws.ReservedBitsZero

def Statement (i : Instr) : Prop := (encode i).extractLsb' 20 3 = 0

/-- The bits 22:20 of a command's word are its `z` field. -/
theorem of_fields {i : Instr} (h : (encodeFields i).z = 0) : Statement i := by
  have h2 : (Fields.ofWord (encodeFields i).toWord).z = 0 := by rw [Fields.ofWord_toWord]; exact h
  exact h2

theorem capMeasure : Statement .capMeasure := of_fields rfl
theorem capCapture : Statement .capCapture := of_fields rfl
theorem tmrAck : Statement .tmrAck := of_fields rfl
theorem sysRdreg (regno : Nat) : Statement (.sysRdreg regno) := of_fields rfl
theorem fltPush (ch : Channel) (value : Half) : Statement (.fltPush ch value) := of_fields rfl
theorem fltRaw (ch : Channel) : Statement (.fltRaw ch) := of_fields rfl
theorem fltMean (ch : Channel) : Statement (.fltMean ch) := of_fields rfl
theorem fltMax (ch : Channel) : Statement (.fltMax ch) := of_fields rfl
theorem qSplit : Statement .qSplit := of_fields rfl
theorem qEnq : Statement .qEnq := of_fields rfl
theorem qDeq : Statement .qDeq := of_fields rfl
theorem qLen : Statement .qLen := of_fields rfl
theorem usbEnable : Statement .usbEnable := of_fields rfl
theorem usbReset : Statement .usbReset := of_fields rfl
theorem usbAlloc (dir : Dir) (idx : Nat) : Statement (.usbAlloc dir idx) := of_fields rfl
theorem usbWrite (dir : Dir) (idx len : Nat) : Statement (.usbWrite dir idx len) := of_fields rfl
theorem usbRead (dir : Dir) (idx len : Nat) : Statement (.usbRead dir idx len) := of_fields rfl
theorem usbSetaddr (addr8 : BitVec 8) : Statement (.usbSetaddr addr8) := of_fields rfl
theorem usbSetstall (dir : Dir) (idx : Nat) (stalled : Bool) : Statement (.usbSetstall dir idx stalled) := of_fields rfl
theorem usbIsstalled (dir : Dir) (idx : Nat) : Statement (.usbIsstalled dir idx) := of_fields rfl
theorem usbPoll : Statement .usbPoll := of_fields rfl

end Sys2Proof.Laws.ReservedBitsZero
end

