-- ==== Sys2Proof/Laws/Results.lean ====
section
/-! SUPPORT. The result words in the form the statements name them, and what answering leaves alone (30_encoding.md R62,
60_exceptions.md R171). -/

namespace Sys2Proof.Safety

open Sys2Proof.Machine

theorem resultWord_ok (v : Half) : some (resultWord 0 v) = okWord v := by
  simp only [okWord, resultWord, Option.some.injEq]
  apply BitVec.eq_of_toNat_eq
  show ((0#4 ++ (0#12 ++ v) : BitVec (4 + (12 + 16)))).toNat = _
  simp only [BitVec.toNat_append, BitVec.toNat_ofNat]; simp; omega

theorem resultWord_error (e : ErrorResult) : some (resultWord e.code 0) = errorWord e.code.toNat := by cases e <;> rfl

/-- The status field of a result word is what was put there. -/
theorem resultWord_status (c : BitVec 4) (v : Half) : (resultWord c v).extractLsb' 28 4 = c := by
  ext i hi
  have h : (resultWord c v).getLsbD (28 + i) = (c ++ ((0 : BitVec 12) ++ v) : BitVec (4 + (12 + 16))).getLsbD (28 + i) := rfl
  rw [BitVec.getElem_extractLsb', h, BitVec.getLsbD_append, if_neg (by omega), ← BitVec.getLsbD_eq_getElem]
  congr 1; omega

/-- Delivering on a state with the same port answers exactly that. -/
theorem answers_deliver {s t : State} (res : Option Word) (data : List Byte) (h : t.port = s.port) :
    Answers s (t.deliver res data) res data := by
  simp [Answers, h]

theorem answers_ok {s t : State} (v : Half) (data : List Byte) (h : t.port = s.port) :
    Answers s (t.deliver (some (resultWord 0 v)) data) (okWord v) data := by
  rw [← resultWord_ok]; exact answers_deliver _ _ h

theorem answers_error {s t : State} (e : ErrorResult) (data : List Byte) (h : t.port = s.port) :
    Answers s (t.deliver (some (resultWord e.code 0)) data) (errorWord e.code.toNat) data := by
  rw [← resultWord_error]; exact answers_deliver _ _ h

theorem execAll_cons {i : Instr} {is : List Instr} {s t : State} (h : exec i s = .next t) :
    execAll (i :: is) s = execAll is t := by simp [execAll, h]

end Sys2Proof.Safety
end

