-- ==== Sys2Proof/Laws/Sequencer.lean ====
section
/-! SUPPORT. Where a running USB.ENABLE holds, a move that does not set its bit is its effect alone
(60_exceptions.md R174). -/

namespace Sys2Proof.Safety

open Sys2Proof.Machine

theorem enableResume_holds {s : State} (h : EnableInv s) : enableResume s = s := by
  unfold enableResume
  split
  · rename_i hb
    rcases h.1 hb with ⟨h1, h2⟩ | ⟨h1, h2⟩ | ⟨h1, h2⟩ <;>
      exact enableRun_waits 16 (by rw [h1]; decide) (by rw [h1]; simp [enableReady, h2])
  · rfl

/-- An enabled move after which the sequencer still waits. -/
theorem runMove_holds {m : EnvMove} {s : State} (h : EnableInv (m.effect s)) :
    runMove m s = if m.enabled s then m.effect s else s := by
  unfold runMove; rw [enableResume_holds h]

theorem EnableInv.resetWith (c a : Bool) (n : BitVec 4) : EnableInv (State.resetWith c a n) := by
  simp [EnableInv, State.resetWith, Usb.reset]

/-- Everything a move can do where USB.ENABLE is complete, never run, or at one of its waits: nothing, its effect alone,
or lift exactly the hold that waits for it. -/
theorem runMove_cases {m : EnvMove} {s : State} (hi : EnableInv s) :
    (m.enabled s = false ∧ runMove m s = s) ∨
    (m.enabled s = true ∧ EnableInv (m.effect s) ∧ runMove m s = m.effect s) ∨
    (m = .clkrdy ∧ s.usb.enBusy = true ∧ s.usb.enStep = 3 ∧ s.phy.oscsel = true ∧ s.phy.clkrdy = false) ∨
    (m = .ahbidle ∧ s.usb.enBusy = true ∧ s.usb.enStep = 7 ∧ s.usb.ahbidle = false) ∨
    (m = .crstdone ∧ s.usb.enBusy = true ∧ s.usb.enStep = 9 ∧ s.usb.csrst = true) := by
  cases he : m.enabled s with
  | false => exact .inl ⟨rfl, runMove_disabled he⟩
  | true =>
    have done : EnableInv (m.effect s) → (True ∧ EnableInv (m.effect s) ∧ runMove m s = m.effect s) :=
      fun h => ⟨trivial, h, by rw [runMove_holds h, if_pos he]⟩
    simp only [reduceCtorEq, false_and, true_and, false_or]
    simp only [true_and] at done
    cases m with
    | tick | timeout | busReset | busEnumdone | busIn | busOut => exact .inl (done hi)
    | hardwareReset c a n => exact .inl (done (EnableInv.resetWith c a n))
    | clkrdy =>
      simp only [EnvMove.enabled, Bool.and_eq_true, Bool.not_eq_true'] at he
      by_cases hb : s.usb.enBusy = true
      · rcases hi.1 hb with ⟨h1, h2⟩ | ⟨h1, h2⟩ | ⟨h1, h2⟩
        · exact .inr (.inl ⟨rfl, hb, h1, he.1, he.2⟩)
        · exact .inl (done ⟨fun _ => .inr (.inl ⟨h1, h2⟩), hi.2⟩)
        · exact .inl (done ⟨fun _ => .inr (.inr ⟨h1, h2⟩), hi.2⟩)
      · exact .inl (done ⟨fun h => absurd h hb, hi.2⟩)
    | ahbidle =>
      simp only [EnvMove.enabled, Bool.not_eq_true'] at he
      by_cases hb : s.usb.enBusy = true
      · rcases hi.1 hb with ⟨h1, h2⟩ | ⟨h1, h2⟩ | ⟨h1, h2⟩
        · exact .inl (done ⟨fun _ => .inl ⟨h1, h2⟩, hi.2⟩)
        · exact .inr (.inr (.inl ⟨rfl, hb, h1, h2⟩))
        · exact .inl (done ⟨fun _ => .inr (.inr ⟨h1, h2⟩), hi.2⟩)
      · exact .inl (done ⟨fun h => absurd h hb, hi.2⟩)
    | crstdone =>
      have hc : s.usb.csrst = true := he
      have := hi.2.2 hc
      exact .inr (.inr (.inr ⟨rfl, this.1, this.2, hc⟩))

end Sys2Proof.Safety
end

