-- ==== Sys2Proof/Laws/Step.lean ====
section
/-! SUPPORT. Who acts next, and everything one step can be: the environment moves, a command runs, or the host acts
(20_memory.md R52, R53, 60_exceptions.md R178 to R182). -/

namespace Sys2Proof.Safety

open Sys2Proof.Machine

/-! ### Who runs -/

theorem forall_requested {s : State} {P : Context → Prop} : (∀ d, requested d s = true → P d) ↔
    (requested .usb s = true → P .usb) ∧ (requested .timer s = true → P .timer) ∧ (requested .rtc s = true → P .rtc) := by
  refine ⟨fun h => ⟨h _, h _, h _⟩, fun ⟨h2, h3, h4⟩ d hd => ?_⟩
  cases d with
  | idle => exact absurd hd (by simp [requested])
  | usb => exact h2 hd
  | timer => exact h3 hd
  | rtc => exact h4 hd

theorem due_eq_some {s : State} {c : Context} : due s = some c ↔ Due c s := by
  have hi : requested .idle s = false := rfl
  unfold due Due
  rw [forall_requested]
  cases hl : s.host.usbLock with
  | some d => simp
  | none =>
    simp only [Option.isSome_none, Bool.false_eq_true, if_false, List.find?_cons, List.find?_nil, and_true]
    generalize running s = r
    cases c with
    | idle => rw [hi]; cases requested .usb s <;> cases requested .timer s <;> cases requested .rtc s <;> cases r <;> decide
    | _ => cases requested .usb s <;> cases requested .timer s <;> cases requested .rtc s <;> cases r <;> decide

theorem due_eq_none {s : State} : due s = none ↔ NoneDue s := by
  simp only [NoneDue, ← due_eq_some, Option.eq_none_iff_forall_ne_some, ne_eq]

end Sys2Proof.Safety

/-! ### Small lemmas: what handing over, noting and entering leave -/

namespace Sys2Proof.Machine

section
variable (c : Context) (w : Word) (buf : Memory) (i : Instr) (s : State)

@[simp] theorem latchRequest_flt : (latchRequest c w buf s).flt = s.flt := rfl
@[simp] theorem latchRequest_cap : (latchRequest c w buf s).cap = s.cap := rfl
@[simp] theorem latchRequest_q : (latchRequest c w buf s).q = s.q := rfl
@[simp] theorem latchRequest_phy : (latchRequest c w buf s).phy = s.phy := rfl
@[simp] theorem latchRequest_usb : (latchRequest c w buf s).usb = s.usb := rfl
@[simp] theorem latchRequest_bus : (latchRequest c w buf s).bus = s.bus := rfl
@[simp] theorem latchRequest_host : (latchRequest c w buf s).host = s.host := rfl
@[simp] theorem latchRequest_draws : (latchRequest c w buf s).draws = s.draws := rfl
@[simp] theorem latchRequest_inputs : (latchRequest c w buf s).inputs = s.inputs := rfl
@[simp] theorem latchRequest_port : (latchRequest c w buf s).port =
    { issuer := c, cmd := w, buf := buf, res := none, data := [] } := rfl

@[simp] theorem noteIssue_flt : (noteIssue c i s).flt = s.flt := by cases i <;> rfl
@[simp] theorem noteIssue_cap : (noteIssue c i s).cap = s.cap := by cases i <;> rfl
@[simp] theorem noteIssue_q : (noteIssue c i s).q = s.q := by cases i <;> rfl
@[simp] theorem noteIssue_phy : (noteIssue c i s).phy = s.phy := by cases i <;> rfl
@[simp] theorem noteIssue_usb : (noteIssue c i s).usb = s.usb := by cases i <;> rfl
@[simp] theorem noteIssue_bus : (noteIssue c i s).bus = s.bus := by cases i <;> rfl
@[simp] theorem noteIssue_draws : (noteIssue c i s).draws = s.draws := by cases i <;> rfl
@[simp] theorem noteIssue_inputs : (noteIssue c i s).inputs = s.inputs := by cases i <;> rfl
@[simp] theorem noteIssue_active : (noteIssue c i s).host.active = s.host.active := by cases i <;> rfl
@[simp] theorem noteIssue_usbLock : (noteIssue c i s).host.usbLock = s.host.usbLock := by cases i <;> rfl

end

/-- The contexts at work once `c` runs. -/
def entered (c : Context) (s : State) : List Activation :=
  if c = running s then s.host.active else ⟨c, []⟩ :: s.host.active

/-- The contexts at work once the running one has taken a step of its own. -/
def dropped : List Activation → List Activation
  | [] => []
  | a :: below => { a with todo := a.todo.tail } :: below

/-- The contexts at work once the running one has more steps to do. -/
def added (steps : List HandlerStep) : List Activation → List Activation
  | [] => []
  | a :: below => { a with todo := steps ++ a.todo } :: below

theorem enterContext_eq (c : Context) (s : State) :
    enterContext c s = { s with host := { s.host with active := entered c s } } := by
  unfold enterContext entered; split <;> rfl

theorem dropStep_eq (s : State) : dropStep s = { s with host := { s.host with active := dropped s.host.active } } := by
  unfold dropStep; cases h : s.host.active <;> simp [dropped, ← h]

theorem addSteps_eq (steps : List HandlerStep) (s : State) :
    addSteps steps s = { s with host := { s.host with active := added steps s.host.active } } := by
  unfold addSteps; cases h : s.host.active <;> simp [added, ← h]

@[simp] theorem running_active (s : State) (x : Activation) (xs : List Activation) :
    running { s with host := { s.host with active := x :: xs } } = x.ctx := rfl

theorem running_entered (c : Context) (s : State) :
    running { s with host := { s.host with active := entered c s } } = c := by
  unfold entered; split
  · rename_i h; exact h.symm
  · rfl

theorem running_dropped (s : State) :
    running { s with host := { s.host with active := dropped s.host.active } } = running s := by
  unfold running dropped; cases s.host.active <;> rfl

/-- Ownership does not look at who is at work nor at what waits. -/
theorem ownsPort_host (c : Context) (i : Instr) (s : State) (xs : List Stimulus) (fs : List Activation) :
    ownsPort c i { s with inputs := xs, host := { s.host with active := fs } } = ownsPort c i s := by cases i <;> rfl

theorem mayAct_none {c : Context} {s : State} (h : mayAct c s = true) : due s = none := by
  simp only [mayAct, Bool.and_eq_true, Option.isNone_iff_eq_none] at h; exact h.1.1

end Sys2Proof.Machine

/-! ### The cases of a step -/

namespace Sys2Proof.Safety

open Sys2Proof.Machine

/-- Every way to a next state. In the cases of the host going on, `xs` is what still waits. -/
inductive StepTo (s : State) : State → Prop
  | move (m : EnvMove) (rest : List Stimulus) : s.inputs = .env m :: rest → StepTo s (runMove m { s with inputs := rest })
  | command (c : Context) (w : Word) (buf : Memory) (rest : List Stimulus) (i : Instr) (t : State) :
      s.inputs = .cmd c w buf :: rest → mayAct c s = true → decode w = .ok i → ownsPort c i s = true →
      exec i (latchRequest c w buf (noteIssue c i
        { s with inputs := rest, host := { s.host with active := entered c s } })) = .next t → StepTo s t
  | ownCommand (w : Word) (buf : Memory) (more : List HandlerStep) (xs : List Stimulus) (i : Instr) (t : State) :
      due s = none → hung s = false → pendingSteps s = .cmd w buf :: more → xs <:+ s.inputs → decode w = .ok i →
      ownsPort (running s) i s = true → nextCommand s = some (running s, w, buf) →
      exec i (latchRequest (running s) w buf (noteIssue (running s) i
        { s with inputs := xs, host := { s.host with active := dropped s.host.active } })) = .next t → StepTo s t
  | ownPend (more : List HandlerStep) (xs : List Stimulus) : due s = none → hung s = false →
      pendingSteps s = .pendUsb :: more → xs <:+ s.inputs →
      StepTo s { s with inputs := xs, host := { s.host with active := dropped s.host.active, usbPend := true } }
  | report (more : List HandlerStep) (xs : List Stimulus) : due s = none → hung s = false →
      pendingSteps s = .reportIfConfigured :: more → xs <:+ s.inputs →
      StepTo s (reportIfConfigured { s with inputs := xs, host := { s.host with active := dropped s.host.active } })
  | start (c : Context) (xs : List Stimulus) : Due c s → xs <:+ s.inputs → StepTo s (startHandler c { s with inputs := xs })
  | finish (xs : List Stimulus) : due s = none → hung s = false → pendingSteps s = [] → xs <:+ s.inputs →
      StepTo s (endHandler { s with inputs := xs })
  | waits (xs : List Stimulus) : due s = none → hung s = true → xs <:+ s.inputs → StepTo s { s with inputs := xs }
  | act (a : HostAct) (rest : List Stimulus) (t : State) : s.inputs = .host a :: rest → ready (.host a) s = true →
      runHostAct a (enterActor (.host a) { s with inputs := rest }) = .next t → StepTo s t

theorem runCommand_next {c : Context} {w : Word} {buf : Memory} {s t : State} (h : runCommand c w buf s = .next t) :
    ∃ i, decode w = .ok i ∧ ownsPort c i s = true ∧ exec i (latchRequest c w buf (noteIssue c i s)) = .next t := by
  unfold runCommand at h
  split at h
  · simp at h
  · rename_i i hd
    split at h
    · exact ⟨i, hd, ‹_›, h⟩
    · simp [breach] at h

/-- The host's own command is the next one where nothing else is. -/
theorem hostTurn_to {s t : State} {xs : List Stimulus} (h : hostTurn { s with inputs := xs } = .next t)
    (hx : xs <:+ s.inputs) (hn : ∀ w b more, due s = none → hung s = false → pendingSteps s = .cmd w b :: more →
      nextCommand s = some (running s, w, b)) : StepTo s t := by
  have hd : due { s with inputs := xs } = due s := rfl
  have hh : hung { s with inputs := xs } = hung s := rfl
  have hp : pendingSteps { s with inputs := xs } = pendingSteps s := rfl
  simp only [hostTurn, hd, hh, hp] at h
  split at h
  · rename_i c hc
    rw [next_eq_next] at h; subst h
    exact .start c xs (due_eq_some.mp hc) hx
  · rename_i hc
    split at h
    · rename_i hg
      rw [next_eq_next] at h; subst h
      exact .waits xs hc hg hx
    · rename_i hg
      have hg : hung s = false := by simpa using hg
      split at h
      · rename_i w b more hm
        rw [dropStep_eq] at h
        obtain ⟨i, h1, h2, h3⟩ := runCommand_next h
        exact .ownCommand w b more xs i t hc hg hm hx h1 ((ownsPort_host _ _ _ _ _).symm.trans h2) (hn w b more hc hg hm) h3
      · rename_i more hm
        rw [dropStep_eq] at h
        simp only [runHostAct, next_eq_next] at h; subst h
        exact .ownPend more xs hc hg hm hx
      · rename_i more hm
        rw [dropStep_eq, next_eq_next] at h; subst h
        exact .report more xs hc hg hm hx
      · rename_i hm
        rw [next_eq_next] at h; subst h
        exact .finish xs hc hg hm hx

theorem step_env {s : State} {m : EnvMove} {rest : List Stimulus} (h : s.inputs = .env m :: rest) :
    step s = .next (runMove m { s with inputs := rest }) := by
  simp [step, advance, h, ready, actor, runStimulus, enterActor]

/-- The host goes on by a turn, or because nothing waits. -/
theorem step_hostTurn {s : State} {rest : List Stimulus} (h : s.inputs = .turn :: rest ∨ s.inputs = [] ∧ rest = []) :
    step s = hostTurn { s with inputs := rest } := by
  rcases h with h | ⟨h, rfl⟩
  · simp [step, advance, h, ready, actor, runStimulus, enterActor]
  · have e : ({ s with inputs := [] } : State) = s := by rw [← h]
    rw [e]; simp [step, advance, h]

theorem step_to {s t : State} (h : step s = .next t) : StepTo s t := by
  have own : ∀ {w b more}, due s = none → hung s = false → pendingSteps s = .cmd w b :: more →
      ownCommand s = some (running s, w, b) := by
    intro w b more h1 h2 h3; simp [ownCommand, h1, h2, h3]
  match hi : s.inputs with
  | [] =>
    have : hostTurn { s with inputs := s.inputs } = .next t := by simpa [step, advance, hi] using h
    exact hostTurn_to this List.suffix_rfl fun w b more h1 h2 h3 => by simp only [nextCommand, hi]; exact own h1 h2 h3
  | .env m :: rest =>
    rw [step_env hi, next_eq_next] at h; subst h
    exact .move m rest hi
  | .turn :: rest =>
    have : hostTurn { s with inputs := rest } = .next t := by
      simpa [step, advance, hi, ready, actor, runStimulus, enterActor] using h
    exact hostTurn_to this (by rw [hi]; exact List.suffix_cons _ _)
      fun w b more h1 h2 h3 => by simp only [nextCommand, hi]; exact own h1 h2 h3
  | .cmd c w buf :: rest =>
    cases hr : mayAct c s with
    | true =>
      have : runCommand c w buf (enterContext c { s with inputs := rest }) = .next t := by
        simpa [step, advance, hi, ready, actor, hr, runStimulus, enterActor] using h
      rw [enterContext_eq] at this
      obtain ⟨i, h1, h2, h3⟩ := runCommand_next this
      exact .command c w buf rest i t hi hr h1 ((ownsPort_host _ _ _ _ _).symm.trans h2) h3
    | false =>
      have : hostTurn { s with inputs := s.inputs } = .next t := by
        simpa [step, advance, hi, ready, actor, hr] using h
      exact hostTurn_to this List.suffix_rfl fun w b more h1 h2 h3 => by
        simp only [nextCommand, hi, hr, Bool.false_eq_true, if_false]; exact own h1 h2 h3
  | .host a :: rest =>
    cases hr : ready (.host a) s with
    | true =>
      have : runHostAct a (enterActor (.host a) { s with inputs := rest }) = .next t := by
        simpa [step, advance, hi, hr, runStimulus] using h
      exact .act a rest t hi hr this
    | false =>
      have : hostTurn { s with inputs := s.inputs } = .next t := by
        simpa [step, advance, hi, hr] using h
      exact hostTurn_to this List.suffix_rfl fun w b more h1 h2 h3 => by
        simp only [nextCommand, hi, hr, Bool.false_eq_true, if_false]; exact own h1 h2 h3

theorem startHandler_eq (c : Context) (s : State) : ∃ h, startHandler c s = { s with host := h } := by
  cases c with
  | idle => exact ⟨s.host, rfl⟩
  | usb => exact ⟨_, rfl⟩
  | timer => exact ⟨_, rfl⟩
  | rtc => exact ⟨_, rfl⟩

/-- The RTC handler's look at the Configured input changes the host's side alone: the latch, and the steps to do. -/
theorem reportIfConfigured_eq (s : State) :
    reportIfConfigured s = { s with host := if s.host.configured then
      { s.host with latch := !s.host.latch, active := added (rtcReport (!s.host.latch)) s.host.active } else s.host } := by
  unfold reportIfConfigured
  split
  · rw [addSteps_eq]
  · rfl

theorem endHandler_eq (s : State) : ∃ h, endHandler s = { s with host := h } := by
  unfold endHandler; split
  · exact ⟨s.host, rfl⟩
  · exact ⟨_, rfl⟩

theorem enterActor_eq (x : Stimulus) (s : State) :
    enterActor x s = { s with host := { s.host with active := (match actor x with
      | some c => entered c s
      | none => s.host.active) } } := by
  unfold enterActor
  cases actor x with
  | some c => exact enterContext_eq c s
  | none => rfl

theorem runHostAct_eq {a : HostAct} {s t : State} (h : runHostAct a s = .next t) : ∃ k, t = { s with host := k } := by
  cases a with
  | lock c => simp only [runHostAct, breach] at h; split at h <;> simp at h; exact ⟨_, h.symm⟩
  | unlock c => simp only [runHostAct, breach] at h; split at h <;> simp at h; exact ⟨_, h.symm⟩
  | pendUsb => simp only [runHostAct, next_eq_next] at h; exact ⟨_, h⟩
  | rtcMatch => simp only [runHostAct, next_eq_next] at h; exact ⟨_, h⟩
  | setConfigured b => simp only [runHostAct, next_eq_next] at h; exact ⟨_, h⟩

/-- What a proof about the block needs of a step: a command runs on a state that differs only in what waits and who is at
work, the environment moves, or only the host changes. -/
theorem step_next_cases {s t : State} (h : step s = .next t) :
    (∃ c w buf i xs fs, nextCommand s = some (c, w, buf) ∧ decode w = .ok i ∧ ownsPort c i s = true ∧
      exec i (latchRequest c w buf (noteIssue c i { s with inputs := xs, host := { s.host with active := fs } })) =
        .next t) ∨
    (∃ m rest, s.inputs = .env m :: rest ∧ t = runMove m { s with inputs := rest }) ∨
    (∃ xs k, t = { s with inputs := xs, host := k }) := by
  cases step_to h with
  | move m rest hi => exact .inr (.inl ⟨m, rest, hi, rfl⟩)
  | command c w buf rest i _ hi hm hd ho he =>
    exact .inl ⟨c, w, buf, i, rest, _, by simp only [nextCommand, hi, hm, if_true], hd, ho, he⟩
  | ownCommand w buf more xs i _ _ _ _ _ hd ho hn he => exact .inl ⟨_, w, buf, i, xs, _, hn, hd, ho, he⟩
  | ownPend more xs => exact .inr (.inr ⟨xs, _, rfl⟩)
  | report more xs => rw [reportIfConfigured_eq]; exact .inr (.inr ⟨xs, _, rfl⟩)
  | start c xs => obtain ⟨k, hk⟩ := startHandler_eq c { s with inputs := xs }; exact .inr (.inr ⟨xs, k, hk⟩)
  | finish xs => obtain ⟨k, hk⟩ := endHandler_eq { s with inputs := xs }; exact .inr (.inr ⟨xs, k, hk⟩)
  | waits xs => exact .inr (.inr ⟨xs, s.host, rfl⟩)
  | act a rest _ hi hr he =>
    rw [enterActor_eq] at he
    obtain ⟨k, hk⟩ := runHostAct_eq he
    exact .inr (.inr ⟨rest, k, hk⟩)

end Sys2Proof.Safety
end

