-- ==== Sys2Proof/Tests/Slice0.lean ====
section
/-! SUPPORT. Tests with expected values from 95_test_vectors.md (the vector is named in each docstring), and for every
statement of `Certificates/Slice0/Obligations.lean` that has hypotheses a concrete state and operands that meet them. -/

namespace Sys2Proof.Tests

open Sys2Proof.Machine Sys2Proof.Safety

/-! ### Helpers -/

/-- One thing seen in the next state, none at a fault or a refusal. -/
def see {α : Type} (f : State → α) : Result → Option α
  | .next t => some (f t)
  | .fault _ => none
  | .refused _ => none

/-- The result word on the port. -/
def res (s : State) : Option Word := s.port.res

def isNext (r : Result) : Bool := (see (fun _ => ()) r).isSome

def isRefused (b : Breach) : Result → Bool
  | .refused (.hostProtocol c) => b == c
  | .refused _ => false
  | .next _ => false
  | .fault _ => false

theorem exists_next {r : Result} (h : isNext r = true) : ∃ t, r = .next t := by
  cases r with
  | next t => exact ⟨t, rfl⟩
  | fault f => exact nomatch h
  | refused f => exact nomatch h

/-- A waiting step that is not the move `m`. -/
theorem notMove {s : State} {x : Stimulus} {m : EnvMove} {rest : List Stimulus} (h : x ≠ .env m) :
    ¬ NextMove { s with inputs := [x] } m rest := fun e => h (List.cons.inj e).1

/-- A measurement of channel `ch` runs with count `cnt`. -/
def measuring (ch : Channel) (cnt : Half) : State :=
  { State.reset with
    cap := { ch := ch, phase := .measuring, mux := ch, ttRun := true, toRun := true, cnt := cnt, ovf := false } }

/-- A split queue of `n` zero frames, the oldest at `h`. -/
def queue (h : Fin 4) (n : Fin 5) : State :=
  { State.reset with
    q := { SampleQueue.reset with head := h, count := n, tail := h + Fin.ofNat 4 n.val, split := true } }

/-- A split queue under a measurement. -/
def measuringOn (ch : Channel) (cnt : Half) (n : Fin 5) : State := { queue 0 n with cap := (measuring ch cnt).cap }

/-- The USB unit with the given flags. -/
def usbWith (ints : BitVec 4) (pend : PerDir Bool) : State :=
  { State.reset with usb := { Usb.reset false ints with pend := pend } }

/-- A PHY that is on and ready. -/
def phyOn : Phy :=
  { oscsel := true, calen := true, clkrec := true, clksel := true, lpdis := true, phyen := true, clkrdy := true }

/-- V26's end: enabled and presented, flags clear, with a turnaround value of 5 as in program P2. -/
def live : State :=
  { State.reset with
    phy := phyOn
    usb := { Usb.reset true 0 with
      trdtim := 5, trdset := true, intm := 0xF, ginten := true, sftdiscon := false, linkOk := true, enStep := 15 } }

/-- USB.ENABLE holds at E4. -/
def hold4 : State :=
  { State.reset with
    phy := { Phy.reset false with oscsel := true, calen := true, clkrec := true }
    usb := { Usb.reset false 0xF with enBusy := true, enStep := 3 } }

/-- USB.ENABLE holds at E8. -/
def hold8 : State :=
  { State.reset with phy := phyOn, usb := { Usb.reset false 0xF with enBusy := true, enStep := 7 } }

/-- USB.ENABLE holds at E10. -/
def hold10 : State :=
  { State.reset with
    phy := phyOn
    usb := { Usb.reset true 0xF with csrst := true, enBusy := true, enStep := 9, enIssuer := .usb } }

/-- The bytes 11, 22, 33, 44, 55 (hex) of 95_test_vectors.md, section 2.6. -/
def buf5 : Memory := [(0, 0x11), (1, 0x22), (2, 0x33), (3, 0x44), (4, 0x55)]

/-- `s` with these bytes in BUF. -/
def withBuf (b : Memory) (s : State) : State := { s with port := { s.port with buf := b } }

/-- `s` with these words received. -/
def received (ws : List FifoWord) (s : State) : State := { s with usb := { s.usb with rxf := ws } }

/-- `s` with one next step. -/
def doing (x : Stimulus) (s : State) : State := { s with inputs := [x] }

/-- A timer-context command waiting. -/
def timerDoes (w : Word) (s : State) : State := doing (.cmd .timer w []) s

/-- `s` with these contexts at work. -/
def working (fs : List Activation) (s : State) : State := { s with host := { s.host with active := fs } }

/-- The safety timeout has passed in a measurement of A. -/
def overflowed : State := { measuring .A 160 with cap := { (measuring .A 160).cap with ovf := true } }

/-- A configured device whose RTC line is up. -/
def ticked : State := { live with host := { live.host with rtcFlag := true, configured := true } }

/-- The RTC handler after its drain, with the Configured input as it is now. -/
def drained (configured : Bool) : State :=
  { live with host := { live.host with configured := configured, active := [⟨.rtc, [.reportIfConfigured]⟩] } }

/-- The USB handler holds the lock and has no step of its own left. -/
def holder : State := { live with host := { live.host with usbLock := some .usb, active := [⟨.usb, []⟩] } }

/-- What a context at work is and still has to do. -/
def workOf (s : State) : List (Context × Nat) := s.host.active.map (fun a => (a.ctx, a.todo.length))

/-! ### Parameters (00_scope.md R4, R5) -/

theorem test_channels : (List.finRange Config.nch).map Channel.ofIndex = [.A, .B] ∧
    [Channel.A, .B].map succChannel = [.B, .A] := by decide

theorem test_parameters :
    ([Channel.A, .B].length = Config.nch ∧ Config.window = 16 ∧ Config.sampleBits = 16 ∧ Config.qcap = 4) ∧
    (Config.fifoBytes = 1536 ∧ Config.fifoWord = 4 ∧ Config.fifoWords = 384 ∧ Config.rxFifoWords = 384) ∧
    (Config.epMaxIndex = 3 ∧ Config.epCeil = 3 ∧ Config.addrBits = 7 ∧ Config.quirkAddrBeforeStatus = true) ∧
    [Context.idle, .usb, .timer, .rtc].map Context.prio = [0, 2, 3, 4] := by decide

/-! ### Well-formedness (30_encoding.md R60, R61) -/

theorem test_wf_regno : (Instr.sysRdreg 255).wf = true ∧ (Instr.sysRdreg 256).wf = false := by decide

theorem test_wf_alloc : (Instr.usbAlloc .inn 15).wf = true ∧ (Instr.usbAlloc .out 16).wf = false := by decide

theorem test_wf_write : (Instr.usbWrite .inn 15 65535).wf = true ∧ (Instr.usbWrite .inn 16 0).wf = false ∧
    (Instr.usbWrite .inn 0 65536).wf = false := by decide

theorem test_wf_read : (Instr.usbRead .out 15 65535).wf = true ∧ (Instr.usbRead .out 16 0).wf = false ∧
    (Instr.usbRead .out 0 65536).wf = false := by decide

theorem test_wf_setstall : (Instr.usbSetstall .inn 15 true).wf = true ∧ (Instr.usbSetstall .inn 16 true).wf = false := by
  decide

theorem test_wf_isstalled : (Instr.usbIsstalled .out 15).wf = true ∧ (Instr.usbIsstalled .out 16).wf = false := by decide

/-! ### Encoding (95_test_vectors.md, section 2.1) -/

/-- E1, E2, E3, E4. -/
theorem test_decode_capsense_system :
    decode 0x01000000 = .ok .capMeasure ∧ decode 0x02000000 = .ok .capCapture ∧ decode 0x04000000 = .ok .tmrAck ∧
    decode 0x0F000006 = .ok (.sysRdreg 6) := by decide

/-- E5, E6, E7. -/
theorem test_decode_filter :
    decode 0x200000A0 = .ok (.fltPush .A 160) ∧ decode 0x20011234 = .ok (.fltPush .B 0x1234) ∧
    decode 0x21010000 = .ok (.fltRaw .B) ∧ decode 0x22010000 = .ok (.fltMean .B) ∧
    decode 0x23010000 = .ok (.fltMax .B) := by decide

/-- E8. -/
theorem test_decode_queue :
    decode 0x30000000 = .ok .qSplit ∧ decode 0x31000000 = .ok .qEnq ∧ decode 0x32000000 = .ok .qDeq ∧
    decode 0x33000000 = .ok .qLen := by decide

/-- E9, E10, E13, E14, E15. -/
theorem test_decode_usb_control :
    decode 0x40000000 = .ok .usbEnable ∧ decode 0x41000000 = .ok .usbReset ∧ decode 0x48000000 = .ok .usbPoll ∧
    decode 0x42000000 = .ok (.usbAlloc .out 0) ∧ decode 0x42800000 = .ok (.usbAlloc .inn 0) ∧
    decode 0x42810000 = .ok (.usbAlloc .inn 1) ∧ decode 0x45000005 = .ok (.usbSetaddr 5) ∧
    decode 0x46800001 = .ok (.usbSetstall .inn 0 true) ∧ decode 0x46000001 = .ok (.usbSetstall .out 0 true) ∧
    decode 0x47010000 = .ok (.usbIsstalled .out 1) := by decide

/-- E11, E12, and the odd but legal 0x430F0005 and 0x450000FF. -/
theorem test_decode_usb_fifo :
    decode 0x43800005 = .ok (.usbWrite .inn 0 5) ∧ decode 0x44000006 = .ok (.usbRead .out 0 6) ∧
    decode 0x430F0005 = .ok (.usbWrite .out 15 5) ∧ decode 0x450000FF = .ok (.usbSetaddr 0xFF) := by decide

/-- The ten reserved words. -/
theorem test_decode_reserved :
    [0x00000000, 0x03000000, 0x01000001, 0x20021234, 0x42100000, 0x45000105, 0x46000002, 0x0F800006, 0x49000000,
      0xFFFFFFFF].all (fun w => (decode w).toOption == none) = true := by decide

/-- A listed opcode with a bad bit and an unlisted opcode are refused under different names. -/
theorem test_decode_errors : decode 0x01000001 = .error (.reservedBits 0x01) ∧
    decode 0x49000000 = .error (.reservedOpcode 0x49) := by decide

theorem test_decodeTable : decodeTableWord 32 0x43800005 = some (.usbWrite .inn 0 5) ∧
    decodeTableWord 40 0x0143800005 = none := by decide

/-- The twenty-one match patterns each select their own row and no other. -/
theorem test_map_rows : opcodeMap.length = 21 ∧
    opcodeMap.all (fun r => (opcodeMap.filter (fun p => p.selects r.pattern)).map OpcodeRow.mnemonic == [r.mnemonic]) =
      true := by decide

/-- A word placed where the step takes its next instruction runs first after reset (log 1). -/
theorem test_withFetchWord : see regCapStat (step (State.reset.withFetchWord 32 0x01000000)) = some 0x32 := by decide

/-! ### Capsense (section 2.2) -/

/-- V1. -/
theorem test_measure : see regCapStat (exec .capMeasure State.reset) = some 0x32 ∧
    see res (exec .capMeasure State.reset) = some (some 0x00000000) := by decide

/-- V5. -/
theorem test_measure_twice : isRefused .measureOutsideIdle (exec .capMeasure (measuring .A 3)) = true := by decide

/-- V2. -/
theorem test_capture_A :
    see (fun t => (t.flt.a.hist.get 0, t.flt.a.cur, t.flt.a.mean, t.flt.a.max, regCapStat t, regCapCnt t, regQStat t))
      (exec .capCapture (measuring .A 300)) = some (300, 1, 18, 300, 0x01, 300, 0) := by decide

/-- V8a: the frame is dropped silently. -/
theorem test_capture_B_full :
    see (fun t => (t.flt.b.mean, t.q.count, res t, t.q.slot.toList.all (fun f => f.b.max == 0), t.cap.ch))
      (exec .capCapture (measuringOn .B 300 4)) = some (18, 4, some 0, true, .A) := by decide

/-- V3. -/
theorem test_capture_B_frame :
    see (fun t => (t.flt.b.max, t.q.count, (t.q.slot.get 0).a.mean, (t.q.slot.get 0).b.mean, (t.q.slot.get 0).b.cur))
      (exec .capCapture (measuringOn .B 300 0)) = some (300, 1, 0, 18, 1) := by decide

/-- V6. -/
theorem test_ack : see irqTmr (exec .tmrAck { State.reset with cap := { Capsense.reset with ovf := true } }) =
    some false := by decide

/-- V7 and V8. -/
theorem test_tick : see regCapCnt (step (doing (.env .tick) (measuring .A 65535))) = some 0 ∧
    see regCapCnt (step (doing (.env .tick) State.reset)) = some 0 ∧
    see irqTmr (step (doing (.env .timeout) State.reset)) = some false := by decide

/-! ### Filters (section 2.3) -/

/-- V18a, and V11's narrowing: the mean of sixteen largest samples does not wrap. -/
theorem test_push : see (fun t => (t.flt.a.mean, t.flt.a.max, t.flt.a.cur, t.flt.b.mean))
      (exec (.fltPush .A 160) State.reset) = some (10, 160, 1, 0) ∧
    windowMean (Vector.replicate 16 65535) = 65535 := by decide

/-- V12: the last value pushed, not the slot at the cursor. -/
theorem test_raw : see res (exec (.fltRaw .A)
    { State.reset with flt := ⟨(FilterState.reset.push 7).push 9, FilterState.reset⟩ }) = some (some 9) := by decide

/-- V16a. -/
theorem test_mean : see res (exec (.fltMean .B)
    { State.reset with flt := ⟨FilterState.reset, (FilterState.reset.push 15).push 1⟩ }) = some (some 1) := by decide

/-- V18: the maximum does not follow the last push. -/
theorem test_max : see res (exec (.fltMax .B)
    { State.reset with flt := ⟨FilterState.reset, (FilterState.reset.push 900).push 3⟩ }) = some (some 900) := by decide

/-! ### Queue (section 2.4) -/

/-- V19, V23. -/
theorem test_split : see regQStat (exec .qSplit State.reset) = some 0x08 ∧
    isRefused .secondSplit (exec .qSplit (queue 0 0)) = true := by decide

/-- V21's fifth enqueue: QueueFull with the 76 bytes of the frame handed back. -/
theorem test_enq_full : see (fun t => (res t, t.port.data.length, regQStat t)) (exec .qEnq (queue 0 4)) =
    some (some 0x50000000, 76, 0x0C) := by decide

/-- V25's last enqueue. -/
theorem test_enq_wraps : see regQStat (exec .qEnq (queue 3 2)) = some 0xBB := by decide

/-- P1's delivered frame: its first and its last bytes. -/
theorem test_deq_frame :
    see (fun t => (res t, t.port.data.take 4, t.port.data.drop 70, t.q.count)) (exec .qDeq
      { queue 0 1 with q := { (queue 0 1).q with
        slot := Vector.replicate 4 ⟨FilterState.reset.push 160, FilterState.reset.push 320⟩ } }) =
      some (some 0, [0xA0, 0, 0, 0], [0x01, 0x00, 0x14, 0x00, 0x40, 0x01], 0) := by decide

/-- V22's fifth, and V20. -/
theorem test_deq_empty : see res (exec .qDeq (queue 2 0)) = some (some 0x60000000) ∧
    isRefused .dequeueBeforeSplit (exec .qDeq State.reset) = true := by decide

/-- V21's last. -/
theorem test_len : see res (exec .qLen (queue 0 4)) = some (some 0x00000004) := by decide

/-! ### USB control (section 2.5) -/

/-- V26a. -/
theorem test_enable_holds_at_E4 :
    see (fun t => (regPhyCtrl t, regEnStat t, res t)) (exec .usbEnable State.reset) = some (0x07, 0x13, none) := by
  decide

/-- V26b. -/
theorem test_enable_holds_at_E10 :
    see (fun t => (regPhyCtrl t, regEnStat t, regCoreRst t)) (exec .usbEnable (State.resetWith true true 0xF)) =
      some (0x3F, 0x19, 0x80000001) := by decide

/-- V26: the last move completes the command. -/
theorem test_enable_completes :
    see (fun t => (res t, regPhyCtrl t, regCoreRst t, regEnStat t)) (step (doing (.env .crstdone) hold10)) =
      some (some 0, 0x3F, 0x80000000, 0x0F) ∧
    see (fun t => (regIntSts t, regIntMsk t, regCoreCtl t, presented t)) (step (doing (.env .crstdone) hold10)) =
      some (0, 0x0F, 0x01, true) := by decide

/-- V28's moves one by one: E4's hold goes on to E8's; a move not waited for only sets its bit. -/
theorem test_readiness :
    see (fun t => (regPhyCtrl t, regPhyStat t, regEnStat t)) (step (doing (.env .clkrdy) hold4)) = some (0x3F, 1, 0x17) ∧
    see (fun t => (regEnStat t, regCoreRst t)) (step (doing (.env .ahbidle) hold8)) = some (0x19, 0x80000001) ∧
    see (fun t => (regEnStat t, regCoreRst t)) (step (doing (.env .ahbidle) hold4)) = some (0x13, 0x80000000) := by decide

/-- V34: the interface counter, the flags and the core control stay. -/
theorem test_reset_session :
    see (fun t => (regDrvStat t, regIntSts t, regFifoStat t, regDevAddr t, regEp0Ctl t, regEp0Rxsize t, regCoreCtl t))
      (exec .usbReset { live with usb := { live.usb with
        addr := 5, stall := ⟨false, true⟩, txf := [1, 2], rxf := [3], rxsize := 3, pend := ⟨false, true⟩, ints := 0xC,
        ctrlAlloc := ⟨true, true⟩, next := ⟨0, 2⟩ } }) = some (0x20, 0xC, 0, 0, 0, 0, 1) := by decide

/-- V27: first control allocation and a served request "3". -/
theorem test_alloc : see res (exec (.usbAlloc .inn 0) State.reset) = some (some 0x00000080) ∧
    see res (exec (.usbAlloc .out 3) State.reset) = some (some 0x00000001) := by decide

/-- V27: AlreadyAllocated and CapacityExceeded. -/
theorem test_alloc_errors :
    see res (exec (.usbAlloc .inn 0)
      { State.reset with usb := { State.reset.usb with ctrlAlloc := ⟨false, true⟩ } }) = some (some 0x40000000) ∧
    see res (exec (.usbAlloc .inn 1)
      { State.reset with usb := { State.reset.usb with next := ⟨0, 3⟩ } }) = some (some 0x20000000) := by decide

/-- V29. -/
theorem test_setaddr : see regDevAddr (exec (.usbSetaddr 0x85) State.reset) = some 5 := by decide

/-- V30, V32. -/
theorem test_setstall : see regEp0Ctl (exec (.usbSetstall .inn 0 true) State.reset) = some 2 ∧
    see regEp0Ctl (exec (.usbSetstall .inn 2 true) State.reset) = some 0 := by decide

/-- V30, V32. -/
theorem test_isstalled : see res (exec (.usbIsstalled .out 0) State.reset) = some (some 0) ∧
    see res (exec (.usbIsstalled .inn 2) State.reset) = some (some 1) := by decide

/-- V33d: one Reset; the endpoint-0 flag and the pending flag stay. -/
theorem test_poll_reset : see (fun t => (res t, regIntSts t, t.usb.pend.inn)) (exec .usbPoll (usbWith 0x9 ⟨false, true⟩)) =
    some (some 1, 0x08, true) := by decide

/-- V33c: no event; the interrupt line stays high. -/
theorem test_poll_none :
    see (fun t => (res t, regIntSts t, t.usb.pend.inn, irqUsb t))
      (exec .usbPoll { live with usb := { live.usb with ints := 0xC, pend := ⟨false, true⟩ } }) =
      some (some 0, 0x0C, false, true) := by decide

/-! ### USB transfers (section 2.6) -/

/-- V40. -/
theorem test_write : see (fun t => (res t, t.usb.txf, t.usb.pend.inn)) (exec (.usbWrite .inn 0 5) (withBuf buf5 live)) =
    some (some 0x00000005, [0x44332211, 0x00000055], true) := by decide

/-- V36, V44, V44a. -/
theorem test_write_errors : see res (exec (.usbWrite .inn 0 0) live) = some (some 0x30000000) ∧
    see res (exec (.usbWrite .inn 1 1) live) = some (some 0x10000000) ∧
    see res (exec (.usbWrite .out 0 0) live) = some (some 0x10000000) := by decide

/-- V46. -/
theorem test_read : see (fun t => (res t, Memory.readBytes t.port.buf 7, t.usb.rxf))
    (exec (.usbRead .out 0 6) (received [0x44332211, 0xAABBCCDD] live)) =
      some (some 0x00000006, [0x11, 0x22, 0x33, 0x44, 0xDD, 0xCC, 0], []) := by decide

/-- V49, V50. -/
theorem test_read_errors : see res (exec (.usbRead .out 0 0) live) = some (some 0x30000000) ∧
    see res (exec (.usbRead .inn 0 4) live) = some (some 0x10000000) ∧
    see res (exec (.usbRead .out 2 4) live) = some (some 0x10000000) := by decide

/-- V53, V55, V56. -/
theorem test_bus_reset :
    see (fun t => (regIntSts t, irqUsb t)) (step (doing (.env .busReset) live)) = some (0x01, true) ∧
    see regIntSts (step (doing (.env .busEnumdone) live)) = some 0 ∧
    see regIntSts (step (doing (.env .busReset) State.reset)) = some 0 := by decide

/-- V45a: the oldest word leaves; V54: enumeration done follows a reset seen. -/
theorem test_bus_enabled :
    see (fun t => (t.usb.txf, regIntSts t)) (step (doing (.env (.busIn 0 1))
      { live with usb := { live.usb with txf := [0xE2, 7] } })) = some ([7], 4) ∧
    see (fun t => (regIntSts t, t.bus.resetSeen)) (step (doing (.env .busEnumdone)
      { live with bus := ⟨true⟩, usb := { live.usb with ints := 1 } })) = some (0x03, false) := by decide

/-- V57, and V58 with a stalled direction. -/
theorem test_bus_transfers :
    see (fun t => (t.usb.rxf.length, regEp0Rxsize t, regIntSts t))
      (step (doing (.env (.busOut 0 [0x04030201, 0x00000005] 5)) live)) = some (2, 5, 8) ∧
    see regIntSts (step (doing (.env (.busIn 0 1))
      { live with usb := { live.usb with txf := [7], stall := ⟨false, true⟩ } })) = some 0 := by decide

/-! ### System (section 2.7) -/

/-- V60, V62. -/
theorem test_rdreg :
    see (fun t => (res t, t.port.data)) (exec (.sysRdreg 0x06) live) = some (some 1, [0x01, 0x00, 0x00, 0x00]) ∧
    see (fun t => (res t, t.port.data)) (exec (.sysRdreg 0x02) live) = some (some 0, [0x00, 0x00, 0x00, 0x80]) := by
  decide

/-- V63: an undefined number has no register behind it; V64: a read clears no flag. -/
theorem test_rdreg_undefined : isNext (exec (.sysRdreg 0x0E) live) = false ∧ isNext (exec (.sysRdreg 0x13) live) = false ∧
    see (fun t => (res t, regIntSts t)) (exec (.sysRdreg 0x04) (usbWith 1 ⟨false, false⟩)) = some (some 1, 1) := by decide

/-! ### Host contract (60_exceptions.md R184 to R188, program P3) -/

/-- The timer's port is not the Idle task's. -/
theorem test_not_owner : isRefused .notOwner (step (doing (.cmd .idle 0x02000000 []) (measuring .A 1))) = true := by decide

/-- R179, R180: the timeout's handler starts before the waiting command, with the steps of `TIMER_ISR`. -/
theorem test_handler_starts :
    see workOf (step (doing (.cmd .idle 0x33000000 []) overflowed)) = some [(.timer, 4)] ∧
    see (fun t => t.inputs.length) (step (doing (.cmd .idle 0x33000000 []) overflowed)) = some 1 := by decide

/-- R178, R179: the RTC preempts the timer's handler between two of its commands. -/
theorem test_rtc_preempts :
    see workOf (step (doing .turn (working [⟨.timer, timerIsr.tail⟩] ticked))) = some [(.rtc, 2), (.timer, 3)] := by decide

/-- R179, R182: equal or lower priority does not preempt; a line still up at a handler's end is due again. -/
theorem test_no_self_preemption : due (working [⟨.timer, []⟩] overflowed) = none ∧
    see due (step (doing .turn (working [⟨.timer, []⟩] overflowed))) = some (some .timer) := by decide

/-- R185: the handler's first step is TMR.ACK, its last the pend of the USB handler. -/
theorem test_timer_isr :
    see irqTmr (step (doing .turn (working [⟨.timer, timerIsr⟩] overflowed))) = some false ∧
    see (fun t => (t.host.usbPend, workOf t)) (step (doing .turn (working [⟨.timer, [.pendUsb]⟩] live))) =
      some (true, [(.timer, 0)]) := by decide

/-- R174: the issuer of a held USB.ENABLE is blocked, a context above it is not. -/
theorem test_issuer_blocked : mayAct .idle hold4 = false ∧ mayAct .timer hold4 = true ∧
    see (fun t => t.inputs.length) (step (doing (.cmd .idle 0x33000000 []) hold4)) = some 1 ∧
    see (fun t => (running t, t.inputs.length)) (step (timerDoes 0x01000000 hold4)) = some (.timer, 0) := by decide

/-- R181: nothing starts and no other context acts under the lock. -/
theorem test_lock : due { ticked with host := { ticked.host with usbLock := some .idle } } = none ∧
    mayAct .timer { live with host := { live.host with usbLock := some .idle } } = false ∧
    see (fun t => t.host.usbLock) (step (doing (.host (.lock .usb)) live)) = some (some .usb) ∧
    isRefused .lockDiscipline (step (doing (.host (.unlock .usb)) live)) = true := by decide

/-- R39. -/
theorem test_session_phase : sessionPhase State.reset = .detached ∧ sessionPhase live = .default ∧
    sessionPhase { live with usb := { live.usb with addr := 5 } } = .addressed := by decide

/-- R186: the Configured input counts after the drain; set then, the latch flips and report and pend follow. -/
theorem test_rtc_looks_after_drain :
    see (fun t => (t.host.latch, workOf t)) (step (doing .turn (drained true))) = some (true, [(.rtc, 2)]) ∧
    see (fun t => (t.host.latch, workOf t)) (step (doing .turn (drained false))) = some (false, [(.rtc, 0)]) := by decide

/-- P3's first report: two bytes, E2 then 00, one word 0x000000E2. -/
theorem test_report : see (fun t => (res t, t.usb.txf))
    (exec (.usbWrite .inn 0 2) (withBuf (hidReport Config.usageKeyDown) live)) =
      some (some 0x00000002, [0x000000E2]) := by decide

/-! ### The hypotheses of the statements are met

One theorem per statement with hypotheses, named after it; one part per clause, boundary values where a clause has a
range. -/

theorem witness_DecodeOfEncode : (Instr.usbWrite .inn 15 65535).wf = true ∧ (Instr.sysRdreg 255).wf = true ∧
    (Instr.usbAlloc .out 0).wf = true := by decide

theorem witness_EncodeOfDecode : decode 0x4400FFFF = .ok (.usbRead .out 0 65535) ∧
    decode 0x0F0000FF = .ok (.sysRdreg 255) := by decide

theorem witness_WordsOffTheMapAreReserved :
    (∃ r ∈ opcodeMap, (0x48000000 : Word) &&& r.mask = r.pattern) ∧
    (∀ r ∈ opcodeMap, (0x48000001 : Word) &&& r.mask ≠ r.pattern) := by decide

/-- The three cases of what a command records about its port; a handler's own command; a reserved word; a command on
another's port. -/
theorem witness_StepRunsTheDecodedCommand :
    (decode 0x01000000 = .ok .capMeasure ∧ ownsPort .idle .capMeasure (doing (.cmd .idle 0x01000000 []) State.reset) = true ∧
      mayAct .idle (doing (.cmd .idle 0x01000000 []) State.reset) = true) ∧
    (decode 0x32000000 = .ok .qDeq ∧ ownsPort .idle .qDeq (doing (.cmd .idle 0x32000000 []) (queue 0 1)) = true ∧
      mayAct .idle (doing (.cmd .idle 0x32000000 []) (queue 0 1)) = true) ∧
    (decode 0x43800005 = .ok (.usbWrite .inn 0 5) ∧
      ownsPort .usb (.usbWrite .inn 0 5) (doing (.cmd .usb 0x43800005 buf5) live) = true ∧
      mayAct .usb (doing (.cmd .usb 0x43800005 buf5) live) = true) ∧
    (decode 0x48000000 = .ok .usbPoll ∧ ownsPort .usb .usbPoll (doing .turn (working [⟨.usb, usbIsr⟩] live)) = true ∧
      NoneDue (doing .turn (working [⟨.usb, usbIsr⟩] live)) ∧ hung (doing .turn (working [⟨.usb, usbIsr⟩] live)) = false ∧
      (doing .turn (working [⟨.usb, usbIsr⟩] live)).host.active = [⟨.usb, [.cmd 0x48000000 []]⟩]) ∧
    ((∀ i, decode 0x49000000 ≠ .ok i) ∧ mayAct .idle (doing (.cmd .idle 0x49000000 []) State.reset) = true) ∧
    (decode 0x31000000 = .ok .qEnq ∧ ownsPort .idle .qEnq (doing (.cmd .idle 0x31000000 []) State.reset) = false ∧
      mayAct .idle (doing (.cmd .idle 0x31000000 []) State.reset) = true) :=
  ⟨by decide, by decide, by decide, ⟨by decide, by decide, due_eq_none.mp (by decide), by decide, by decide⟩,
    ⟨fun _ h => (nomatch (show Except.error (DecodeError.reservedOpcode 0x49) = .ok _ from h)), by decide⟩, by decide⟩

/-- A state whose consumer port is the Idle context's and whose USB lock is the RTC context's. -/
def owned : State := { queue 0 1 with host := { State.reset.host with boot := false, consumer := some .idle, usbLock := some .rtc } }

/-- The four refusals, then the seven ways to be admitted. -/
theorem witness_PortsBelongToTheirOwners :
    (decode 0x31000000 = .ok .qEnq ∧ Context.idle ≠ .timer) ∧
    (decode 0x01000000 = .ok .capMeasure ∧ owned.host.boot = false) ∧
    (decode 0x32000000 = .ok .qDeq ∧ owned.host.consumer = some .idle ∧ Context.idle ≠ .usb) ∧
    (decode 0x48000000 = .ok .usbPoll ∧ (Instr.usbPoll).isUsb = true ∧ owned.host.usbLock = some .rtc ∧
      Context.rtc ≠ .usb) ∧
    (decode 0x20011234 = .ok (.fltPush .B 0x1234) ∧ State.reset.host.boot = true ∧ State.reset.host.consumer = none ∧
      State.reset.host.usbLock = none ∧ decode 0x33000000 = .ok .qLen ∧ decode 0x30000000 = .ok .qSplit ∧
      decode 0x23010000 = .ok (.fltMax .B) ∧ decode 0x0F0000FF = .ok (.sysRdreg 255)) :=
  ⟨by decide, by decide, by decide, by decide, by decide⟩

theorem witness_MeasureStartsTheActiveChannel : State.reset.cap.phase = .idle ∧
    (measuring .B 0).cap.phase ≠ .idle := by decide

/-- Both clauses. -/
theorem witness_CaptureOfAPushesTheSample : ((measuring .A 65535).cap.phase = .measuring ∧
    (measuring .A 65535).cap.ch = .A) ∧ State.reset.cap.phase ≠ .measuring := by decide

/-- Three frames and four frames held; an unsplit queue. -/
theorem witness_CaptureOfBEnqueuesOrDropsTheFrame :
    ((measuringOn .B 0 3).cap.phase = .measuring ∧ (measuringOn .B 0 3).cap.ch = .B ∧
      (measuringOn .B 0 3).q.split = true ∧ (measuringOn .B 0 3).q.count.val < 4) ∧
    ((measuringOn .B 0 4).cap.phase = .measuring ∧ (measuringOn .B 0 4).cap.ch = .B ∧
      (measuringOn .B 0 4).q.split = true ∧ (measuringOn .B 0 4).q.count.val = 4) ∧
    ((measuring .B 1).cap.phase = .measuring ∧ (measuring .B 1).cap.ch = .B ∧ (measuring .B 1).q.split = false) := by
  decide

/-- A PHY whose oscillator is selected and whose clock is not ready, USB.ENABLE not running. -/
def selected : State := { State.reset with phy := { Phy.reset false with oscsel := true } }

/-- The moves in turn: timers running and stopped; CLKRDY disabled, outside a hold, at its hold with the AHB master busy and
idle; AHBIDLE disabled, outside a hold, at its hold; CRSTDONE disabled. -/
theorem witness_TimerAndReadinessMoves :
    (EnableInv (doing (.env .tick) (measuring .A 65535)) ∧ NextMove (doing (.env .tick) (measuring .A 65535)) .tick [] ∧
      (measuring .A 65535).cap.ttRun = true) ∧
    (EnableInv (doing (.env .timeout) State.reset) ∧ NextMove (doing (.env .timeout) State.reset) .timeout [] ∧
      State.reset.cap.toRun = false) ∧
    (EnableInv (doing (.env .clkrdy) selected) ∧ NextMove (doing (.env .clkrdy) selected) .clkrdy [] ∧
      State.reset.phy.oscsel = false ∧ live.phy.clkrdy = true ∧
      selected.phy.oscsel = true ∧ selected.phy.clkrdy = false ∧ ¬ (selected.usb.enBusy = true ∧ selected.usb.enStep = 3) ∧
      hold4.phy.oscsel = true ∧ hold4.phy.clkrdy = false ∧ hold4.usb.enBusy = true ∧ hold4.usb.enStep = 3 ∧
      EnableInv hold4 ∧ hold4.usb.ahbidle = false ∧
      EnableInv { hold4 with usb := { hold4.usb with ahbidle := true } }) ∧
    (EnableInv (doing (.env .ahbidle) hold8) ∧ NextMove (doing (.env .ahbidle) hold8) .ahbidle [] ∧
      live.usb.ahbidle = true ∧ EnableInv live ∧ hold4.usb.ahbidle = false ∧
      ¬ (hold4.usb.enBusy = true ∧ hold4.usb.enStep = 7) ∧ hold8.usb.ahbidle = false ∧ hold8.usb.enBusy = true ∧
      hold8.usb.enStep = 7) ∧
    (EnableInv (doing (.env .crstdone) live) ∧ NextMove (doing (.env .crstdone) live) .crstdone [] ∧
      live.usb.csrst = false) := by
  unfold EnableInv NextMove
  repeat' apply And.intro
  all_goals decide

theorem witness_CapturesAlternate : (queue 0 4).cap.phase = .idle ∧ (queue 0 4).cap.ch = .A ∧
    (queue 0 4).q.split = true := by decide

/-- Sixteen pushes; fifteen pushes from reset. -/
theorem witness_MeanAndMaximumOfPushes : 16 ≤ (List.replicate 16 (65535 : Half)).length ∧
    (List.replicate 15 (65535 : Half)).length < 16 ∧ State.reset.flt.get .B = FilterState.reset := by decide

theorem witness_MaximumNeverDecays :
    (∃ t, step (timerDoes 0x2000FFFF State.reset) = .next t) ∧
    ∀ c a n rest, (timerDoes 0x2000FFFF State.reset).inputs ≠ .env (.hardwareReset c a n) :: rest :=
  ⟨exists_next (by decide), fun _ _ _ _ => nofun⟩

theorem witness_SplitHappensOnce : State.reset.q.split = false ∧ (queue 0 0).q.split = true := by decide

theorem witness_EnqueueAppendsASnapshot : ((queue 3 3).q.split = true ∧ (queue 3 3).q.count.val < 4) ∧
    ((queue 3 4).q.split = true ∧ (queue 3 4).q.count.val = 4) ∧ State.reset.q.split = false := by decide

theorem witness_DequeueDeliversTheHead : ((queue 3 1).q.split = true ∧ 0 < (queue 3 1).q.count.val) ∧
    ((queue 3 0).q.split = true ∧ (queue 3 0).q.count.val = 0) ∧ State.reset.q.split = false := by decide

/-- The three clauses in turn. -/
theorem witness_RingIsAFifo :
    (QueueInv (queue 3 3) ∧ (queue 3 3).q.count.val < 4 ∧ ∃ t, exec .qEnq (queue 3 3) = .next t) ∧
    (QueueInv (queue 3 4) ∧ (queue 3 4).q.count.val = 4 ∧ ∃ t, exec .qEnq (queue 3 4) = .next t) ∧
    (QueueInv (queue 3 1) ∧ (queue 3 1).q.frames = [⟨FilterState.reset, FilterState.reset⟩] ∧
      ∃ t, exec .qDeq (queue 3 1) = .next t) :=
  ⟨⟨by unfold QueueInv; decide, by decide, exists_next (by decide)⟩,
    ⟨by unfold QueueInv; decide, by decide, exists_next (by decide)⟩,
    ⟨by unfold QueueInv; decide, by decide, exists_next (by decide)⟩⟩

theorem witness_FifthEnqueueFails : (queue 3 0).q.split = true ∧ (queue 3 0).q.count = 0 := by decide

theorem witness_FrameBytesAreFaithful : (snapshot (measuring .A 1)).bytes = (snapshot State.reset).bytes := by decide

/-- The clauses in turn: busy; then CLKRDY 0; CLKRDY 1 and AHBIDLE 0; both 1. -/
theorem witness_EnableRunsToItsFirstWait : hold4.usb.enBusy = true ∧
    (State.reset.usb.enBusy = false ∧ State.reset.phy.clkrdy = false) ∧
    ((State.resetWith true false 0xF).usb.enBusy = false ∧ (State.resetWith true false 0xF).phy.clkrdy = true ∧
      (State.resetWith true false 0xF).usb.ahbidle = false) ∧
    (live.usb.enBusy = false ∧ live.phy.clkrdy = true ∧ live.usb.ahbidle = true) := by decide

theorem witness_EnableCompletesAfterTheCoreReset :
    NextMove (doing (.env .crstdone) hold10) .crstdone [] ∧ hold10.usb.enBusy = true ∧ hold10.usb.enStep = 9 ∧
    hold10.usb.csrst = true := by unfold NextMove; decide

theorem witness_EnableCompletesOnWorkingSilicon :
    ∀ n, (State.resetWith false false n).usb.enBusy = false ∧ (State.resetWith false false n).usb.csrst = false ∧
      mayAct .idle { State.resetWith false false n with inputs :=
        [.cmd .idle 0x40000000 [], .env .clkrdy, .env .ahbidle, .env .crstdone] } = true ∧
      ownsPort .idle .usbEnable (State.resetWith false false n) = true ∧
      ({ State.resetWith false false n with inputs :=
        [.cmd .idle 0x40000000 [], .env .clkrdy, .env .ahbidle, .env .crstdone] } : State).inputs =
        .cmd .idle 0x40000000 [] :: .env .clkrdy :: .env .ahbidle :: .env .crstdone :: [] :=
  fun _ => ⟨rfl, rfl, rfl, rfl, rfl⟩

/-- The three clauses in turn, each with a move that is not the one that lifts the hold. -/
theorem witness_HoldIsLiftedOnlyByItsMove :
    ∀ s ∈ [hold4, hold8, hold10], EnableInv (doing (.env .tick) s) ∧ s.usb.enBusy = true ∧
      (∃ t, step (doing (.env .tick) s) = .next t) ∧
      (∀ m rest, m ≠ .tick → ¬ NextMove (doing (.env .tick) s) m rest) ∧
      (s.usb.enStep = 3 ∨ s.usb.enStep = 7 ∨ s.usb.enStep = 9) := by
  intro s hs
  refine ⟨?_, ?_, exists_next ?_, ?_, ?_⟩
  · unfold EnableInv; revert s; decide
  · revert s; decide
  · revert s; decide
  · intro m rest hm h
    simp only [NextMove, doing, List.cons.injEq, Stimulus.env.injEq] at h
    exact hm h.1.symm
  · revert s; decide

theorem witness_HoldRefusesUsbCommands : hold8.usb.enBusy = true ∧ (Instr.usbPoll).isUsb = true ∧
    readRegister 0x12 hold8 = some 0 := by decide

/-- For the single-step USB statements, whose hypothesis is that no USB.ENABLE holds: UsbResetClearsTheSession,
SetAddressTakesSevenBits, StallBitsServeEndpointZero. -/
theorem witness_usb_free : live.usb.enBusy = false ∧ State.reset.usb.enBusy = false := by decide

/-- The USB unit with these allocation bits and counters. -/
def allocated (ctrl : PerDir Bool) (next : PerDir (Fin 4)) : State :=
  { State.reset with usb := { State.reset.usb with ctrlAlloc := ctrl, next := next } }

/-- The four clauses in turn; the counter at 0, at 2 and at 3. -/
theorem witness_AllocGivesSequentialEndpoints :
    ((allocated ⟨true, false⟩ ⟨0, 0⟩).usb.enBusy = false ∧ (allocated ⟨true, false⟩ ⟨0, 0⟩).usb.ctrlAlloc.get .inn = false) ∧
    ((allocated ⟨true, false⟩ ⟨0, 0⟩).usb.enBusy = false ∧ (allocated ⟨true, false⟩ ⟨0, 0⟩).usb.ctrlAlloc.get .out = true) ∧
    ((allocated ⟨true, false⟩ ⟨2, 0⟩).usb.enBusy = false ∧ (1 : Nat) ≠ 0 ∧
      (allocated ⟨true, false⟩ ⟨2, 0⟩).usb.next.get .inn = 0 ∧ (allocated ⟨true, false⟩ ⟨2, 0⟩).usb.next.get .out = 2 ∧
      (2 : Fin 4).val < 3) ∧
    ((allocated ⟨true, false⟩ ⟨2, 3⟩).usb.enBusy = false ∧ (15 : Nat) ≠ 0 ∧
      ((allocated ⟨true, false⟩ ⟨2, 3⟩).usb.next.get .inn).val = 3) := ⟨by decide, by decide, by decide, by decide⟩

theorem witness_CountersNeverDecrease :
    (∃ t, step (doing (.cmd .idle 0x42810000 []) State.reset) = .next t ∧ t.usb.next ≠ State.reset.usb.next) ∧
    ∀ c a n rest, ¬ NextMove (doing (.cmd .idle 0x42810000 []) State.reset) (.hardwareReset c a n) rest :=
  ⟨⟨_, rfl, by decide⟩, fun _ _ _ _ => notMove nofun⟩

/-- Both clauses: a reset flag alone, and endpoint-0 flags alone. -/
theorem witness_PollReportsOneReset : (usbWith 0x1 ⟨false, true⟩).usb.enBusy = false ∧
    (usbWith 0x1 ⟨false, true⟩).usb.ints.getLsbD 0 = true ∧ (usbWith 0x2 ⟨false, true⟩).usb.ints.getLsbD 1 = true ∧
    (usbWith 0xC ⟨false, true⟩).usb.ints.getLsbD 0 = false ∧ (usbWith 0xC ⟨false, true⟩).usb.ints.getLsbD 1 = false := by
  decide

theorem witness_EndpointFlagsAreNeverAcknowledged :
    EnableInv (doing (.cmd .usb 0x48000000 []) (usbWith 0xC ⟨false, false⟩)) ∧
    (usbWith 0xC ⟨false, false⟩).usb.ints.getLsbD 2 = true ∧ (usbWith 0xC ⟨false, false⟩).usb.ints.getLsbD 3 = true ∧
    (∃ t, step (doing (.cmd .usb 0x48000000 []) (usbWith 0xC ⟨false, false⟩)) = .next t) ∧
    (usbWith 0xC ⟨false, false⟩).usb.enBusy = false ∧
    (∀ c a n rest, ¬ NextMove (doing (.cmd .usb 0x48000000 []) (usbWith 0xC ⟨false, false⟩)) (.hardwareReset c a n) rest) ∧
    (∀ c w buf, nextCommand (doing (.cmd .usb 0x48000000 []) (usbWith 0xC ⟨false, false⟩)) = some (c, w, buf) →
      decode w ≠ .ok .usbEnable) :=
  ⟨by unfold EnableInv; decide, by decide, by decide, exists_next (by decide), by decide, fun _ _ _ _ => notMove nofun,
    fun c w buf h => by
      have h : some (Context.usb, (0x48000000 : Word), ([] : Memory)) = some (c, w, buf) := h
      obtain ⟨-, rfl, -⟩ : Context.usb = c ∧ (0x48000000 : Word) = w ∧ ([] : Memory) = buf := by simpa using h
      decide⟩

/-- A lane beyond the data: five bytes, word 1, lane 1. -/
theorem witness_UnpackInvertsPack : (1 : Nat) < 4 ∧ [(1 : Byte), 2, 3, 4, 5].length ≤ 4 * 1 + 1 ∧
    (pack [(1 : Byte), 2, 3, 4, 5])[1]? = some 5 := by decide

/-- The smallest and a truncated length on an empty FIFO, which a truncated write fills exactly. -/
theorem witness_WriteQueuesTheBuffer : live.usb.enBusy = false ∧
    (0 < 1 ∧ live.usb.txf.length + (min 1 1536 + 3) / 4 ≤ 384) ∧
    (0 < 65535 ∧ live.usb.txf.length + (min 65535 1536 + 3) / 4 ≤ 384) := by decide

/-- The clauses in turn; the overflow at a full FIFO and one byte. -/
theorem witness_TransferErrorsAndOverflow : live.usb.enBusy = false ∧ ¬ (Dir.out = .inn ∧ 0 = 0) ∧
    ¬ (Dir.inn = .inn ∧ 1 = 0) ∧
    384 < ({ live.usb with txf := List.replicate 384 0 } : Usb).txf.length + (min 1 1536 + 3) / 4 ∧
    ¬ (Dir.inn = .out ∧ 0 = 0) ∧ ¬ (Dir.out = .out ∧ 2 = 0) := by
  refine ⟨rfl, by decide, by decide, ?_, by decide, by decide⟩
  simp only [List.length_replicate]; decide

/-- Received words and an empty FIFO, bytes inside and beyond the transfer. -/
theorem witness_ReadFillsTheBuffer :
    (received [0x44332211] live).usb.enBusy = false ∧ 0 < 5 ∧ Memory.wf (withBuf buf5 live).port.buf ∧
    (received [0x44332211] live).usb.rxf[3 / 4]? = some 0x44332211 ∧
    (4 < min 5 1536 ∧ (received [0x44332211] live).usb.rxf.length ≤ 4 / 4) ∧ min 5 1536 ≤ 5 := by
  refine ⟨by decide, by decide, ?_, by decide, by decide, by decide⟩
  unfold Memory.wf; decide

/-- The four moves, each enabled: a presented device, a reset seen, a word waiting, a transfer that fits; and a device that is
not presented. -/
theorem witness_BusMovesFollowTheirGuards :
    (EnableInv (doing (.env .busReset) live) ∧ NextMove (doing (.env .busReset) live) .busReset [] ∧ presented live = true) ∧
    (EnableInv (doing (.env .busEnumdone) { live with bus := ⟨true⟩ }) ∧
      NextMove (doing (.env .busEnumdone) { live with bus := ⟨true⟩ }) .busEnumdone [] ∧
      presented { live with bus := ⟨true⟩ } = true) ∧
    (EnableInv (doing (.env (.busIn 0 1)) { live with usb := { live.usb with txf := [7] } }) ∧
      NextMove (doing (.env (.busIn 0 1)) { live with usb := { live.usb with txf := [7] } }) (.busIn 0 1) [] ∧
      (EnvMove.busIn 0 1).enabled { live with usb := { live.usb with txf := [7] } } = true) ∧
    (EnableInv (doing (.env (.busOut 0 [5] 1)) live) ∧
      NextMove (doing (.env (.busOut 0 [5] 1)) live) (.busOut 0 [5] 1) [] ∧ (EnvMove.busOut 0 [5] 1).enabled live = true) ∧
    (EnableInv (doing (.env .busReset) State.reset) ∧ presented State.reset = false) := by
  unfold EnableInv NextMove
  repeat' apply And.intro
  all_goals decide

/-- The bounds of both clauses. -/
theorem witness_RegisterReadHasNoSideEffect :
    ((0x0D : Nat) ≤ 0x0D ∨ ((0x10 : Nat) ≤ 0x0D ∧ (0x0D : Nat) ≤ 0x12)) ∧ ((0x10 : Nat) ≤ 0x12 ∧ (0x12 : Nat) ≤ 0x12) ∧
    ¬ ((0x0E : Nat) ≤ 0x0D ∨ (0x10 ≤ 0x0E ∧ 0x0E ≤ 0x12)) ∧ ¬ ((0x13 : Nat) ≤ 0x0D ∨ (0x10 ≤ 0x13 ∧ 0x13 ≤ 0x12)) := by
  decide

theorem witness_RegistersHoldTheirFields : FifoInv live := by unfold FifoInv; decide

theorem witness_HardwareResetValues : NextMove (doing (.env (.hardwareReset true true 0xF)) live)
    (.hardwareReset true true 0xF) [] := rfl

theorem witness_StepKeepsTheQueueRing :
    QueueInv (timerDoes 0x31000000 (queue 3 3)) ∧ ∃ t, step (timerDoes 0x31000000 (queue 3 3)) = .next t :=
  ⟨by unfold QueueInv; decide, exists_next (by decide)⟩

/-- With a frame held. -/
theorem witness_StepKeepsMeansExact :
    QueueInv (timerDoes 0x2000FFFF (queue 0 1)) ∧ FilterInv (timerDoes 0x2000FFFF (queue 0 1)) ∧
      ∃ t, step (timerDoes 0x2000FFFF (queue 0 1)) = .next t :=
  ⟨by unfold QueueInv; decide, ⟨FilterOk.reset, FilterOk.reset, fun f hf => by
      obtain rfl := List.mem_singleton.1 (show f ∈ [⟨FilterState.reset, FilterState.reset⟩] from hf)
      exact ⟨FilterOk.reset, FilterOk.reset⟩⟩, exists_next (by decide)⟩

theorem witness_StepKeepsTheAcquisitionPhases :
    AcquisitionInv (timerDoes 0x02000000 (measuring .A 7)) ∧ ∃ t, step (timerDoes 0x02000000 (measuring .A 7)) = .next t :=
  ⟨by unfold AcquisitionInv; decide, exists_next (by decide)⟩

theorem witness_StepKeepsFifoBounds :
    FifoInv (doing (.cmd .usb 0x43800005 buf5) live) ∧ ∃ t, step (doing (.cmd .usb 0x43800005 buf5) live) = .next t :=
  ⟨by unfold FifoInv; decide, exists_next (by decide)⟩

theorem witness_StepKeepsTheSequencer :
    EnableInv (doing (.env .clkrdy) hold4) ∧ ∃ t, step (doing (.env .clkrdy) hold4) = .next t :=
  ⟨by unfold EnableInv; decide, exists_next (by decide)⟩

theorem witness_StepKeepsTheOrderContract :
    EnableInv (doing (.env .crstdone) hold10) ∧ LinkInv (doing (.env .crstdone) hold10) ∧
    ∃ t, step (doing (.env .crstdone) hold10) = .next t :=
  ⟨by unfold EnableInv; decide, ⟨by decide, by decide, by decide, by decide, by unfold PhyOn; decide, by decide, by unfold PhyOn; decide, by decide⟩, exists_next (by decide)⟩

/-- A waiting buffer, and a handler's own. -/
theorem witness_StepKeepsMemoryCanonical :
    MemoryInv (working [⟨.usb, usbIsr⟩] (doing (.cmd .usb 0x43800005 buf5) live)) ∧
      ∃ t, step (working [⟨.usb, usbIsr⟩] (doing (.cmd .usb 0x43800005 buf5) live)) = .next t := by
  refine ⟨⟨by unfold Memory.wf; decide, ?_, ?_⟩, exists_next (by decide)⟩
  · intro c w b h
    obtain ⟨-, -, rfl⟩ := Stimulus.cmd.inj (List.mem_singleton.1 h)
    unfold Memory.wf; decide
  · intro a ha w b h
    obtain rfl := List.mem_singleton.1 ha
    obtain ⟨-, rfl⟩ := HandlerStep.cmd.inj (List.mem_singleton.1 h)
    unfold Memory.wf; decide

/-- All four contexts, the RTC's handler innermost. -/
theorem witness_StepKeepsTheContexts :
    ContextInv (working [⟨.rtc, rtcIsr⟩, ⟨.timer, timerIsr.tail⟩, ⟨.usb, []⟩] live) ∧
      ∃ t, step (working [⟨.rtc, rtcIsr⟩, ⟨.timer, timerIsr.tail⟩, ⟨.usb, []⟩] live) = .next t := by
  refine ⟨⟨by decide, ?_, nofun, nofun⟩, exists_next (by decide)⟩
  intro a ha
  simp only [working, List.mem_cons, List.not_mem_nil, or_false] at ha
  rcases ha with rfl | rfl | rfl
  · exact .inl List.suffix_rfl
  · exact List.tail_suffix timerIsr
  · exact List.nil_suffix

/-- A command of each unit. -/
theorem witness_UnitsAreWrittenByTheirCommands :
    (∃ t, exec .capMeasure State.reset = .next t ∧ t.cap ≠ State.reset.cap) ∧
    (∃ t, exec .tmrAck overflowed = .next t ∧ t.cap ≠ overflowed.cap) ∧
    (∃ t, exec (.fltPush .A 1) State.reset = .next t ∧ t.flt ≠ State.reset.flt) ∧
    (∃ t, exec .qSplit State.reset = .next t ∧ t.q ≠ State.reset.q) ∧
    (∃ t, exec (.usbSetaddr 1) State.reset = .next t ∧ t.usb ≠ State.reset.usb) :=
  ⟨⟨_, rfl, by decide⟩, ⟨_, rfl, by decide⟩, ⟨_, rfl, by decide⟩, ⟨_, rfl, by decide⟩, ⟨_, rfl, by decide⟩⟩

theorem witness_ErrorsChangeNothing : ∃ t, exec .qDeq (queue 0 0) = .next t ∧ t.port.res = some 0x60000000 ∧
    (0x60000000 : Word).extractLsb' 28 4 ≠ 0 := ⟨_, rfl, by decide, by decide⟩

theorem witness_DerivedSignals : LinkInv State.reset ∧ State.reset.usb.linkOk = false :=
  ⟨⟨by decide, by decide, by decide, by decide, by unfold PhyOn; decide, by decide, by unfold PhyOn; decide, by decide⟩, rfl⟩

/-- Each of the three handlers due; a waiting command, lock and unlock of whichever context wait; a handler that has just
started. -/
theorem witness_DispatchFollowsPriority :
    (Due .timer (doing .turn overflowed) ∧ Due .rtc (doing .turn ticked) ∧
      Due .usb (doing .turn { live with host := { live.host with usbPend := true } })) ∧
    (Due .timer (doing (.cmd .rtc 0x33000000 []) overflowed) ∧ mayAct .rtc (doing (.cmd .rtc 0x33000000 []) overflowed) = false ∧
      StepOf .rtc (.cmd .rtc 0x33000000 []) ∧ StepOf .usb (.host (.lock .usb)) ∧ StepOf .usb (.host (.unlock .usb)) ∧
      mayAct .usb (doing (.host (.lock .usb)) overflowed) = false ∧
      mayAct .idle (doing (.host (.unlock .idle)) (working [⟨.timer, timerIsr⟩] live)) = false) ∧
    ∃ t, step (doing .turn overflowed) = .next t ∧ t.host.active = ⟨.timer, timerIsr⟩ :: overflowed.host.active :=
  ⟨⟨due_eq_some.mp (by decide), due_eq_some.mp (by decide), due_eq_some.mp (by decide)⟩,
    ⟨due_eq_some.mp (by decide), by decide, .inl ⟨_, _, rfl⟩, .inr (.inl rfl), .inr (.inr rfl), by decide, by decide⟩,
    ⟨_, rfl, rfl⟩⟩

/-- A blocked Idle; an Idle with nothing to do; a holder of the lock with nothing left; a handler with a command, with a pend, and with nothing left to do, whose line is still up. -/
theorem witness_HandlersRunToCompletion :
    (NoneDue (doing .turn hold4) ∧ hung (doing .turn hold4) = true) ∧
    (NoneDue State.reset ∧ State.reset.inputs = [] ∧ State.reset.host.active = []) ∧
    (NoneDue (doing .turn holder) ∧ hung (doing .turn holder) = false ∧ holder.host.active = [⟨.usb, []⟩] ∧
      holder.host.usbLock ≠ none) ∧
    (NoneDue (doing .turn (working [⟨.usb, usbIsr⟩] live)) ∧ hung (doing .turn (working [⟨.usb, usbIsr⟩] live)) = false ∧
      usbIsr = [.cmd 0x48000000 []]) ∧
    (NoneDue (doing .turn (working [⟨.timer, [.pendUsb]⟩] live)) ∧
      hung (doing .turn (working [⟨.timer, [.pendUsb]⟩] live)) = false) ∧
    (NoneDue (doing .turn (working [⟨.timer, []⟩, ⟨.usb, []⟩] overflowed)) ∧
      hung (doing .turn (working [⟨.timer, []⟩, ⟨.usb, []⟩] overflowed)) = false ∧ overflowed.host.usbLock = none ∧
      requested .timer (working [⟨.timer, []⟩, ⟨.usb, []⟩] overflowed) = true ∧
      (∀ d, requested d (working [⟨.timer, []⟩, ⟨.usb, []⟩] overflowed) = true → d.prio ≤ Context.timer.prio) ∧
      ∀ x ∈ [(⟨.usb, []⟩ : Activation)], x.ctx.prio < Context.timer.prio) :=
  ⟨⟨due_eq_none.mp (by decide), by decide⟩, ⟨due_eq_none.mp (by decide), by decide⟩,
    ⟨due_eq_none.mp (by decide), by decide, by decide, by decide⟩, ⟨due_eq_none.mp (by decide), by decide, by decide⟩,
    ⟨due_eq_none.mp (by decide), by decide⟩, due_eq_none.mp (by decide), by decide, by decide, by decide,
    fun d => by cases d <;> decide, by decide⟩

/-- A held lock; a context that may take a free one, above another at work, or may not for a running USB.ENABLE; its holder,
and another. -/
theorem witness_LockExcludesOtherContexts :
    ({ live with host := { live.host with usbLock := some .idle } } : State).host.usbLock ≠ none ∧
    (mayAct .usb (doing (.host (.lock .usb)) live) = true ∧ live.usb.enBusy = false ∧ live.host.usbLock = none) ∧
    (mayAct .rtc (doing (.host (.lock .rtc)) (working [⟨.usb, []⟩] live)) = true ∧
      running (working [⟨.usb, []⟩] live) = .usb) ∧
    (mayAct .timer (doing (.host (.lock .timer)) hold4) = true ∧ hold4.usb.enBusy = true) ∧
    (mayAct .idle (doing (.host (.unlock .idle)) { live with host := { live.host with usbLock := some .idle } }) = true) ∧
    (mayAct .idle (doing (.host (.unlock .idle)) live) = true ∧ live.host.usbLock ≠ some .idle) := by decide

/-- The start; the look at Configured, with both inputs from the device core. -/
theorem witness_RtcHandlerAlternatesReports :
    Due .rtc (doing .turn ticked) ∧
    (NoneDue (doing .turn (drained true)) ∧ hung (doing .turn (drained true)) = false ∧
      (drained true).host.active = [⟨.rtc, [.reportIfConfigured]⟩] ∧ (drained true).host.configured = true) ∧
    (NoneDue (doing .turn (drained false)) ∧ hung (doing .turn (drained false)) = false ∧
      (drained false).host.active = [⟨.rtc, [.reportIfConfigured]⟩] ∧ (drained false).host.configured = false) :=
  ⟨due_eq_some.mp (by decide), ⟨due_eq_none.mp (by decide), by decide, by decide, by decide⟩,
    due_eq_none.mp (by decide), by decide, by decide, by decide⟩

/-- USB.ENABLE holds at E10; the move comes, the command completes, and nothing happens afterwards. -/
def liftedRun : Nat → State
  | 0 => doing (.env .crstdone) hold10
  | _ + 1 => runMove .crstdone hold10

/-- A fair run of working silicon with a hold. -/
theorem witness_FairnessDecidesTheHold :
    FairRun true liftedRun ∧ EnableInv (liftedRun 0) ∧ LinkInv (liftedRun 0) ∧ (liftedRun 0).usb.enBusy = true := by
  have h := runMove_crstdone_lifts (s := hold10) rfl rfl rfl
  refine ⟨⟨fun n => ?_, ?_, ?_⟩, ?_, ?_, rfl⟩
  · match n with
    | 0 => exact ⟨runMove .crstdone hold10, [], step_env (rest := []) rfl, by simp [liftedRun]⟩
    | n + 1 => exact ⟨runMove .crstdone hold10, [], by simp only [liftedRun, h]; rfl, by simp [liftedRun]⟩
  · intro _ n m ha _
    match n with
    | 0 => exact ⟨1, by decide, .inr (by simp [liftedRun, h, awaited, enableDone])⟩
    | n + 1 => simp [liftedRun, h, awaited, enableDone] at ha
  · intro n hn
    match n with
    | 0 => exact nomatch hn
    | n + 1 => rw [liftedRun, h] at hn; exact nomatch (show false = true from hn)
  · unfold EnableInv; decide
  · exact ⟨by decide, by decide, by decide, by decide, by unfold PhyOn; decide, by decide, by unfold PhyOn; decide,
      by decide⟩

/-- The safety timeout comes, then a hardware reset, and nothing happens afterwards. -/
def timedRun : Nat → State
  | 0 => { measuring .A 0 with inputs := [.env .timeout, .env (.hardwareReset false false 0)] }
  | 1 => { overflowed with cap := { overflowed.cap with cnt := 0 }, inputs := [.env (.hardwareReset false false 0)] }
  | _ + 2 => State.reset

/-- A fair run in which the safety timer runs. -/
theorem witness_FairnessDecidesTheHold_timer : FairRun false timedRun ∧ (timedRun 0).cap.toRun = true := by
  refine ⟨⟨fun n => ?_, nofun, ?_⟩, rfl⟩
  · match n with
    | 0 => exact ⟨timedRun 1, [], rfl, rfl⟩
    | 1 => exact ⟨timedRun 2, [], rfl, rfl⟩
    | n + 2 => exact ⟨State.reset, [], rfl, rfl⟩
  · intro n hn
    match n with
    | 0 => exact ⟨2, by decide, .inr rfl⟩
    | 1 => exact ⟨2, by decide, .inr rfl⟩
    | n + 2 => exact nomatch hn

end Sys2Proof.Tests
end

section
/-! Two frames: while USB.ENABLE runs, only a move changes the USB unit or the PHY (44_usb_control.md R111,
60_exceptions.md R173); and the sequencer going on leaves the acquisition alone, so that a timeout raises its flag. -/

namespace Sys2Proof.Safety

open Sys2Proof.Machine

variable {s t : State}

/-- A USB command answers only where no USB.ENABLE runs. -/
theorem enBusy_of_exec_isUsb {i : Instr} (hi : i.isUsb = true) (h : exec i s = .next t) : s.usb.enBusy = false := by
  cases i with
  | usbEnable => exact (exec_usbEnable_next.mp h).1
  | usbReset => exact (exec_usbReset_next.mp h).1
  | usbAlloc => exact (exec_usbAlloc_next.mp h).1
  | usbWrite => exact (exec_usbWrite_next.mp h).1
  | usbRead => exact (exec_usbRead_next.mp h).1
  | usbSetaddr => exact (exec_usbSetaddr_next.mp h).1
  | usbSetstall => exact (exec_usbSetstall_next.mp h).1
  | usbIsstalled => exact (exec_usbIsstalled_next.mp h).1
  | usbPoll => exact (exec_usbPoll_next.mp h).1
  | _ => exact nomatch hi

/-- A command of the other units leaves the USB unit and the PHY as they are. -/
theorem exec_usb_phy_of_not_isUsb {i : Instr} (hi : i.isUsb = false) (h : exec i s = .next t) :
    t.usb = s.usb ∧ t.phy = s.phy := by
  cases i with
  | capMeasure => obtain ⟨-, rfl⟩ := exec_capMeasure_next.mp h; exact ⟨rfl, rfl⟩
  | capCapture => obtain ⟨-, -, rfl⟩ := exec_capCapture_next.mp h; exact ⟨rfl, rfl⟩
  | tmrAck => obtain rfl := exec_tmrAck_next.mp h; exact ⟨rfl, rfl⟩
  | sysRdreg => obtain ⟨v, -, rfl⟩ := exec_sysRdreg_next.mp h; exact ⟨rfl, rfl⟩
  | fltPush => obtain rfl := exec_fltPush_next.mp h; exact ⟨rfl, rfl⟩
  | fltRaw => obtain rfl := exec_fltRaw_next.mp h; exact ⟨rfl, rfl⟩
  | fltMean => obtain rfl := exec_fltMean_next.mp h; exact ⟨rfl, rfl⟩
  | fltMax => obtain rfl := exec_fltMax_next.mp h; exact ⟨rfl, rfl⟩
  | qSplit => obtain ⟨-, rfl⟩ := exec_qSplit_next.mp h; exact ⟨rfl, rfl⟩
  | qEnq => obtain ⟨-, ⟨q, -, rfl⟩ | ⟨-, rfl⟩⟩ := exec_qEnq_next.mp h <;> exact ⟨rfl, rfl⟩
  | qDeq => obtain ⟨-, ⟨f, q, -, rfl⟩ | ⟨-, rfl⟩⟩ := exec_qDeq_next.mp h <;> exact ⟨rfl, rfl⟩
  | qLen => obtain rfl := exec_qLen_next.mp h; exact ⟨rfl, rfl⟩
  | _ => exact nomatch hi

/-- While USB.ENABLE runs, a step is a move, or it leaves the USB unit and the PHY as they are. -/
theorem step_while_enabling (hb : s.usb.enBusy = true) (h : step s = .next t) :
    (∃ m rest, s.inputs = .env m :: rest ∧ t = runMove m { s with inputs := rest }) ∨
      t.usb = s.usb ∧ t.phy = s.phy := by
  rcases step_next_cases h with ⟨c, w, buf, i, xs, fs, -, -, -, he⟩ | hm | ⟨xs, k, rfl⟩
  · cases hi : i.isUsb with
    | true =>
      have hfree := enBusy_of_exec_isUsb hi he
      rw [latchRequest_usb, noteIssue_usb] at hfree
      exact absurd hb (by simpa using hfree)
    | false =>
      have hframe := exec_usb_phy_of_not_isUsb hi he
      rw [latchRequest_usb, noteIssue_usb, latchRequest_phy, noteIssue_phy] at hframe
      exact .inr hframe
  · exact .inl hm
  · exact .inr ⟨rfl, rfl⟩

/-- The sequencer going on does not touch the acquisition. -/
theorem enableResume_cap (s : State) : (enableResume s).cap = s.cap := by
  unfold enableResume
  split
  · exact (enableRun_frame 16 s).2.1
  · rfl

/-- ENV.TIMEOUT raises the timer interrupt while the safety timer runs (41_capsense_acquisition.md R85). -/
theorem irqTmr_runMove_timeout (h : s.cap.toRun = true) : irqTmr (runMove .timeout s) = true := by
  have he : EnvMove.timeout.enabled s = true := h
  rw [irqTmr, runMove, if_pos he, enableResume_cap]
  rfl

end Sys2Proof.Safety
end

section
/-! A hold of USB.ENABLE: the move it waits for is enabled, every step ends it, leaves it in place or takes the sequencer
further, and the awaited move does not leave it in place (44_usb_control.md R111, R115, R119, R121, R127). -/

namespace Sys2Proof.Safety

open Sys2Proof.Machine

variable {s t : State}

/-- USB.ENABLE runs, at one of its waits, with the oscillator selected: what keeps the awaited move enabled. -/
def Holding (s : State) : Prop := EnableInv s ∧ s.usb.enBusy = true ∧ s.phy.oscsel = true

theorem Holding.of_inv (he : EnableInv s) (hl : LinkInv s) (hb : s.usb.enBusy = true) : Holding s := by
  obtain ⟨-, -, -, -, -, hosc, -, -⟩ := hl
  exact ⟨he, hb, (hosc hb).1⟩

/-- From the hold of `s` to `t`: USB.ENABLE does not run any more, or it holds and its step count stands to the one before
as `r` says. -/
def HoldStep (r : Fin 16 → Fin 16 → Prop) (s t : State) : Prop :=
  t.usb.enBusy = false ∨ Holding t ∧ r s.usb.enStep t.usb.enStep

theorem HoldStep.mono {r r' : Fin 16 → Fin 16 → Prop} (hr : ∀ a b, r a b → r' a b) (h : HoldStep r s t) :
    HoldStep r' s t := h.imp_right fun ⟨ht, he⟩ => ⟨ht, hr _ _ he⟩

/-- Each of the three waits, with the move awaited there. -/
theorem Holding.waits (h : Holding s) :
    (s.usb.enStep = 3 ∧ s.phy.clkrdy = false ∧ awaited s = some .clkrdy) ∨
    (s.usb.enStep = 7 ∧ s.usb.ahbidle = false ∧ awaited s = some .ahbidle) ∨
    (s.usb.enStep = 9 ∧ s.usb.csrst = true ∧ awaited s = some .crstdone) := by
  obtain ⟨⟨hw, -, -⟩, hb, -⟩ := h
  rcases hw hb with ⟨h3, hc⟩ | ⟨h7, ha⟩ | ⟨h9, hr⟩
  · exact .inl ⟨h3, hc, by simp [awaited, hb, h3]⟩
  · exact .inr (.inl ⟨h7, ha, by simp [awaited, hb, h7]⟩)
  · exact .inr (.inr ⟨h9, hr, by simp [awaited, hb, h9]⟩)

/-- The move a hold waits for is enabled. -/
theorem Holding.awaited_enabled (h : Holding s) : ∃ m, awaited s = some m ∧ m.enabled s = true := by
  have hosc : s.phy.oscsel = true := h.2.2
  rcases h.waits with ⟨-, hc, ha⟩ | ⟨-, hi, ha⟩ | ⟨-, hr, ha⟩
  · exact ⟨_, ha, by simp [EnvMove.enabled, hc, hosc]⟩
  · exact ⟨_, ha, by simp [EnvMove.enabled, hi]⟩
  · exact ⟨_, ha, hr⟩

/-- What is awaited is read off the sequencer. -/
theorem awaited_congr (hb : s.usb.enBusy = t.usb.enBusy) (he : s.usb.enStep = t.usb.enStep) : awaited s = awaited t := by
  rw [awaited, awaited, hb, he]

/-- A move's own effect leaves the sequencer and the oscillator as they are, except that a hardware reset ends it. -/
theorem effect_sequencer (m : EnvMove) (s : State) : (m.effect s).usb.enBusy = false ∨
    (m.effect s).usb.enBusy = s.usb.enBusy ∧ (m.effect s).usb.enStep = s.usb.enStep ∧
      (m.effect s).phy.oscsel = s.phy.oscsel := by
  cases m with
  | hardwareReset => exact .inl rfl
  | _ => exact .inr ⟨rfl, rfl, rfl⟩

/-- The awaited move ends the command or takes it to a later wait. -/
theorem Holding.runMove_lt {m : EnvMove} (h : Holding s) (ha : awaited s = some m) :
    HoldStep (· < ·) s (runMove m s) := by
  have hwaits := h.waits
  obtain ⟨⟨-, -, hcsrst⟩, hb, hosc⟩ := h
  rcases hwaits with ⟨h3, hc, hm⟩ | ⟨h7, hi, hm⟩ | ⟨h9, hr, hm⟩ <;> obtain rfl := Option.some.inj (ha.symm.trans hm)
  · obtain ⟨hbusy, hidle⟩ := runMove_clkrdy_lifts hosc hc hb h3
    cases hi : s.usb.ahbidle with
    | false =>
      have hr : s.usb.csrst = false := Bool.eq_false_iff.mpr fun hr => by simpa [h3] using hcsrst hr
      rw [hbusy hi]
      exact .inr ⟨⟨by simp [EnableInv, hb, hi, hr], hb, hosc⟩, by simp [h3]⟩
    | true =>
      rw [hidle hi]
      exact .inr ⟨⟨by simp [EnableInv, coreReset, hb], hb, hosc⟩, by simp [h3]⟩
  · rw [runMove_ahbidle_lifts hi hb h7]
    exact .inr ⟨⟨by simp [EnableInv, coreReset, hb], hb, hosc⟩, by simp [h7]⟩
  · rw [runMove_crstdone_lifts hr hb h9]
    exact .inl rfl

/-- No move takes a holding sequencer back. -/
theorem Holding.runMove_le (h : Holding s) (m : EnvMove) : HoldStep (· ≤ ·) s (runMove m s) := by
  by_cases ha : awaited s = some m
  · exact (h.runMove_lt ha).mono fun _ _ => le_of_lt
  · rcases runMove_cases (m := m) h.1 with ⟨-, e⟩ | ⟨-, hi, e⟩ | ⟨rfl, hb, h3, -⟩ | ⟨rfl, hb, h7, -⟩ | ⟨rfl, hb, h9, -⟩
    · rw [e]
      exact .inr ⟨h, le_rfl⟩
    · rw [e]
      exact (effect_sequencer m s).imp_right fun ⟨hb, he, ho⟩ => ⟨⟨hi, hb.trans h.2.1, ho.trans h.2.2⟩, he.ge⟩
    · exact absurd (by simp [awaited, hb, h3]) ha
    · exact absurd (by simp [awaited, hb, h7]) ha
    · exact absurd (by simp [awaited, hb, h9]) ha

/-- No step takes a holding sequencer back. -/
theorem Holding.step_le (h : Holding s) (hs : step s = .next t) : HoldStep (· ≤ ·) s t := by
  rcases step_while_enabling h.2.1 hs with ⟨m, rest, -, rfl⟩ | ⟨hu, hp⟩
  · exact Holding.runMove_le (s := { s with inputs := rest }) h m
  · refine .inr ⟨?_, by rw [hu]⟩
    unfold Holding EnableInv
    rw [hu, hp]
    exact h

/-- The step in which the awaited move fires ends the command or takes it to a later wait. -/
theorem Holding.step_lt {m : EnvMove} (h : Holding s) (ha : awaited s = some m) (hf : Fires m s)
    (hs : step s = .next t) : HoldStep (· < ·) s t := by
  obtain ⟨rest, hi⟩ := hf
  rw [step_env hi, next_eq_next] at hs
  subst hs
  exact Holding.runMove_lt (s := { s with inputs := rest }) h ha

end Sys2Proof.Safety
end

section
/-! Runs: in a fair run of working silicon the sequencer climbs from wait to wait until it ends, and in every fair run the
safety timer raises its interrupt or is stopped (41_capsense_acquisition.md R85, 70_reset_and_hazards.md R225). -/

namespace Sys2Proof.Machine

open Sys2Proof.Safety

variable {run : Nat → State}

/-- A step of a run is a step of the machine, seen up to what has been added to what waits. -/
theorem IsRun.holdStep_succ {r : Fin 16 → Fin 16 → Prop} (hr : IsRun run) (k : Nat)
    (h : ∀ t, step (run k) = .next t → HoldStep r (run k) t) : HoldStep r (run k) (run (k + 1)) := by
  obtain ⟨t, more, hs, e⟩ := hr k
  rw [e]
  exact h t hs

/-- From a hold on, a run has ended it or has not gone back. -/
theorem IsRun.hold_later (hr : IsRun run) {n k : Nat} (hn : Holding (run n)) (hk : n ≤ k) :
    (∃ j, n ≤ j ∧ (run j).usb.enBusy = false) ∨ Holding (run k) ∧ (run n).usb.enStep ≤ (run k).usb.enStep := by
  induction k, hk using Nat.le_induction with
  | base => exact .inr ⟨hn, le_rfl⟩
  | succ k hk ih =>
    rcases ih with hend | ⟨hh, hle⟩
    · exact .inl hend
    · rcases hr.holdStep_succ k fun t => hh.step_le with hend | ⟨hh', hle'⟩
      · exact .inl ⟨k + 1, by omega, hend⟩
      · exact .inr ⟨hh', hle.trans hle'⟩

/-- In a fair run of working silicon a hold ends or gives way to a later one. -/
theorem FairRun.hold_climbs (hf : FairRun true run) {n : Nat} (hn : Holding (run n)) :
    ∃ k, n ≤ k ∧ HoldStep (· < ·) (run n) (run k) := by
  obtain ⟨hr, hready, -⟩ := hf
  obtain ⟨m, ha, he⟩ := hn.awaited_enabled
  obtain ⟨k, hk, hlift⟩ := hready rfl n m ha he
  rcases hr.hold_later hn hk with ⟨j, hj, hend⟩ | ⟨hh, hle⟩
  · exact ⟨j, hj, .inl hend⟩
  · rcases hle.lt_or_eq with hlt | heq
    · exact ⟨k, hk, .inr ⟨hh, hlt⟩⟩
    · have hak : awaited (run k) = some m := (awaited_congr (hh.2.1.trans hn.2.1.symm) heq.symm).trans ha
      have hfire : Fires m (run k) := hlift.resolve_right fun hne => hne hak
      refine ⟨k + 1, by omega, ?_⟩
      rw [HoldStep, heq]
      exact hr.holdStep_succ k fun t => hh.step_lt hak hfire

/-- In a fair run of working silicon every hold ends: the step count climbs, and there are only fifteen steps. -/
theorem FairRun.hold_ends (hf : FairRun true run) (n : Nat) (hn : Holding (run n)) :
    ∃ k, n ≤ k ∧ (run k).usb.enBusy = false := by
  induction h : (run n).usb.enStep using WellFoundedGT.induction generalizing n with
  | ind e ih =>
    obtain ⟨k, hk, hend | ⟨hh, hlt⟩⟩ := hf.hold_climbs hn
    · exact ⟨k, hk, hend⟩
    · obtain ⟨j, hj, hend⟩ := ih _ (h ▸ hlt) k hh rfl
      exact ⟨j, hk.trans hj, hend⟩

/-- In every fair run a running safety timer raises its interrupt or is stopped. -/
theorem FairRun.timer_ends {ws : Bool} (hf : FairRun ws run) {n : Nat} (hn : (run n).cap.toRun = true) :
    ∃ k, n ≤ k ∧ (irqTmr (run k) = true ∨ (run k).cap.toRun = false) := by
  obtain ⟨hr, -, htimer⟩ := hf
  obtain ⟨k, hk, ⟨rest, hi⟩ | hstop⟩ := htimer n hn
  · cases ht : (run k).cap.toRun with
    | false => exact ⟨k, hk, .inr ht⟩
    | true =>
      obtain ⟨t, more, hs, e⟩ := hr k
      rw [step_env hi, next_eq_next] at hs
      have hraised : irqTmr t = true := hs ▸ irqTmr_runMove_timeout (s := { run k with inputs := rest }) ht
      exact ⟨k + 1, by omega, .inl (e ▸ hraised)⟩
  · exact ⟨k, hk, .inr hstop⟩

end Sys2Proof.Machine
end

section
/-! A hold that never ends, fair where the silicon does not work (00_scope.md R5, 60_exceptions.md R174), and the settled
statement. -/

namespace Sys2Proof.Safety

open Sys2Proof.Machine

/-- Where nothing waits, no handler is due and the running context hangs in USB.ENABLE, nothing changes. -/
theorem step_of_hung {s : State} (hi : s.inputs = []) (hd : due s = none) (hh : hung s = true) : step s = .next s := by
  simp [step, advance, hi, hostTurn, hd, hh]

/-- A state that steps to itself, with the safety timer stopped, makes a run that is fair without working silicon. -/
theorem fairRun_const {s : State} (hs : step s = .next s) (ht : s.cap.toRun = false) : FairRun false fun _ => s :=
  ⟨fun _ => ⟨s, [], hs, by simp⟩, nofun, fun n _ => ⟨n, le_rfl, .inr ht⟩⟩

/-- USB.ENABLE issued from Idle after hardware reset, with the clock not ready: it holds at E4 and Idle hangs. -/
def heldAtE4 : State := enableContinue (enableStart State.reset)

theorem heldAtE4_eq : heldAtE4 = { State.reset with
    phy := { Phy.reset false with oscsel := true, calen := true, clkrec := true }
    usb := { Usb.reset false 0 with enBusy := true, enStep := 3 } } := enableStart_hold4 State.reset rfl

theorem heldAtE4_step : step heldAtE4 = .next heldAtE4 := by
  rw [heldAtE4_eq]
  exact step_of_hung rfl (by decide) (by decide)

theorem heldAtE4_enableInv : EnableInv heldAtE4 := by
  rw [heldAtE4_eq]
  unfold EnableInv
  decide

theorem heldAtE4_linkInv : LinkInv heldAtE4 := by
  rw [heldAtE4_eq]
  exact ⟨rfl, rfl, rfl, rfl, nofun, fun _ => ⟨rfl, rfl, rfl⟩, fun _ h => absurd h (by decide),
    fun _ h => absurd h (by decide)⟩

/-- Settles O60: a fair hold climbs to its end, the hold at E4 repeats for ever without the readiness move, and the timeout
raises the timer interrupt. -/
theorem fairnessDecidesTheHold : Obligations.FairnessDecidesTheHold := by
  unfold Obligations.FairnessDecidesTheHold
  refine ⟨fun run n hf he hl hb => hf.hold_ends n (.of_inv he hl hb), ?_, fun ws run n hf => hf.timer_ends⟩
  have hbusy : heldAtE4.usb.enBusy = true := by rw [heldAtE4_eq]
  have hstopped : heldAtE4.cap.toRun = false := by rw [heldAtE4_eq]; rfl
  exact ⟨fun _ => heldAtE4, fairRun_const heldAtE4_step hstopped,
    fun _ => ⟨heldAtE4_enableInv, heldAtE4_linkInv, hbusy⟩⟩

end Sys2Proof.Safety
end

section
/-! What a step does to the sampling side, the acquisition, the filters and the queue, and the two invariants that follow:
the queue stays a ring (10_state.md R17) and every stored mean stays exact (10_state.md R12). -/

namespace Sys2Proof.Safety

open Sys2Proof.Machine

variable {s t : State}

/-! ### Commands -/

/-- Every way a command changes the acquisition, the filters and the queue (41_capsense_acquisition.md R81 to R83,
42_filter.md R90, 43_sample_queue.md R100 to R102). A frame that enters the queue is a snapshot of the filters as the command
leaves them. -/
inductive SamplingStep (s t : State) : Instr → Prop
  | same (i : Instr) : t.cap = s.cap → t.flt = s.flt → t.q = s.q → SamplingStep s t i
  | measure : t.flt = s.flt → t.q = s.q → SamplingStep s t .capMeasure
  | ack : t.cap = { s.cap with ovf := false } → t.flt = s.flt → t.q = s.q → SamplingStep s t .tmrAck
  | push (ch : Channel) (v : Half) : t.cap = s.cap → t.flt = s.flt.set ch ((s.flt.get ch).push v) → t.q = s.q →
      SamplingStep s t (.fltPush ch v)
  | capture (ch : Channel) (v : Half) : t.flt = s.flt.set ch ((s.flt.get ch).push v) →
      (t.q = s.q ∨ s.q.split = true ∧ s.q.enq (snapshot t) = some t.q) → SamplingStep s t .capCapture
  | split : t.cap = s.cap → t.flt = s.flt → t.q = { s.q with split := true } → SamplingStep s t .qSplit
  | enqueue : t.cap = s.cap → t.flt = s.flt → s.q.split = true → s.q.enq (snapshot t) = some t.q → SamplingStep s t .qEnq
  | dequeue (f : CapsenseFrame) : t.cap = s.cap → t.flt = s.flt → s.q.split = true → s.q.deq = some (f, t.q) →
      SamplingStep s t .qDeq

/-- A capture on B offers the queue a snapshot, one on A leaves it. -/
theorem samplingStep_capCapture (h : exec .capCapture s = .next t) : SamplingStep s t .capCapture := by
  obtain ⟨-, hsplit, rfl⟩ := exec_capCapture_next.mp h
  refine .capture s.cap.ch s.cap.cnt rfl ?_
  simp only [State.deliver_q]
  split
  · rename_i hB
    cases he : s.q.enq _ with
    | none => exact .inl rfl
    | some q => exact .inr ⟨hsplit hB, he⟩
  · exact .inl rfl

/-- A USB command leaves the sampling side, the host's side and what waits. -/
theorem exec_frame_of_isUsb {i : Instr} (hi : i.isUsb = true) (h : exec i s = .next t) :
    t.cap = s.cap ∧ t.flt = s.flt ∧ t.q = s.q ∧ t.host = s.host ∧ t.inputs = s.inputs := by
  cases i with
  | usbEnable =>
    obtain ⟨-, rfl⟩ := exec_usbEnable_next.mp h
    obtain ⟨hflt, hcap, hq, hhost, hinputs, -⟩ := enableRun_frame 16 (enableStart s)
    exact ⟨hcap, hflt, hq, hhost, hinputs⟩
  | usbReset => obtain ⟨-, rfl⟩ := exec_usbReset_next.mp h; exact ⟨rfl, rfl, rfl, rfl, rfl⟩
  | usbAlloc =>
    obtain ⟨-, ⟨-, -, rfl⟩ | ⟨-, -, rfl⟩ | ⟨-, -, rfl⟩ | ⟨-, -, rfl⟩⟩ := exec_usbAlloc_next.mp h <;>
      exact ⟨rfl, rfl, rfl, rfl, rfl⟩
  | usbWrite =>
    obtain ⟨-, ⟨-, rfl⟩ | ⟨-, -, rfl⟩ | ⟨-, -, -, rfl⟩⟩ := exec_usbWrite_next.mp h <;> exact ⟨rfl, rfl, rfl, rfl, rfl⟩
  | usbRead =>
    obtain ⟨-, ⟨-, rfl⟩ | ⟨-, -, rfl⟩ | ⟨-, -, rfl⟩⟩ := exec_usbRead_next.mp h <;> exact ⟨rfl, rfl, rfl, rfl, rfl⟩
  | usbSetaddr => obtain ⟨-, rfl⟩ := exec_usbSetaddr_next.mp h; exact ⟨rfl, rfl, rfl, rfl, rfl⟩
  | usbSetstall => obtain ⟨-, rfl⟩ := exec_usbSetstall_next.mp h; exact ⟨rfl, rfl, rfl, rfl, rfl⟩
  | usbIsstalled => obtain ⟨-, rfl⟩ := exec_usbIsstalled_next.mp h; exact ⟨rfl, rfl, rfl, rfl, rfl⟩
  | usbPoll => obtain ⟨-, rfl⟩ := exec_usbPoll_next.mp h; split <;> exact ⟨rfl, rfl, rfl, rfl, rfl⟩
  | _ => exact nomatch hi

/-- Every command's effect on the sampling side is one of the cases. -/
theorem samplingStep_of_exec {i : Instr} (h : exec i s = .next t) : SamplingStep s t i := by
  cases i with
  | capMeasure => obtain ⟨-, rfl⟩ := exec_capMeasure_next.mp h; exact .measure rfl rfl
  | capCapture => exact samplingStep_capCapture h
  | tmrAck => obtain rfl := exec_tmrAck_next.mp h; exact .ack rfl rfl rfl
  | sysRdreg => obtain ⟨v, -, rfl⟩ := exec_sysRdreg_next.mp h; exact .same _ rfl rfl rfl
  | fltPush ch v => obtain rfl := exec_fltPush_next.mp h; exact .push ch v rfl rfl rfl
  | fltRaw => obtain rfl := exec_fltRaw_next.mp h; exact .same _ rfl rfl rfl
  | fltMean => obtain rfl := exec_fltMean_next.mp h; exact .same _ rfl rfl rfl
  | fltMax => obtain rfl := exec_fltMax_next.mp h; exact .same _ rfl rfl rfl
  | qSplit => obtain ⟨-, rfl⟩ := exec_qSplit_next.mp h; exact .split rfl rfl rfl
  | qEnq =>
    obtain ⟨hsplit, ⟨q, he, rfl⟩ | ⟨-, rfl⟩⟩ := exec_qEnq_next.mp h
    · exact .enqueue rfl rfl hsplit he
    · exact .same _ rfl rfl rfl
  | qDeq =>
    obtain ⟨hsplit, ⟨f, q, he, rfl⟩ | ⟨-, rfl⟩⟩ := exec_qDeq_next.mp h
    · exact .dequeue f rfl rfl hsplit he
    · exact .same _ rfl rfl rfl
  | qLen => obtain rfl := exec_qLen_next.mp h; exact .same _ rfl rfl rfl
  | _ => obtain ⟨hcap, hflt, hq, -⟩ := exec_frame_of_isUsb rfl h; exact .same _ hcap hflt hq

/-! ### Moves and steps -/

/-- The sequencer going on leaves the filters, the queue and the allocation state. -/
theorem enableResume_frame (s : State) : (enableResume s).flt = s.flt ∧ (enableResume s).q = s.q ∧
    (enableResume s).usb.next = s.usb.next ∧ (enableResume s).usb.ctrlAlloc = s.usb.ctrlAlloc := by
  unfold enableResume
  split
  · obtain ⟨hflt, -, hq, -, -, -, halloc, hnext, -⟩ := enableRun_frame 16 s
    exact ⟨hflt, hq, hnext, halloc⟩
  · exact ⟨rfl, rfl, rfl, rfl⟩

/-- A move leaves the filters and the queue, except that a hardware reset puts both at their reset values. -/
theorem runMove_flt_q (m : EnvMove) (s : State) :
    (runMove m s).flt = s.flt ∧ (runMove m s).q = s.q ∨
      (runMove m s).flt = ⟨FilterState.reset, FilterState.reset⟩ ∧ (runMove m s).q = SampleQueue.reset := by
  unfold runMove
  split
  · obtain ⟨hflt, hq, -⟩ := enableResume_frame (m.effect s)
    rw [hflt, hq]
    cases m with
    | hardwareReset => exact .inr ⟨rfl, rfl⟩
    | _ => exact .inl ⟨rfl, rfl⟩
  · exact .inl ⟨rfl, rfl⟩

/-- What issuing a command records on the host's side: CAP.MEASURE ends boot, Q.DEQ shows its consumer (logs 12, 13). -/
theorem noteIssue_eq (c : Context) (i : Instr) (s : State) : noteIssue c i s = { s with
    host := if i = .capMeasure then { s.host with boot := false }
      else if i = .qDeq then { s.host with consumer := some c } else s.host } := by
  cases i <;> rfl

/-- Handing a command over changes only what waits, the port and the host's side. -/
theorem latchRequest_noteIssue (c : Context) (w : Word) (buf : Memory) (i : Instr) (s : State) :
    ∃ k, latchRequest c w buf (noteIssue c i s) =
      { s with host := k, port := { issuer := c, cmd := w, buf := buf, res := none, data := [] } } :=
  ⟨_, by rw [noteIssue_eq, latchRequest]⟩

/-- What does not look at the port, the host's side and what waits, and is kept by every command and every move, is kept by
every step. -/
theorem step_keeps {P : State → Prop} (hside : ∀ s xs k p, P s → P { s with inputs := xs, host := k, port := p })
    (hexec : ∀ i s t, P s → exec i s = .next t → P t) (hmove : ∀ m s, P s → P (runMove m s))
    (hs : P s) (h : step s = .next t) : P t := by
  rcases step_next_cases h with ⟨c, w, buf, i, xs, fs, -, -, -, he⟩ | ⟨m, rest, -, rfl⟩ | ⟨xs, k, rfl⟩
  · obtain ⟨k, hk⟩ := latchRequest_noteIssue c w buf i { s with inputs := xs, host := { s.host with active := fs } }
    rw [hk] at he
    exact hexec i _ t (hside s xs k _ hs) he
  · exact hmove m _ (hside s rest s.host s.port hs)
  · exact hside s xs k s.port hs

/-! ### The ring -/

/-- The ring of one queue, as `QueueInv` says it of a state (10_state.md R17). -/
def RingOk (q : SampleQueue) : Prop := q.tail.val = (q.head.val + q.count.val) % 4 ∧ (q.split = false → q.count = 0)

theorem queueInv_iff (s : State) : QueueInv s ↔ RingOk s.q := Iff.rfl

theorem RingOk.reset : RingOk SampleQueue.reset := ⟨rfl, fun _ => rfl⟩

/-- An enqueue moves the tail and the count on together. -/
theorem RingOk.enq {q q' : SampleQueue} {f : CapsenseFrame} (h : RingOk q) (hs : q.split = true)
    (he : q.enq f = some q') : RingOk q' := by
  obtain ⟨h4, rfl⟩ := SampleQueue.enq_eq_some.mp he
  obtain ⟨htail, -⟩ := h
  refine ⟨?_, fun hf => absurd hs (by simp [show q.split = false from hf])⟩
  have hc : q.count.val ≠ 4 := fun hc => h4 (Fin.ext hc)
  have hlt : q.count.val < 5 := q.count.isLt
  simp only [Config.qcap_eq, Fin.val_add, htail, Fin.val_one]
  omega

/-- A dequeue moves the head on and the count back. -/
theorem RingOk.deq {q q' : SampleQueue} {f : CapsenseFrame} (h : RingOk q) (hs : q.split = true)
    (he : q.deq = some (f, q')) : RingOk q' := by
  obtain ⟨h0, -, rfl⟩ := SampleQueue.deq_eq_some.mp he
  obtain ⟨htail, -⟩ := h
  refine ⟨?_, fun hf => absurd hs (by simp [show q.split = false from hf])⟩
  have hc : q.count.val ≠ 0 := fun hc => h0 (Fin.ext hc)
  have hlt : q.count.val < 5 := q.count.isLt
  simp only [Config.qcap_eq, Fin.val_add, Fin.sub_def, htail, Fin.val_one]
  omega

theorem exec_keeps_queueInv {i : Instr} (hs : QueueInv s) (h : exec i s = .next t) : QueueInv t := by
  rw [queueInv_iff] at hs ⊢
  cases samplingStep_of_exec h with
  | same _ _ _ hq => exact hq ▸ hs
  | measure _ hq => exact hq ▸ hs
  | ack _ _ hq => exact hq ▸ hs
  | push _ _ _ _ hq => exact hq ▸ hs
  | capture _ _ _ hq =>
    rcases hq with hq | ⟨hsplit, he⟩
    · exact hq ▸ hs
    · exact hs.enq hsplit he
  | split _ _ hq => rw [hq]; exact ⟨hs.1, nofun⟩
  | enqueue _ _ hsplit he => exact hs.enq hsplit he
  | dequeue _ _ _ hsplit he => exact hs.deq hsplit he

theorem runMove_keeps_queueInv (m : EnvMove) (hs : QueueInv s) : QueueInv (runMove m s) := by
  rw [queueInv_iff] at hs ⊢
  rcases runMove_flt_q m s with ⟨-, hq⟩ | ⟨-, hq⟩
  · exact hq ▸ hs
  · exact hq ▸ RingOk.reset

/-- Settles O45: every command that touches the queue moves its cursors and its count together. -/
theorem stepKeepsTheQueueRing : Obligations.StepKeepsTheQueueRing := fun _ _ hs h =>
  step_keeps (fun _ _ _ _ h => h) (fun _ _ _ => exec_keeps_queueInv) (fun m _ => runMove_keeps_queueInv m) hs h

/-! ### The means -/

/-- Both filters of a frame are right. -/
def FrameOk (f : CapsenseFrame) : Prop := FilterOk f.a ∧ FilterOk f.b

/-- The filters of a state form a frame like those the queue holds. -/
theorem filterInv_iff (s : State) : FilterInv s ↔ FrameOk (snapshot s) ∧ ∀ f ∈ s.q.frames, FrameOk f := and_assoc.symm

theorem snapshot_congr (h : t.flt = s.flt) : snapshot t = snapshot s := by rw [snapshot, snapshot, h]

/-- A push into either filter keeps both right. -/
theorem FrameOk.push {ch : Channel} {v : Half} (hs : FrameOk (snapshot s))
    (h : t.flt = s.flt.set ch ((s.flt.get ch).push v)) : FrameOk (snapshot t) := by
  obtain ⟨ha, hb⟩ := hs
  rw [snapshot, h]
  cases ch with
  | A => exact ⟨ha.push v, hb⟩
  | B => exact ⟨ha, hb.push v⟩

/-- A right frame joins right frames. -/
theorem frames_enq_ok {q q' : SampleQueue} {f : CapsenseFrame} (hr : RingOk q) (he : q.enq f = some q')
    (hq : ∀ g ∈ q.frames, FrameOk g) (hf : FrameOk f) : ∀ g ∈ q'.frames, FrameOk g := by
  rw [SampleQueue.frames_enq hr.1 he]
  simp only [List.mem_append, List.mem_singleton]
  rintro g (hg | rfl)
  · exact hq g hg
  · exact hf

theorem exec_keeps_filterInv {i : Instr} (hq : QueueInv s) (hs : FilterInv s) (h : exec i s = .next t) : FilterInv t := by
  rw [filterInv_iff] at hs ⊢
  obtain ⟨hf, hfs⟩ := hs
  cases samplingStep_of_exec h with
  | same _ _ hflt hq => exact ⟨snapshot_congr hflt ▸ hf, hq ▸ hfs⟩
  | measure hflt hq => exact ⟨snapshot_congr hflt ▸ hf, hq ▸ hfs⟩
  | ack _ hflt hq => exact ⟨snapshot_congr hflt ▸ hf, hq ▸ hfs⟩
  | push _ _ _ hflt hq => exact ⟨hf.push hflt, hq ▸ hfs⟩
  | capture _ _ hflt henq =>
    have ht := hf.push hflt
    rcases henq with hq | ⟨-, he⟩
    · exact ⟨ht, hq ▸ hfs⟩
    · exact ⟨ht, frames_enq_ok hq he hfs ht⟩
  | split _ hflt hq => exact ⟨snapshot_congr hflt ▸ hf, hq ▸ hfs⟩
  | enqueue _ hflt _ he =>
    have ht : FrameOk (snapshot t) := snapshot_congr hflt ▸ hf
    exact ⟨ht, frames_enq_ok hq he hfs ht⟩
  | dequeue f _ hflt _ he =>
    rw [SampleQueue.frames_deq he] at hfs
    exact ⟨snapshot_congr hflt ▸ hf, fun g hg => hfs g (List.mem_cons_of_mem f hg)⟩

theorem runMove_keeps_filterInv (m : EnvMove) (hs : FilterInv s) : FilterInv (runMove m s) := by
  rw [filterInv_iff] at hs ⊢
  rcases runMove_flt_q m s with ⟨hflt, hq⟩ | ⟨hflt, hq⟩
  · exact ⟨snapshot_congr hflt ▸ hs.1, hq ▸ hs.2⟩
  · rw [snapshot, hflt, hq]
    exact ⟨⟨FilterOk.reset, FilterOk.reset⟩, nofun⟩

/-- Settles O46: a push makes its mean from the new window, and a frame enters the ring only as a snapshot of the filters. -/
theorem stepKeepsMeansExact : Obligations.StepKeepsMeansExact := fun _ _ hq hs h =>
  (step_keeps (P := fun u => QueueInv u ∧ FilterInv u) (fun _ _ _ _ h => h)
    (fun _ _ _ hu he => ⟨exec_keeps_queueInv hu.1 he, exec_keeps_filterInv hu.1 hu.2 he⟩)
    (fun m _ hu => ⟨runMove_keeps_queueInv m hu.1, runMove_keeps_filterInv m hu.2⟩) ⟨hq, hs⟩ h).2

end Sys2Proof.Safety
end

section
/-! Each unit is written by its own commands (10_state.md R11, R14, R15, 46_system.md R161). -/

namespace Sys2Proof.Safety

open Sys2Proof.Machine

variable {s t : State}

/-- A command of the other units leaves the bus, the host's side and what waits. -/
theorem exec_bus_host_inputs_of_not_isUsb {i : Instr} (hi : i.isUsb = false) (h : exec i s = .next t) :
    t.bus = s.bus ∧ t.host = s.host ∧ t.inputs = s.inputs := by
  cases i with
  | capMeasure => obtain ⟨-, rfl⟩ := exec_capMeasure_next.mp h; exact ⟨rfl, rfl, rfl⟩
  | capCapture => obtain ⟨-, -, rfl⟩ := exec_capCapture_next.mp h; exact ⟨rfl, rfl, rfl⟩
  | tmrAck => obtain rfl := exec_tmrAck_next.mp h; exact ⟨rfl, rfl, rfl⟩
  | sysRdreg => obtain ⟨v, -, rfl⟩ := exec_sysRdreg_next.mp h; exact ⟨rfl, rfl, rfl⟩
  | fltPush => obtain rfl := exec_fltPush_next.mp h; exact ⟨rfl, rfl, rfl⟩
  | fltRaw => obtain rfl := exec_fltRaw_next.mp h; exact ⟨rfl, rfl, rfl⟩
  | fltMean => obtain rfl := exec_fltMean_next.mp h; exact ⟨rfl, rfl, rfl⟩
  | fltMax => obtain rfl := exec_fltMax_next.mp h; exact ⟨rfl, rfl, rfl⟩
  | qSplit => obtain ⟨-, rfl⟩ := exec_qSplit_next.mp h; exact ⟨rfl, rfl, rfl⟩
  | qEnq => obtain ⟨-, ⟨q, -, rfl⟩ | ⟨-, rfl⟩⟩ := exec_qEnq_next.mp h <;> exact ⟨rfl, rfl, rfl⟩
  | qDeq => obtain ⟨-, ⟨f, q, -, rfl⟩ | ⟨-, rfl⟩⟩ := exec_qDeq_next.mp h <;> exact ⟨rfl, rfl, rfl⟩
  | qLen => obtain rfl := exec_qLen_next.mp h; exact ⟨rfl, rfl, rfl⟩
  | _ => exact nomatch hi

/-- No command writes the host's side or what waits. -/
theorem exec_host_inputs {i : Instr} (h : exec i s = .next t) : t.host = s.host ∧ t.inputs = s.inputs := by
  cases hi : i.isUsb with
  | true => obtain ⟨-, -, -, hframe⟩ := exec_frame_of_isUsb hi h; exact hframe
  | false => exact (exec_bus_host_inputs_of_not_isUsb hi h).2

/-- Only a USB command writes the PHY, the USB unit or the bus bit. -/
theorem isUsb_of_exec_changes {i : Instr} (h : exec i s = .next t)
    (hne : t.phy ≠ s.phy ∨ t.usb ≠ s.usb ∨ t.bus ≠ s.bus) : i.isUsb = true := by
  by_contra hi
  rw [Bool.not_eq_true] at hi
  obtain ⟨husb, hphy⟩ := exec_usb_phy_of_not_isUsb hi h
  rcases hne with hne | hne | hne
  · exact hne hphy
  · exact hne husb
  · exact hne (exec_bus_host_inputs_of_not_isUsb hi h).1

theorem SamplingStep.writes_cap {i : Instr} (h : SamplingStep s t i) (hne : t.cap ≠ s.cap) :
    i = .capMeasure ∨ i = .capCapture ∨ i = .tmrAck := by
  cases h with
  | measure => exact .inl rfl
  | capture => exact .inr (.inl rfl)
  | ack => exact .inr (.inr rfl)
  | _ => exact absurd ‹t.cap = s.cap› hne

theorem SamplingStep.writes_flt {i : Instr} (h : SamplingStep s t i) (hne : t.flt ≠ s.flt) :
    i = .capCapture ∨ ∃ ch v, i = .fltPush ch v := by
  cases h with
  | capture => exact .inl rfl
  | push ch v => exact .inr ⟨ch, v, rfl⟩
  | _ => exact absurd ‹t.flt = s.flt› hne

theorem SamplingStep.writes_q {i : Instr} (h : SamplingStep s t i) (hne : t.q ≠ s.q) :
    i = .capCapture ∨ i = .qSplit ∨ i = .qEnq ∨ i = .qDeq := by
  cases h with
  | capture => exact .inl rfl
  | split => exact .inr (.inl rfl)
  | enqueue => exact .inr (.inr (.inl rfl))
  | dequeue => exact .inr (.inr (.inr rfl))
  | _ => exact absurd ‹t.q = s.q› hne

/-- TMR.ACK writes the overflow flag alone. -/
theorem SamplingStep.ack_cap (h : SamplingStep s t .tmrAck) : t.cap = { s.cap with ovf := t.cap.ovf } := by
  cases h with
  | same _ hcap => rw [hcap]
  | ack hcap => rw [hcap]

/-- Settles O53: by the cases of a command's effect on the sampling side, and the frames of the USB unit and the host. -/
theorem unitsAreWrittenByTheirCommands : Obligations.UnitsAreWrittenByTheirCommands := by
  unfold Obligations.UnitsAreWrittenByTheirCommands
  intro i s t h
  have hs := samplingStep_of_exec h
  exact ⟨hs.writes_cap, fun hi => (hi ▸ hs : SamplingStep s t .tmrAck).ack_cap, hs.writes_flt, hs.writes_q,
    isUsb_of_exec_changes h, exec_host_inputs h⟩

end Sys2Proof.Safety
end

section
/-! The allocation counters and control bits (10_state.md R19), and the bounds of the FIFOs (R20, R31, R32), under every
step. -/

namespace Sys2Proof.Safety

open Sys2Proof.Machine

variable {s t : State}

/-! ### Allocation -/

/-- Neither allocation counter is lower in `t` than in `s`. -/
def CountersLe (s t : State) : Prop := s.usb.next.out ≤ t.usb.next.out ∧ s.usb.next.inn ≤ t.usb.next.inn

theorem CountersLe.of_eq (h : t.usb.next = s.usb.next) : CountersLe s t := by
  rw [CountersLe, h]
  exact ⟨le_rfl, le_rfl⟩

/-- The next number below the ceiling is no smaller. -/
theorem counter_le_succ {n : Fin (Config.epCeil + 1)} (h : n ≠ 3) : n ≤ n + 1 := by
  revert n
  decide

/-- USB.ALLOC raises at most its direction's counter, by one. -/
theorem exec_usbAlloc_countersLe {d : Dir} {n : Nat} (h : exec (.usbAlloc d n) s = .next t) : CountersLe s t := by
  obtain ⟨-, ⟨-, -, rfl⟩ | ⟨-, -, rfl⟩ | ⟨-, -, rfl⟩ | ⟨-, h3, rfl⟩⟩ := exec_usbAlloc_next.mp h
  · exact .of_eq rfl
  · exact .of_eq rfl
  · exact .of_eq rfl
  · cases d with
    | out => exact ⟨counter_le_succ h3, le_rfl⟩
    | inn => exact ⟨le_rfl, counter_le_succ h3⟩

/-- A command leaves the allocation state, or it is USB.ALLOC, or USB.RESET, which leaves the counters (44_usb_control.md
R129, R130). -/
theorem exec_allocation {i : Instr} (h : exec i s = .next t) :
    (t.usb.next = s.usb.next ∧ t.usb.ctrlAlloc = s.usb.ctrlAlloc) ∨ (∃ d n, i = .usbAlloc d n ∧ CountersLe s t) ∨
      (i = .usbReset ∧ t.usb.next = s.usb.next) := by
  cases i with
  | usbEnable =>
    obtain ⟨-, rfl⟩ := exec_usbEnable_next.mp h
    obtain ⟨-, -, -, -, -, -, halloc, hnext, -⟩ := enableRun_frame 16 (enableStart s)
    exact .inl ⟨hnext, halloc⟩
  | usbReset => obtain ⟨-, rfl⟩ := exec_usbReset_next.mp h; exact .inr (.inr ⟨rfl, rfl⟩)
  | usbAlloc d n => exact .inr (.inl ⟨d, n, rfl, exec_usbAlloc_countersLe h⟩)
  | usbWrite =>
    obtain ⟨-, ⟨-, rfl⟩ | ⟨-, -, rfl⟩ | ⟨-, -, -, rfl⟩⟩ := exec_usbWrite_next.mp h <;> exact .inl ⟨rfl, rfl⟩
  | usbRead => obtain ⟨-, ⟨-, rfl⟩ | ⟨-, -, rfl⟩ | ⟨-, -, rfl⟩⟩ := exec_usbRead_next.mp h <;> exact .inl ⟨rfl, rfl⟩
  | usbSetaddr => obtain ⟨-, rfl⟩ := exec_usbSetaddr_next.mp h; exact .inl ⟨rfl, rfl⟩
  | usbSetstall => obtain ⟨-, rfl⟩ := exec_usbSetstall_next.mp h; exact .inl ⟨rfl, rfl⟩
  | usbIsstalled => obtain ⟨-, rfl⟩ := exec_usbIsstalled_next.mp h; exact .inl ⟨rfl, rfl⟩
  | usbPoll => obtain ⟨-, rfl⟩ := exec_usbPoll_next.mp h; split <;> exact .inl ⟨rfl, rfl⟩
  | _ =>
    have husb := (exec_usb_phy_of_not_isUsb rfl h).1
    exact .inl ⟨congrArg Usb.next husb, congrArg Usb.ctrlAlloc husb⟩

/-- No move but hardware reset touches the allocation state. -/
theorem runMove_allocation {m : EnvMove} (hm : ∀ c a n, m ≠ .hardwareReset c a n) (s : State) :
    (runMove m s).usb.next = s.usb.next ∧ (runMove m s).usb.ctrlAlloc = s.usb.ctrlAlloc := by
  unfold runMove
  split
  · obtain ⟨-, -, hnext, halloc⟩ := enableResume_frame (m.effect s)
    rw [hnext, halloc]
    cases m with
    | hardwareReset c a n => exact absurd rfl (hm c a n)
    | _ => exact ⟨rfl, rfl⟩
  · exact ⟨rfl, rfl⟩

/-- Every step but hardware reset leaves the allocation state, or issues a command USB.ALLOC, or USB.RESET, which leaves the
counters. -/
theorem step_allocation (h : step s = .next t) (hreset : ∀ c a n rest, ¬ NextMove s (.hardwareReset c a n) rest) :
    (t.usb.next = s.usb.next ∧ t.usb.ctrlAlloc = s.usb.ctrlAlloc) ∨
      CountersLe s t ∧ ∃ c w buf i, nextCommand s = some (c, w, buf) ∧ decode w = .ok i ∧
        ((∃ d n, i = .usbAlloc d n) ∨ (i = .usbReset ∧ t.usb.next = s.usb.next)) := by
  rcases step_next_cases h with ⟨c, w, buf, i, xs, fs, hcmd, hd, -, he⟩ | ⟨m, rest, hi, rfl⟩ | ⟨xs, k, rfl⟩
  · obtain ⟨k, hk⟩ := latchRequest_noteIssue c w buf i { s with inputs := xs, host := { s.host with active := fs } }
    rw [hk] at he
    rcases exec_allocation he with hsame | ⟨d, n, hi, hle⟩ | ⟨hi, hnext⟩
    · exact .inl hsame
    · exact .inr ⟨hle, c, w, buf, i, hcmd, hd, .inl ⟨d, n, hi⟩⟩
    · exact .inr ⟨CountersLe.of_eq hnext, c, w, buf, i, hcmd, hd, .inr ⟨hi, hnext⟩⟩
  · have hm : ∀ c a n, m ≠ .hardwareReset c a n := fun c a n hm => hreset c a n rest (hm ▸ hi)
    exact .inl (runMove_allocation hm { s with inputs := rest })
  · exact .inl ⟨rfl, rfl⟩

/-- Settles O31: only a command USB.ALLOC or USB.RESET touches the allocation state, and neither lowers a counter. -/
theorem countersNeverDecrease : Obligations.CountersNeverDecrease := by
  unfold Obligations.CountersNeverDecrease
  intro s t h hreset
  rw [← and_assoc]
  rcases step_allocation h hreset with ⟨hnext, hctrl⟩ | ⟨hle, hcmd⟩
  · exact ⟨CountersLe.of_eq hnext, fun hne => hne.elim (absurd hnext) (absurd hctrl)⟩
  · exact ⟨hle, fun _ => hcmd⟩

/-! ### FIFOs -/

/-- A state with the same FIFOs, received size and pending bits keeps their bounds. -/
theorem FifoInv.congr (hs : FifoInv s) (htx : t.usb.txf = s.usb.txf) (hrx : t.usb.rxf = s.usb.rxf)
    (hsize : t.usb.rxsize = s.usb.rxsize) (hpend : t.usb.pend = s.usb.pend) : FifoInv t := by
  rw [FifoInv, htx, hrx, hsize, hpend]
  exact hs

/-- Only E9 touches the FIFOs and the received size: it empties them (44_usb_control.md R136). -/
theorem enableStep_keeps_fifoInv (k : Fin 16) (s : State) (hs : FifoInv s) : FifoInv (enableStep k s) := by
  unfold enableStep enableEffect
  split
  case h_7 =>
    obtain ⟨-, -, -, hpend⟩ := hs
    exact ⟨Nat.zero_le _, Nat.zero_le _, Nat.zero_le _, hpend⟩
  all_goals exact hs.congr rfl rfl rfl rfl

theorem enableRun_keeps_fifoInv (n : Nat) (hs : FifoInv s) : FifoInv (enableRun n s) :=
  enableRun_keeps enableStep_keeps_fifoInv (fun _ hu => hu.congr rfl rfl rfl rfl) n hs

theorem exec_keeps_fifoInv {i : Instr} (hs : FifoInv s) (h : exec i s = .next t) : FifoInv t := by
  cases i with
  | usbEnable =>
    obtain ⟨-, rfl⟩ := exec_usbEnable_next.mp h
    exact enableRun_keeps_fifoInv 16 (s := enableStart s) (hs.congr rfl rfl rfl rfl)
  | usbReset =>
    obtain ⟨-, rfl⟩ := exec_usbReset_next.mp h
    exact ⟨Nat.zero_le _, Nat.zero_le _, Nat.zero_le _, rfl⟩
  | usbAlloc =>
    obtain ⟨-, ⟨-, -, rfl⟩ | ⟨-, -, rfl⟩ | ⟨-, -, rfl⟩ | ⟨-, -, rfl⟩⟩ := exec_usbAlloc_next.mp h <;>
      exact hs.congr rfl rfl rfl rfl
  | usbWrite =>
    obtain ⟨-, hcases⟩ := exec_usbWrite_next.mp h
    rcases hcases with ⟨-, rfl⟩ | ⟨-, -, rfl⟩ | ⟨-, -, hfits, rfl⟩
    · exact hs.congr rfl rfl rfl rfl
    · exact hs.congr rfl rfl rfl rfl
    · exact ⟨by simpa using hfits, hs.2⟩
  | usbRead =>
    obtain ⟨htx, hrx, hsize, hpend⟩ := hs
    obtain ⟨-, hcases⟩ := exec_usbRead_next.mp h
    rcases hcases with ⟨-, rfl⟩ | ⟨-, -, rfl⟩ | ⟨-, -, rfl⟩
    · exact ⟨htx, hrx, hsize, hpend⟩
    · exact ⟨htx, hrx, hsize, hpend⟩
    · exact ⟨htx, (List.drop_sublist ..).length_le.trans hrx, hsize, hpend⟩
  | usbSetaddr => obtain ⟨-, rfl⟩ := exec_usbSetaddr_next.mp h; exact hs.congr rfl rfl rfl rfl
  | usbSetstall => obtain ⟨-, rfl⟩ := exec_usbSetstall_next.mp h; exact hs.congr rfl rfl rfl rfl
  | usbIsstalled => obtain ⟨-, rfl⟩ := exec_usbIsstalled_next.mp h; exact hs.congr rfl rfl rfl rfl
  | usbPoll =>
    obtain ⟨htx, hrx, hsize, hpend⟩ := hs
    obtain ⟨-, rfl⟩ := exec_usbPoll_next.mp h
    split
    · exact ⟨htx, hrx, hsize, hpend⟩
    · exact ⟨htx, hrx, hsize, rfl⟩
  | _ => rw [FifoInv, (exec_usb_phy_of_not_isUsb rfl h).1]; exact hs

/-- Only the bus transfers touch the FIFOs, BUS.OUT within its guard (45_usb_fifo.md R147, R148). -/
theorem effect_keeps_fifoInv {m : EnvMove} (hm : m.enabled s = true) (hs : FifoInv s) : FifoInv (m.effect s) := by
  obtain ⟨htx, hrx, hsize, hpend⟩ := hs
  cases m with
  | busIn addr k => exact ⟨(List.drop_sublist ..).length_le.trans htx, hrx, hsize, hpend⟩
  | busOut addr ws k =>
    simp only [EnvMove.enabled, Bool.and_eq_true, decide_eq_true_eq] at hm
    obtain ⟨⟨⟨⟨-, hk⟩, -⟩, hroom⟩, -⟩ := hm
    refine ⟨htx, by simpa [EnvMove.effect] using hroom, ?_, hpend⟩
    calc (BitVec.ofNat 11 k).toNat = k % 2 ^ 11 := BitVec.toNat_ofNat k 11
      _ ≤ k := Nat.mod_le k _
      _ ≤ 1536 := hk
  | hardwareReset => exact ⟨Nat.zero_le _, Nat.zero_le _, Nat.zero_le _, rfl⟩
  | _ => exact ⟨htx, hrx, hsize, hpend⟩

theorem runMove_keeps_fifoInv (m : EnvMove) (hs : FifoInv s) : FifoInv (runMove m s) := by
  unfold runMove
  split
  · rename_i hm
    have hu := effect_keeps_fifoInv hm hs
    unfold enableResume
    split
    · exact enableRun_keeps_fifoInv 16 hu
    · exact hu
  · exact hs

/-- Settles O48: USB.WRITE and BUS.OUT stay within the room there is; every other step leaves, shortens or empties the
FIFOs. -/
theorem stepKeepsFifoBounds : Obligations.StepKeepsFifoBounds := fun _ _ hs h =>
  step_keeps (fun _ _ _ _ h => h) (fun _ _ _ => exec_keeps_fifoInv) (fun m _ => runMove_keeps_fifoInv m) hs h

end Sys2Proof.Safety
end

section
/-! The queue as a list of frames, and five enqueues in a row (10_state.md R17, 43_sample_queue.md R101 to R104). -/

namespace Sys2Proof.Safety

open Sys2Proof.Machine

variable {s t : State}

theorem QueueInv.frames_qEnq (hs : QueueInv s) (h : exec .qEnq s = .next t) (hc : s.q.count.val < 4) :
    t.q.frames = s.q.frames ++ [snapshot s] := by
  obtain ⟨-, ⟨q, he, rfl⟩ | ⟨he, -⟩⟩ := exec_qEnq_next.mp h
  · exact SampleQueue.frames_enq hs.1 he
  · rw [SampleQueue.enq_eq_none] at he
    exact absurd hc (by simp [he])

theorem frames_qEnq_full (h : exec .qEnq s = .next t) (hc : s.q.count.val = 4) : t.q.frames = s.q.frames := by
  obtain ⟨-, ⟨q, he, -⟩ | ⟨-, rfl⟩⟩ := exec_qEnq_next.mp h
  · exact absurd (Fin.ext hc) (SampleQueue.enq_eq_some.mp he).1
  · rfl

/-- Q.DEQ on a queue that holds a frame removes and delivers the first. -/
theorem frames_qDeq {f : CapsenseFrame} {fs : List CapsenseFrame} (h : exec .qDeq s = .next t) (hf : s.q.frames = f :: fs) :
    t.q.frames = fs ∧ t.port.data = f.bytes := by
  obtain ⟨-, ⟨g, q, he, rfl⟩ | ⟨he, -⟩⟩ := exec_qDeq_next.mp h
  · rw [SampleQueue.frames_deq he, List.cons.injEq] at hf
    obtain ⟨rfl, rfl⟩ := hf
    exact ⟨rfl, rfl⟩
  · have hlen := congrArg List.length hf
    rw [SampleQueue.frames_length, SampleQueue.deq_eq_none.mp he] at hlen
    exact nomatch hlen

/-- Settles O21: the ring's laws, read off the two commands. -/
theorem ringIsAFifo : Obligations.RingIsAFifo := fun _ _ hs => ⟨hs.frames_qEnq, frames_qEnq_full, fun h _ _ => frames_qDeq h⟩

/-- With room left, Q.ENQ completes and the queue holds one frame more; the filters stay. -/
theorem exec_qEnq_room (hs : s.q.split = true) (hc : s.q.count.val < 4) : ∃ t, exec .qEnq s = .next t ∧
    t.q.split = true ∧ t.q.count.val = s.q.count.val + 1 ∧ snapshot t = snapshot s := by
  have h4 : s.q.count ≠ 4 := fun h => by simp [h] at hc
  refine ⟨_, exec_qEnq_next.mpr ⟨hs, .inl ⟨_, SampleQueue.enq_eq_some.mpr ⟨h4, rfl⟩, rfl⟩⟩, hs, ?_, rfl⟩
  simp only [State.deliver_q, Config.qcap_eq, Fin.val_add, Fin.val_one]
  omega

/-- As many Q.ENQ as there is room all complete. -/
theorem execAll_qEnq_room (is : List Instr) (k : Nat) (hs : s.q.split = true) (hc : s.q.count.val + k ≤ 4) :
    ∃ t, execAll (List.replicate k .qEnq ++ is) s = execAll is t ∧ t.q.split = true ∧
      t.q.count.val = s.q.count.val + k ∧ snapshot t = snapshot s := by
  induction k generalizing s with
  | zero => exact ⟨s, rfl, hs, rfl, rfl⟩
  | succ k ih =>
    obtain ⟨u, hu, husplit, hucount, husnap⟩ := exec_qEnq_room hs (by omega)
    obtain ⟨t, ht, htsplit, htcount, htsnap⟩ := ih husplit (by omega)
    exact ⟨t, (execAll_cons hu).trans ht, htsplit, by omega, htsnap.trans husnap⟩

/-- On four frames, Q.ENQ answers QueueFull and hands the snapshot back. -/
theorem exec_qEnq_full (hs : s.q.split = true) (hc : s.q.count.val = 4) :
    exec .qEnq s = .next (s.deliver (errorWord 5) (snapshot s).bytes) :=
  exec_qEnq_next.mpr ⟨hs, .inr ⟨SampleQueue.enq_eq_none.mpr (Fin.ext hc), rfl⟩⟩

/-- Settles O22: four enqueues find room, the fifth a full queue, which Q.LEN then counts. -/
theorem fifthEnqueueFails : Obligations.FifthEnqueueFails := by
  unfold Obligations.FifthEnqueueFails
  intro s hs hc
  obtain ⟨u, hu, husplit, hucount, husnap⟩ := execAll_qEnq_room [.qEnq] 4 hs (by simp [hc])
  have hu4 : u.q.count.val = 4 := by simpa [hc] using hucount
  have hfull := exec_qEnq_full husplit hu4
  refine ⟨_, hu.trans (execAll_cons hfull), rfl, by rw [State.deliver_data, husnap], _, exec_qLen_next.mpr rfl, ?_⟩
  rw [State.deliver_res, State.deliver_q, hu4, resultWord_ok]
  rfl

end Sys2Proof.Safety
end

section
/-! The registers as sums of their fields (10_state.md R22 to R37). -/

namespace Sys2Proof.Safety

open Sys2Proof.Machine

variable (s : State)

/-- Fields put side by side, as a number: the upper one stands at the width of the lower one. -/
theorem toNat_append_add {m n : Nat} (x : BitVec m) (y : BitVec n) : (x ++ y).toNat = x.toNat * 2 ^ n + y.toNat := by
  rw [BitVec.toNat_append, ← Nat.shiftLeft_add_eq_or_of_lt y.isLt, Nat.shiftLeft_eq]

@[simp] theorem flagBit_toNat (b : Bool) : (flagBit b).toNat = b.toNat := by cases b <;> rfl

@[simp] theorem channelBit_toNat (ch : Channel) : (channelBit ch).toNat = if ch = .B then 1 else 0 := by cases ch <;> rfl

theorem regPhyCtrl_toNat : (regPhyCtrl s).toNat = s.phy.oscsel.toNat + 2 * s.phy.calen.toNat + 4 * s.phy.clkrec.toNat +
    8 * s.phy.clksel.toNat + 16 * s.phy.lpdis.toNat + 32 * s.phy.phyen.toNat := by
  simp only [regPhyCtrl, toNat_append_add, flagBit_toNat, BitVec.ofNat_eq_ofNat, BitVec.toNat_ofNat]
  omega

theorem regPhyStat_toNat : (regPhyStat s).toNat = s.phy.clkrdy.toNat := by
  simp only [regPhyStat, toNat_append_add, flagBit_toNat, BitVec.ofNat_eq_ofNat, BitVec.toNat_ofNat]
  omega

theorem regCoreRst_toNat : (regCoreRst s).toNat = s.usb.csrst.toNat + 2 ^ 31 * s.usb.ahbidle.toNat := by
  simp only [regCoreRst, toNat_append_add, flagBit_toNat, BitVec.ofNat_eq_ofNat, BitVec.toNat_ofNat]
  omega

theorem regCoreCfg_toNat : (regCoreCfg s).toNat = s.usb.trdtim.toNat + 16 * s.usb.trdset.toNat := by
  simp only [regCoreCfg, toNat_append_add, flagBit_toNat, BitVec.ofNat_eq_ofNat, BitVec.toNat_ofNat]
  omega

theorem regIntSts_toNat : (regIntSts s).toNat = s.usb.ints.toNat := by
  simp only [regIntSts, toNat_append_add, BitVec.ofNat_eq_ofNat, BitVec.toNat_ofNat]
  omega

theorem regIntMsk_toNat : (regIntMsk s).toNat = s.usb.intm.toNat := by
  simp only [regIntMsk, toNat_append_add, BitVec.ofNat_eq_ofNat, BitVec.toNat_ofNat]
  omega

theorem regCoreCtl_toNat : (regCoreCtl s).toNat = s.usb.ginten.toNat + 2 * s.usb.sftdiscon.toNat := by
  simp only [regCoreCtl, toNat_append_add, flagBit_toNat, BitVec.ofNat_eq_ofNat, BitVec.toNat_ofNat]
  omega

theorem regDevAddr_toNat : (regDevAddr s).toNat = s.usb.addr.toNat := by
  simp only [regDevAddr, toNat_append_add, BitVec.ofNat_eq_ofNat, BitVec.toNat_ofNat]
  omega

theorem regEp0Ctl_toNat : (regEp0Ctl s).toNat = s.usb.stall.out.toNat + 2 * s.usb.stall.inn.toNat := by
  simp only [regEp0Ctl, toNat_append_add, flagBit_toNat, BitVec.ofNat_eq_ofNat, BitVec.toNat_ofNat]
  omega

theorem regEp0Rxsize_toNat : (regEp0Rxsize s).toNat = s.usb.rxsize.toNat := by
  simp only [regEp0Rxsize, toNat_append_add, BitVec.ofNat_eq_ofNat, BitVec.toNat_ofNat]
  omega

/-- Counts within the FIFOs' capacity fit their nine bits. -/
theorem regFifoStat_toNat (h : FifoInv s) : (regFifoStat s).toNat = s.usb.txf.length + 2 ^ 16 * s.usb.rxf.length := by
  obtain ⟨htx, hrx, -⟩ := h
  simp only [regFifoStat, toNat_append_add, BitVec.ofNat_eq_ofNat, BitVec.toNat_ofNat]
  omega

theorem regDrvStat_toNat : (regDrvStat s).toNat = s.usb.ctrlAlloc.out.toNat + 2 * s.usb.ctrlAlloc.inn.toNat +
    4 * s.usb.next.out.val + 16 * s.usb.next.inn.val + 64 * s.usb.pend.out.toNat + 128 * s.usb.pend.inn.toNat := by
  have hout : s.usb.next.out.val < 4 := s.usb.next.out.isLt
  have hinn : s.usb.next.inn.val < 4 := s.usb.next.inn.isLt
  simp only [regDrvStat, toNat_append_add, flagBit_toNat, BitVec.ofNat_eq_ofNat, BitVec.toNat_ofNat]
  omega

theorem regEnStat_toNat : (regEnStat s).toNat = s.usb.enStep.val + 16 * s.usb.enBusy.toNat := by
  simp only [regEnStat, toNat_append_add, flagBit_toNat, BitVec.ofNat_eq_ofNat, BitVec.toNat_ofNat]
  omega

theorem regCapStat_toNat : (regCapStat s).toNat = (if s.cap.ch = .B then 1 else 0) +
    2 * (match s.cap.phase with | .idle => 0 | .measuring => 1 | .captured => 2) +
    8 * (if s.cap.mux = .B then 1 else 0) + 16 * s.cap.ttRun.toNat + 32 * s.cap.toRun.toNat + 64 * s.cap.ovf.toNat := by
  have hphase : (phaseBits s.cap.phase).toNat =
      match s.cap.phase with | .idle => 0 | .measuring => 1 | .captured => 2 := by cases s.cap.phase <;> rfl
  simp only [regCapStat, toNat_append_add, flagBit_toNat, channelBit_toNat, BitVec.ofNat_eq_ofNat, BitVec.toNat_ofNat, hphase]
  omega

theorem regCapCnt_toNat : (regCapCnt s).toNat = s.cap.cnt.toNat := by
  simp only [regCapCnt, toNat_append_add, BitVec.ofNat_eq_ofNat, BitVec.toNat_ofNat]
  omega

theorem regQStat_toNat : (regQStat s).toNat =
    s.q.count.val + 8 * s.q.split.toNat + 16 * s.q.head.val + 64 * s.q.tail.val := by
  have hcount : s.q.count.val < 5 := s.q.count.isLt
  have hhead : s.q.head.val < 4 := s.q.head.isLt
  have htail : s.q.tail.val < 4 := s.q.tail.isLt
  simp only [regQStat, toNat_append_add, flagBit_toNat, BitVec.ofNat_eq_ofNat, BitVec.toNat_ofNat]
  omega

/-- A register is read off its number. -/
theorem some_eq_of_toNat {v : Word} {n : Nat} (h : v.toNat = n) : some v = some (BitVec.ofNat 32 n) := by simp [← h]

/-- Settles O42: each register's number is the sum of its fields at their places. -/
theorem registersHoldTheirFields : Obligations.RegistersHoldTheirFields := fun s =>
  ⟨some_eq_of_toNat (regPhyCtrl_toNat s), some_eq_of_toNat (regPhyStat_toNat s), some_eq_of_toNat (regCoreRst_toNat s),
    some_eq_of_toNat (regCoreCfg_toNat s), some_eq_of_toNat (regIntSts_toNat s), some_eq_of_toNat (regIntMsk_toNat s),
    some_eq_of_toNat (regCoreCtl_toNat s), some_eq_of_toNat (regDevAddr_toNat s), some_eq_of_toNat (regEp0Ctl_toNat s),
    rfl, some_eq_of_toNat (regEp0Rxsize_toNat s), fun h => some_eq_of_toNat (regFifoStat_toNat s h),
    some_eq_of_toNat (regDrvStat_toNat s), some_eq_of_toNat (regEnStat_toNat s), some_eq_of_toNat (regCapStat_toNat s),
    some_eq_of_toNat (regCapCnt_toNat s), some_eq_of_toNat (regQStat_toNat s)⟩

end Sys2Proof.Safety
end

section
/-! The derived signals (10_state.md R39, 60_exceptions.md R175, R176, 45_usb_fifo.md R150). -/

namespace Sys2Proof.Safety

open Sys2Proof.Machine

variable {s : State}

/-- Some flag of a mask is set exactly when one bit is 1 in both. -/
theorem anyFlag_iff {ints mask : BitVec 4} :
    anyFlag ints mask = true ↔ ∃ k, k < 4 ∧ ints.getLsbD k = true ∧ mask.getLsbD k = true := by
  revert ints mask
  decide

theorem irqUsb_iff : irqUsb s = true ↔
    s.usb.ginten = true ∧ ∃ k, k < 4 ∧ s.usb.ints.getLsbD k = true ∧ s.usb.intm.getLsbD k = true := by
  rw [irqUsb, Bool.and_eq_true, anyFlag_iff]

/-- Before the link is functional the global line is masked (70_reset_and_hazards.md R207). -/
theorem LinkInv.irqUsb_low (h : LinkInv s) (hl : s.usb.linkOk = false) : irqUsb s = false := by
  obtain ⟨-, -, hginten, -⟩ := h
  simp [irqUsb, hginten, hl]

theorem presented_iff : presented s = true ↔ s.usb.linkOk = true ∧ s.usb.sftdiscon = false := by
  rw [presented, Bool.and_eq_true, Bool.not_eq_true']

theorem addr_toNat_eq_zero : s.usb.addr.toNat = 0 ↔ s.usb.addr = 0 := BitVec.toNat_inj (y := 0)

/-- The session phases exclude each other. -/
theorem sessionPhase_cases (s : State) :
    (presented s = false ∧ sessionPhase s = .detached) ∨
    (presented s = true ∧ s.usb.addr.toNat = 0 ∧ sessionPhase s = .default) ∨
    (presented s = true ∧ s.usb.addr.toNat ≠ 0 ∧ sessionPhase s = .addressed) := by
  rw [Ne, addr_toNat_eq_zero, sessionPhase]
  cases presented s with
  | false => exact .inl ⟨rfl, rfl⟩
  | true =>
    by_cases ha : s.usb.addr = 0
    · exact .inr (.inl ⟨rfl, ha, if_pos ha⟩)
    · exact .inr (.inr ⟨rfl, ha, if_neg ha⟩)

/-- Settles O55: the lines bit by bit, the phases by their three cases. -/
theorem derivedSignals : Obligations.DerivedSignals := by
  unfold Obligations.DerivedSignals
  intro s
  refine ⟨irqUsb_iff, Iff.rfl, LinkInv.irqUsb_low, presented_iff, ?_⟩
  rcases sessionPhase_cases s with ⟨hp, hph⟩ | ⟨hp, ha, hph⟩ | ⟨hp, ha, hph⟩
  · simp [hp, hph]
  · simp [hp, ha, hph]
  · simp [hp, ha, hph]

end Sys2Proof.Safety
end

section
/-! A step that runs a command, seen as the meaning of that command on the request handed over (10_state.md R38,
60_exceptions.md R173, R184). -/

namespace Sys2Proof.Machine

open Sys2Proof.Safety

variable {s : State} {c : Context} {w : Word} {buf : Memory} {i : Instr}

/-- The waiting command of a context that may act runs once its context does. -/
theorem step_waitingCommand {rest : List Stimulus} (hi : s.inputs = .cmd c w buf :: rest) (hm : mayAct c s = true) :
    step s = runCommand c w buf { s with inputs := rest, host := { s.host with active := entered c s } } := by
  simp only [step, advance, hi, ready, actor, hm, if_true, runStimulus, enterActor, enterContext_eq]
  rfl

/-- The running context's own command runs when the host goes on, no handler is due and nothing hangs. -/
theorem step_ownCommand {rest : List Stimulus} {more : List HandlerStep} {below : List Activation}
    (hi : s.inputs = .turn :: rest ∨ s.inputs = [] ∧ rest = []) (hd : NoneDue s) (hh : hung s = false)
    (ha : s.host.active = ⟨c, .cmd w buf :: more⟩ :: below) :
    step s = runCommand c w buf { s with inputs := rest, host := { s.host with active := ⟨c, more⟩ :: below } } := by
  have hd' : due { s with inputs := rest } = none := due_eq_none.mpr hd
  have hh' : hung { s with inputs := rest } = false := hh
  rw [step_hostTurn hi, hostTurn, hd']
  simp only [hh', pendingSteps, running, ha, dropStep_eq, dropped, List.tail_cons, Bool.false_eq_true, if_false]

theorem runCommand_reserved (h : ∀ i, decode w ≠ .ok i) : runCommand c w buf s = .refused .illegalCommand := by
  unfold runCommand
  split
  · rfl
  · exact absurd ‹_› (h _)

theorem runCommand_notOwner (hd : decode w = .ok i) (ho : ownsPort c i s = false) :
    runCommand c w buf s = .refused (.hostProtocol .notOwner) := by simp [runCommand, hd, ho, breach]

theorem runCommand_owner (hd : decode w = .ok i) (ho : ownsPort c i s = true) :
    runCommand c w buf s = exec i (latchRequest c w buf (noteIssue c i s)) := by simp [runCommand, hd, ho]

end Sys2Proof.Machine

namespace Sys2Proof.Safety

open Sys2Proof.Machine

/-- Settles O5: both kinds of step are `runCommand` with the context running, and `runCommand` has three cases. -/
theorem stepRunsTheDecodedCommand : Obligations.StepRunsTheDecodedCommand := by
  unfold Obligations.StepRunsTheDecodedCommand
  intro s c w buf rest fs hcase
  obtain ⟨hrun, hstep⟩ : running { s with host := { s.host with active := fs } } = c ∧
      step s = runCommand c w buf { s with inputs := rest, host := { s.host with active := fs } } := by
    rcases hcase with ⟨hi, hm, rfl⟩ | ⟨hi, hd, hh, more, below, ha, rfl⟩
    · exact ⟨running_entered c s, step_waitingCommand hi hm⟩
    · exact ⟨rfl, step_ownCommand hi hd hh ha⟩
  refine ⟨hrun, hstep, fun hd => hstep.trans (runCommand_reserved hd), fun i hd ho => ?_, fun i hd ho => ?_⟩
  · exact hstep.trans (runCommand_notOwner hd (by rw [ownsPort_host, ho]))
  · rw [hstep, runCommand_owner hd (by rw [ownsPort_host, ho]), noteIssue_eq, latchRequest]

end Sys2Proof.Safety
end

section
/-! The canonical form of BUF, of the buffers that wait and of the handlers' own (20_memory.md R44, log 8): a command hands
over a buffer that waited, USB.READ alone writes BUF, and a handler's own buffers are empty or a report. -/

namespace Sys2Proof.Safety

open Sys2Proof.Machine

variable {s t : State}

/-! ### Waiting and own buffers -/

/-- Every buffer that waits to be handed over is in canonical form. -/
def WaitingBuffersOk (xs : List Stimulus) : Prop := ∀ c w b, Stimulus.cmd c w b ∈ xs → Memory.wf b

/-- Every buffer of a handler's steps is in canonical form. -/
def StepBuffersOk (todo : List HandlerStep) : Prop := ∀ w b, HandlerStep.cmd w b ∈ todo → Memory.wf b

/-- Every buffer the contexts at work have yet to hand over is in canonical form. -/
def OwnBuffersOk (fs : List Activation) : Prop := ∀ a ∈ fs, StepBuffersOk a.todo

theorem memoryInv_iff (s : State) :
    MemoryInv s ↔ Memory.wf s.port.buf ∧ WaitingBuffersOk s.inputs ∧ OwnBuffersOk s.host.active := Iff.rfl

theorem WaitingBuffersOk.suffix {xs ys : List Stimulus} (h : WaitingBuffersOk ys) (hx : xs <:+ ys) : WaitingBuffersOk xs :=
  fun c w b hb => h c w b (hx.subset hb)

theorem StepBuffersOk.nil : StepBuffersOk [] := nofun

theorem StepBuffersOk.append {xs ys : List HandlerStep} (hx : StepBuffersOk xs) (hy : StepBuffersOk ys) :
    StepBuffersOk (xs ++ ys) := fun w b hb => (List.mem_append.mp hb).elim (hx w b) (hy w b)

theorem StepBuffersOk.tail {xs : List HandlerStep} (h : StepBuffersOk xs) : StepBuffersOk xs.tail :=
  fun w b hb => h w b (List.mem_of_mem_tail hb)

theorem OwnBuffersOk.cons {a : Activation} {fs : List Activation} (ha : StepBuffersOk a.todo) (h : OwnBuffersOk fs) :
    OwnBuffersOk (a :: fs) := List.forall_mem_cons.mpr ⟨ha, h⟩

/-! ### The handlers' expansions -/

theorem StepBuffersOk.cons_issue {i : Instr} {buf : Memory} {todo : List HandlerStep} (hbuf : Memory.wf buf)
    (h : StepBuffersOk todo) : StepBuffersOk (.issue i buf :: todo) := by
  rintro w b (_ | ⟨_, hb⟩)
  · exact hbuf
  · exact h w b hb

theorem StepBuffersOk.pendUsb : StepBuffersOk [.pendUsb] := by simp [StepBuffersOk]

theorem StepBuffersOk.reportIfConfigured : StepBuffersOk [.reportIfConfigured] := by simp [StepBuffersOk]

theorem stepBuffersOk_usbIsr : StepBuffersOk usbIsr := .cons_issue Memory.wf_nil .nil

theorem stepBuffersOk_timerIsr : StepBuffersOk timerIsr :=
  .cons_issue Memory.wf_nil (.cons_issue Memory.wf_nil (.cons_issue Memory.wf_nil .pendUsb))

theorem stepBuffersOk_rtcIsr : StepBuffersOk rtcIsr := .cons_issue Memory.wf_nil .reportIfConfigured

theorem hidReport_wf (usage : Half) : Memory.wf (hidReport usage) := Memory.writeBytes_wf 0 _ Memory.wf_nil

theorem stepBuffersOk_rtcReport (latch : Bool) : StepBuffersOk (rtcReport latch) := .cons_issue (hidReport_wf _) .pendUsb

/-! ### Who is at work -/

theorem OwnBuffersOk.entered (h : OwnBuffersOk s.host.active) (c : Context) : OwnBuffersOk (entered c s) := by
  unfold Machine.entered
  split
  · exact h
  · exact h.cons .nil

theorem OwnBuffersOk.dropped {fs : List Activation} (h : OwnBuffersOk fs) : OwnBuffersOk (dropped fs) := by
  cases fs with
  | nil => exact h
  | cons a below =>
    obtain ⟨ha, hbelow⟩ := List.forall_mem_cons.mp h
    exact OwnBuffersOk.cons ha.tail hbelow

theorem OwnBuffersOk.added {steps : List HandlerStep} {fs : List Activation} (hsteps : StepBuffersOk steps)
    (h : OwnBuffersOk fs) : OwnBuffersOk (added steps fs) := by
  cases fs with
  | nil => exact h
  | cons a below =>
    obtain ⟨ha, hbelow⟩ := List.forall_mem_cons.mp h
    exact OwnBuffersOk.cons (hsteps.append ha) hbelow

theorem OwnBuffersOk.pendingSteps (h : OwnBuffersOk s.host.active) : StepBuffersOk (pendingSteps s) := by
  unfold Machine.pendingSteps
  split
  · exact .nil
  · rename_i a below ha
    exact h a (by simp [ha])

/-- An act of the host beside issuing commands changes nobody's steps. -/
theorem runHostAct_active {a : HostAct} (h : runHostAct a s = .next t) : t.host.active = s.host.active := by
  cases a with
  | lock c =>
    simp only [runHostAct, breach] at h
    split at h
    · exact nomatch h
    · exact next_eq_next.mp h ▸ rfl
  | unlock c =>
    simp only [runHostAct, breach] at h
    split at h
    · exact next_eq_next.mp h ▸ rfl
    · exact nomatch h
  | pendUsb => exact next_eq_next.mp h ▸ rfl
  | rtcMatch => exact next_eq_next.mp h ▸ rfl
  | setConfigured b => exact next_eq_next.mp h ▸ rfl

/-! ### Commands and moves -/

/-- A command leaves BUF as it was handed over, or it is USB.READ, which writes bytes from index 0 on (20_memory.md R44,
45_usb_fifo.md R143). -/
theorem exec_buf {i : Instr} (h : exec i s = .next t) : t.port.buf = s.port.buf ∨
    (∃ d n len, i = .usbRead d n len) ∧ ∃ bs, t.port.buf = Memory.writeBytes s.port.buf 0 bs := by
  cases i with
  | capMeasure => obtain ⟨-, rfl⟩ := exec_capMeasure_next.mp h; exact .inl rfl
  | capCapture => obtain ⟨-, -, rfl⟩ := exec_capCapture_next.mp h; exact .inl rfl
  | tmrAck => obtain rfl := exec_tmrAck_next.mp h; exact .inl rfl
  | sysRdreg => obtain ⟨v, -, rfl⟩ := exec_sysRdreg_next.mp h; exact .inl rfl
  | fltPush => obtain rfl := exec_fltPush_next.mp h; exact .inl rfl
  | fltRaw => obtain rfl := exec_fltRaw_next.mp h; exact .inl rfl
  | fltMean => obtain rfl := exec_fltMean_next.mp h; exact .inl rfl
  | fltMax => obtain rfl := exec_fltMax_next.mp h; exact .inl rfl
  | qSplit => obtain ⟨-, rfl⟩ := exec_qSplit_next.mp h; exact .inl rfl
  | qEnq => obtain ⟨-, ⟨q, -, rfl⟩ | ⟨-, rfl⟩⟩ := exec_qEnq_next.mp h <;> exact .inl rfl
  | qDeq => obtain ⟨-, ⟨f, q, -, rfl⟩ | ⟨-, rfl⟩⟩ := exec_qDeq_next.mp h <;> exact .inl rfl
  | qLen => obtain rfl := exec_qLen_next.mp h; exact .inl rfl
  | usbEnable =>
    obtain ⟨-, rfl⟩ := exec_usbEnable_next.mp h
    obtain ⟨-, -, -, -, -, hbuf, -⟩ := enableRun_frame 16 (enableStart s)
    exact .inl hbuf
  | usbReset => obtain ⟨-, rfl⟩ := exec_usbReset_next.mp h; exact .inl rfl
  | usbAlloc =>
    obtain ⟨-, ⟨-, -, rfl⟩ | ⟨-, -, rfl⟩ | ⟨-, -, rfl⟩ | ⟨-, -, rfl⟩⟩ := exec_usbAlloc_next.mp h <;> exact .inl rfl
  | usbWrite => obtain ⟨-, ⟨-, rfl⟩ | ⟨-, -, rfl⟩ | ⟨-, -, -, rfl⟩⟩ := exec_usbWrite_next.mp h <;> exact .inl rfl
  | usbRead d n len =>
    obtain ⟨-, ⟨-, rfl⟩ | ⟨-, -, rfl⟩ | ⟨-, -, rfl⟩⟩ := exec_usbRead_next.mp h
    · exact .inl rfl
    · exact .inl rfl
    · exact .inr ⟨⟨d, n, len, rfl⟩, _, rfl⟩
  | usbSetaddr => obtain ⟨-, rfl⟩ := exec_usbSetaddr_next.mp h; exact .inl rfl
  | usbSetstall => obtain ⟨-, rfl⟩ := exec_usbSetstall_next.mp h; exact .inl rfl
  | usbIsstalled => obtain ⟨-, rfl⟩ := exec_usbIsstalled_next.mp h; exact .inl rfl
  | usbPoll => obtain ⟨-, rfl⟩ := exec_usbPoll_next.mp h; split <;> exact .inl rfl

theorem exec_keeps_buf_wf {i : Instr} (hs : Memory.wf s.port.buf) (h : exec i s = .next t) : Memory.wf t.port.buf := by
  rcases exec_buf h with hbuf | ⟨-, bs, hbuf⟩
  · exact hbuf ▸ hs
  · exact hbuf ▸ Memory.writeBytes_wf 0 bs hs

/-- A command that runs on the buffer handed over with it. -/
theorem exec_latched_keeps_memoryInv {i : Instr} {c : Context} {w : Word} {buf : Memory} (hbuf : Memory.wf buf)
    (hs : MemoryInv s) (h : exec i (latchRequest c w buf (noteIssue c i s)) = .next t) : MemoryInv t := by
  obtain ⟨-, hwait, hown⟩ := (memoryInv_iff s).mp hs
  obtain ⟨hhost, hinputs⟩ := exec_host_inputs h
  rw [memoryInv_iff, hhost, hinputs, latchRequest_host, latchRequest_inputs, noteIssue_active, noteIssue_inputs]
  exact ⟨exec_keeps_buf_wf (s := latchRequest c w buf (noteIssue c i s)) hbuf h, hwait, hown⟩

/-- The sequencer going on leaves BUF, the host's side and what waits. -/
theorem enableResume_buf_host_inputs (s : State) : (enableResume s).port.buf = s.port.buf ∧
    (enableResume s).host = s.host ∧ (enableResume s).inputs = s.inputs := by
  unfold enableResume
  split
  · obtain ⟨-, -, -, hhost, hinputs, hbuf, -⟩ := enableRun_frame 16 s
    exact ⟨hbuf, hhost, hinputs⟩
  · exact ⟨rfl, rfl, rfl⟩

/-- A move leaves BUF and the host's side, except that a hardware reset empties BUF and puts nobody at work. -/
theorem runMove_keeps_memoryInv (m : EnvMove) (hs : MemoryInv s) : MemoryInv (runMove m s) := by
  obtain ⟨-, hwait, -⟩ := (memoryInv_iff s).mp hs
  unfold runMove
  split
  · obtain ⟨hbuf, hhost, hinputs⟩ := enableResume_buf_host_inputs (m.effect s)
    rw [memoryInv_iff, hbuf, hhost, hinputs]
    cases m with
    | hardwareReset => exact ⟨Memory.wf_nil, hwait, nofun⟩
    | _ => exact hs
  · exact hs

/-! ### The host going on -/

theorem MemoryInv.enterActor (hs : MemoryInv s) (x : Stimulus) : MemoryInv (enterActor x s) := by
  obtain ⟨hbuf, hwait, hown⟩ := (memoryInv_iff s).mp hs
  rw [enterActor_eq]
  refine ⟨hbuf, hwait, ?_⟩
  cases actor x with
  | none => exact hown
  | some c => exact hown.entered c

/-- A handler starts with the buffers of its expansion. -/
theorem MemoryInv.startHandler (hs : MemoryInv s) (c : Context) : MemoryInv (startHandler c s) := by
  obtain ⟨hbuf, hwait, hown⟩ := (memoryInv_iff s).mp hs
  cases c with
  | idle => exact hs
  | usb => exact ⟨hbuf, hwait, hown.cons stepBuffersOk_usbIsr⟩
  | timer => exact ⟨hbuf, hwait, hown.cons stepBuffersOk_timerIsr⟩
  | rtc => exact ⟨hbuf, hwait, hown.cons stepBuffersOk_rtcIsr⟩

/-- The buffer the RTC handler adds is its report. -/
theorem MemoryInv.reportIfConfigured (hs : MemoryInv s) : MemoryInv (reportIfConfigured s) := by
  obtain ⟨hbuf, hwait, hown⟩ := (memoryInv_iff s).mp hs
  rw [reportIfConfigured_eq]
  refine ⟨hbuf, hwait, ?_⟩
  split
  · exact hown.added (stepBuffersOk_rtcReport _)
  · exact hown

theorem MemoryInv.endHandler (hs : MemoryInv s) : MemoryInv (endHandler s) := by
  obtain ⟨hbuf, hwait, hown⟩ := (memoryInv_iff s).mp hs
  unfold Machine.endHandler
  split
  · exact hs
  · exact ⟨hbuf, hwait, fun a ha => hown a (List.mem_of_mem_tail ha)⟩

theorem MemoryInv.runHostAct {a : HostAct} (hs : MemoryInv s) (h : runHostAct a s = .next t) : MemoryInv t := by
  obtain ⟨hbuf, hwait, hown⟩ := (memoryInv_iff s).mp hs
  have hactive := runHostAct_active h
  obtain ⟨k, rfl⟩ := runHostAct_eq h
  exact ⟨hbuf, hwait, hactive ▸ hown⟩

/-- Settles O51: by what a step can be; only USB.READ writes BUF, byte by byte, and only a starting or reporting handler
brings buffers of its own. -/
theorem stepKeepsMemoryCanonical : Obligations.StepKeepsMemoryCanonical := by
  unfold Obligations.StepKeepsMemoryCanonical
  intro s t hs h
  obtain ⟨hbuf, hwait, hown⟩ := (memoryInv_iff s).mp hs
  have hrest {xs fs} (hx : xs <:+ s.inputs) (hfs : OwnBuffersOk fs) :
      MemoryInv { s with inputs := xs, host := { s.host with active := fs } } := ⟨hbuf, hwait.suffix hx, hfs⟩
  cases step_to h with
  | move m rest hi => exact runMove_keeps_memoryInv m (hrest (hi ▸ List.suffix_cons _ _) hown)
  | command c w buf rest i _ hi _ _ _ he =>
    exact exec_latched_keeps_memoryInv (hwait c w buf (by simp [hi]))
      (hrest (hi ▸ List.suffix_cons _ _) (hown.entered c)) he
  | ownCommand w buf more xs i _ _ _ hp hx _ _ _ he =>
    exact exec_latched_keeps_memoryInv (hown.pendingSteps w buf (by simp [hp])) (hrest hx hown.dropped) he
  | ownPend more xs _ _ _ hx => exact hrest hx hown.dropped
  | report more xs _ _ _ hx => exact (hrest hx hown.dropped).reportIfConfigured
  | start c xs _ hx => exact (hrest hx hown).startHandler c
  | finish xs _ _ _ hx => exact (hrest hx hown).endHandler
  | waits xs _ _ hx => exact hrest hx hown
  | act a rest _ hi _ he => exact ((hrest (hi ▸ List.suffix_cons _ _) hown).enterActor (.host a)).runHostAct he

end Sys2Proof.Safety
end

section
/-! The command word and its decoder: encode and decode undo each other, and the words the decoder accepts are those that
match a row of the opcode map (30_encoding.md R60, R61, R65, R66). -/

namespace Sys2Proof

/-! ### Operand fields -/

/-- A field's high bits are zero exactly when its number fits the low ones. -/
theorem high_eq_zero_iff {l k : Nat} {x : BitVec (k + l)} : x.extractLsb' l k = 0 ↔ x.toNat < 2 ^ l := by
  have hlt : x.toNat / 2 ^ l < 2 ^ k := Nat.div_lt_of_lt_mul (by simpa only [← pow_add, add_comm] using x.isLt)
  rw [← BitVec.toNat_inj, BitVec.extractLsb'_toNat, Nat.shiftRight_eq_div_pow, Nat.mod_eq_of_lt hlt]
  exact Nat.div_eq_zero_iff_lt (Nat.two_pow_pos l)

/-- A field whose high bits are zero is its low bits, widened. -/
theorem setWidth_low {l k : Nat} {x : BitVec (k + l)} (h : x.extractLsb' l k = 0) :
    (x.extractLsb' 0 l).setWidth (k + l) = x := by
  apply BitVec.eq_of_toNat_eq
  simp [Nat.mod_eq_of_lt (high_eq_zero_iff.mp h)]

/-- A mask of the high bits asks that they are zero, and nothing of the low ones. -/
theorem masked_high_iff {l k : Nat} {x m : BitVec (k + l)} (hhigh : m.extractLsb' l k = BitVec.allOnes k)
    (hlow : m.extractLsb' 0 l = 0) : x &&& m = 0 ↔ x.extractLsb' l k = 0 := by
  have hx : (x &&& m).extractLsb' l k = x.extractLsb' l k := by rw [BitVec.extractLsb'_and, hhigh, BitVec.and_allOnes]
  have hzero : (x &&& m).extractLsb' 0 l = 0 := by rw [BitVec.extractLsb'_and, hlow]; simp
  constructor
  · intro h
    rw [← hx, h]; simp
  · intro h
    rw [← BitVec.extractLsb'_append_extractLsb' (x := x &&& m), hx, h, hzero]; simp

theorem ofBool_beq_one : ∀ b : BitVec 1, BitVec.ofBool (b == 1#1) = b := by decide

theorem Fields.noOperands_iff {f : Fields} : f.noOperands = true ↔ f.dir = 0 ∧ f.z = 0 ∧ f.sel = 0 ∧ f.arg = 0 := by
  simp [Fields.noOperands, and_assoc]

theorem Fields.onlyChannel_iff {f : Fields} :
    f.onlyChannel = true ↔ f.dir = 0 ∧ f.z = 0 ∧ f.sel.extractLsb' 1 3 = 0 := by
  simp [Fields.onlyChannel, and_assoc]

theorem Fields.onlyArgByte_iff {f : Fields} :
    f.onlyArgByte = true ↔ f.dir = 0 ∧ f.z = 0 ∧ f.sel = 0 ∧ f.arg.extractLsb' 8 8 = 0 := by
  simp [Fields.onlyArgByte, and_assoc]

/-- The converse of `accept_eq_ok`. -/
theorem accept_ok {f : Fields} {zeros : Bool} {i j : Instr} (h : zeros = true) (hij : i = j) : accept f zeros i = .ok j :=
  hij ▸ if_pos h

theorem accept_isOk_iff {f : Fields} {zeros : Bool} {i : Instr} : (∃ j, accept f zeros i = .ok j) ↔ zeros = true :=
  ⟨fun ⟨_, h⟩ => (accept_eq_ok h).1, fun h => ⟨i, accept_ok h rfl⟩⟩

/-! ### Encode, then decode -/

/-- The zero bits of a command's row are zero in its fields, and an operand in range is read back as it was put in. -/
theorem decodeFields_encodeFields (i : Instr) (h : i.wf = true) : decodeFields (encodeFields i) = .ok i := by
  cases i with
  | capMeasure | capCapture | tmrAck | qSplit | qEnq | qDeq | qLen | usbEnable | usbReset | usbPoll => rfl
  | fltPush ch v | fltRaw ch | fltMean ch | fltMax ch =>
    exact accept_ok (by simp [encodeFields, Fields.onlyChannel]) (by simp [encodeFields])
  | sysRdreg regno =>
    have hr : regno < 256 := by simpa [Instr.wf] using h
    refine accept_ok (Fields.onlyArgByte_iff.mpr ⟨rfl, rfl, rfl, high_eq_zero_iff.mpr ?_⟩) ?_
    · simp [encodeFields]; omega
    · simp [encodeFields]; omega
  | usbAlloc d n | usbIsstalled d n =>
    have hn : n < 16 := by simpa [Instr.wf] using h
    exact accept_ok rfl (by simp [encodeFields, Nat.mod_eq_of_lt hn])
  | usbWrite d n len | usbRead d n len =>
    obtain ⟨hn, hlen⟩ : n < 16 ∧ len < 65536 := by simpa [Instr.wf] using h
    exact accept_ok rfl (by simp [encodeFields, Nat.mod_eq_of_lt hn, Nat.mod_eq_of_lt hlen])
  | usbSetaddr a =>
    refine accept_ok (Fields.onlyArgByte_iff.mpr ⟨rfl, rfl, rfl, high_eq_zero_iff.mpr ?_⟩) ?_
    · simp [encodeFields]; omega
    · simp [encodeFields, BitVec.extractLsb'_setWidth_of_le]
  | usbSetstall d n stalled =>
    have hn : n < 16 := by simpa [Instr.wf] using h
    cases stalled <;> exact accept_ok (by simp [encodeFields]) (by simp [encodeFields, Nat.mod_eq_of_lt hn])

/-- Settles O1: a word's fields are those of its command, and each row decodes from them. -/
theorem decodeOfEncode : Obligations.DecodeOfEncode := fun i h =>
  (decode_encode_fields i).trans (decodeFields_encodeFields i h)

theorem decode_of_encode_eq {w : Word} (i : Instr) (hwf : i.wf = true) (hw : encode i = w) : decode w = .ok i :=
  hw ▸ decodeOfEncode i hwf

/-- Settles O4: each is the word of its command. -/
theorem writtenWordsDecode : Obligations.WrittenWordsDecode := by
  unfold Obligations.WrittenWordsDecode
  refine ⟨?_, ?_, ?_, ?_, ?_, ?_, ?_, ?_, ?_, ?_⟩ <;> exact decode_of_encode_eq _ rfl rfl

/-! ### Decode, then encode -/

/-- By the rows of the map: the bits outside the operands are zero where the decoder accepts, and each operand is a whole
field or the low bits of one. -/
theorem decodeFields_eq_ok {f : Fields} {i : Instr} (h : decodeFields f = .ok i) : i.wf = true ∧ encodeFields i = f := by
  obtain ⟨op, dir, z, sel, arg⟩ := f
  unfold decodeFields at h
  split at h <;> rename_i hop
  case h_22 => exact nomatch h
  all_goals
    obtain rfl : op = _ := hop
    obtain ⟨hzeros, rfl⟩ := accept_eq_ok h
    clear h
  case h_1 | h_2 | h_3 | h_9 | h_10 | h_11 | h_12 | h_13 | h_14 | h_21 => -- no operands
    obtain ⟨rfl, rfl, rfl, rfl⟩ := Fields.noOperands_iff.mp hzeros
    exact ⟨rfl, rfl⟩
  case h_4 => -- SYS.RDREG
    obtain ⟨rfl, rfl, rfl, harg⟩ := Fields.onlyArgByte_iff.mp hzeros
    refine ⟨decide_eq_true (BitVec.isLt _), ?_⟩
    simp [encodeFields, -BitVec.extractLsb'_toNat, setWidth_low (l := 8) (k := 8) harg]
  case h_5 => -- FLT.PUSH
    obtain ⟨rfl, rfl, hsel⟩ := Fields.onlyChannel_iff.mp hzeros
    exact ⟨rfl, by simp [encodeFields, Channel.sel_ofSel sel hsel]⟩
  case h_6 | h_7 | h_8 => -- FLT.RAW, FLT.MEAN, FLT.MAX
    obtain ⟨hch, rfl⟩ : Fields.onlyChannel ⟨_, dir, z, sel, arg⟩ = true ∧ arg = 0 := by simpa using hzeros
    obtain ⟨rfl, rfl, hsel⟩ := Fields.onlyChannel_iff.mp hch
    exact ⟨rfl, by simp [encodeFields, Channel.sel_ofSel sel hsel]⟩
  case h_15 | h_20 => -- USB.ALLOC, USB.ISSTALLED
    obtain ⟨rfl, rfl⟩ : z = 0 ∧ arg = 0 := by simpa using hzeros
    exact ⟨decide_eq_true (BitVec.isLt _), by simp [encodeFields]⟩
  case h_16 | h_17 => -- USB.WRITE, USB.READ
    obtain rfl : z = 0 := by simpa using hzeros
    exact ⟨by simp [Instr.wf]; omega, by simp [encodeFields]⟩
  case h_18 => -- USB.SETADDR
    obtain ⟨rfl, rfl, rfl, harg⟩ := Fields.onlyArgByte_iff.mp hzeros
    exact ⟨rfl, by simp [encodeFields, setWidth_low (l := 8) (k := 8) harg]⟩
  case h_19 => -- USB.SETSTALL
    obtain ⟨rfl, harg⟩ : z = 0 ∧ arg.extractLsb' 1 15 = 0 := by simpa using hzeros
    refine ⟨decide_eq_true (BitVec.isLt _), ?_⟩
    simp [encodeFields, ofBool_beq_one, setWidth_low (l := 1) (k := 15) harg]

/-- Settles O2: the command's fields are those of the word, and they determine it. -/
theorem encodeOfDecode : Obligations.EncodeOfDecode := by
  unfold Obligations.EncodeOfDecode
  intro w i h
  obtain ⟨hwf, hfields⟩ := decodeFields_eq_ok h
  exact ⟨hwf, by rw [encode, hfields, Fields.toWord_ofWord]⟩

/-! ### The opcode map -/

/-- A mask and a pattern ask something of each field on its own. -/
theorem Fields.toWord_masked_iff {f : Fields} {m p : Word} : f.toWord &&& m = p ↔
    f.op &&& m.extractLsb' 24 8 = p.extractLsb' 24 8 ∧ f.dir &&& m.extractLsb' 23 1 = p.extractLsb' 23 1 ∧
    f.z &&& m.extractLsb' 20 3 = p.extractLsb' 20 3 ∧ f.sel &&& m.extractLsb' 16 4 = p.extractLsb' 16 4 ∧
    f.arg &&& m.extractLsb' 0 16 = p.extractLsb' 0 16 := by
  have hinj : f.toWord &&& m = p ↔ Fields.ofWord (f.toWord &&& m) = Fields.ofWord p :=
    ⟨congrArg _, fun h => by simpa using congrArg Fields.toWord h⟩
  have hf := f.ofWord_toWord
  obtain ⟨op, dir, z, sel, arg⟩ := f
  simp only [Fields.ofWord, Fields.mk.injEq] at hf
  obtain ⟨hop, hdir, hz, hsel, harg⟩ := hf
  simp only [hinj, Fields.ofWord, Fields.mk.injEq, BitVec.extractLsb'_and, hop, hdir, hz, hsel, harg]

theorem and_eq_self_of_full {n : Nat} {x m : BitVec n} (h : m = BitVec.allOnes n) : x &&& m = x := h ▸ BitVec.and_allOnes

theorem masked_channel_iff (sel : BitVec 4) : sel &&& 14#4 = 0#4 ↔ sel.extractLsb' 1 3 = 0#3 :=
  masked_high_iff (l := 1) (k := 3) rfl rfl

theorem masked_byte_iff (arg : BitVec 16) : arg &&& 65280#16 = 0#16 ↔ arg.extractLsb' 8 8 = 0#8 :=
  masked_high_iff (l := 8) (k := 8) rfl rfl

theorem masked_bit_iff (arg : BitVec 16) : arg &&& 65534#16 = 0#16 ↔ arg.extractLsb' 1 15 = 0#15 :=
  masked_high_iff (l := 1) (k := 15) rfl rfl

/-- What the rows of the map ask of a word's fields, by operand form (30_encoding.md R65). -/
theorem matches_row_iff (f : Fields) : (∃ r ∈ opcodeMap, f.toWord &&& r.mask = r.pattern) ↔
    f.op ∈ [0x01, 0x02, 0x04, 0x30, 0x31, 0x32, 0x33, 0x40, 0x41, 0x48] ∧ f.noOperands = true ∨
    f.op ∈ [0x0F, 0x45] ∧ f.onlyArgByte = true ∨
    f.op = 0x20 ∧ f.onlyChannel = true ∨
    f.op ∈ [0x21, 0x22, 0x23] ∧ f.onlyChannel = true ∧ f.arg = 0 ∨
    f.op ∈ [0x42, 0x47] ∧ f.z = 0 ∧ f.arg = 0 ∨
    f.op ∈ [0x43, 0x44] ∧ f.z = 0 ∨
    f.op = 0x46 ∧ f.z = 0 ∧ f.arg.extractLsb' 1 15 = 0 := by
  simp only [opcodeMap, opcodeRowsLow, opcodeRowsUsb, List.cons_append, List.nil_append, List.exists_mem_cons_iff,
    Fields.toWord_masked_iff, Fields.noOperands_iff, Fields.onlyChannel_iff, Fields.onlyArgByte_iff]
  simp [and_eq_self_of_full, masked_channel_iff, masked_byte_iff, masked_bit_iff, or_and_right, or_assoc]
  ac_nf

/-- By the decoder's rows, each of which is one row of the map. -/
theorem decodeFields_isOk_iff (f : Fields) :
    (∃ i, decodeFields f = .ok i) ↔ ∃ r ∈ opcodeMap, f.toWord &&& r.mask = r.pattern := by
  rw [matches_row_iff]
  unfold decodeFields
  split
  case h_22 => simp_all
  all_goals simp_all [accept_isOk_iff]

theorem decode_isOk_iff (w : Word) : (∃ i, decode w = .ok i) ↔ ∃ r ∈ opcodeMap, w &&& r.mask = r.pattern := by
  have h := decodeFields_isOk_iff (Fields.ofWord w)
  rwa [Fields.toWord_ofWord] at h

/-- Settles O3: a word decodes exactly when it matches a row, and a word that does not decode is refused. -/
theorem wordsOffTheMapAreReserved : Obligations.WordsOffTheMapAreReserved := by
  unfold Obligations.WordsOffTheMapAreReserved
  refine fun w => ⟨(decode_isOk_iff w).mpr, fun hoff c buf s => Machine.runCommand_reserved fun i hi => ?_⟩
  obtain ⟨r, hr, hmatch⟩ := (decode_isOk_iff w).mp ⟨i, hi⟩
  exact hoff r hr hmatch

end Sys2Proof
end

section
/-! A frame on DATA: 38 half-words, each at its place and low byte first, from which the frame can be read back
(30_encoding.md R64). -/

namespace Sys2Proof.Safety

open Sys2Proof.Machine

/-! ### What the bytes determine -/

theorem HalfAt.unique {data : List Byte} {k : Nat} {h h' : Half} (hh : HalfAt data k h)
    (hh' : HalfAt data k h') : h = h' := by
  obtain ⟨hlow, hhigh⟩ := hh
  obtain ⟨hlow', hhigh'⟩ := hh'
  rw [hlow, Option.some_inj, ← BitVec.toNat_inj] at hlow'
  rw [hhigh, Option.some_inj, ← BitVec.toNat_inj] at hhigh'
  simp only [BitVec.toNat_ofNat] at hlow' hhigh'
  apply BitVec.eq_of_toNat_eq
  omega

theorem FilterAt.unique {data : List Byte} {k : Nat} {f g : FilterState} (hf : FilterAt data k f) (hg : FilterAt data k g) :
    f = g := by
  obtain ⟨fhist, fcur, fmean, fmax⟩ := f
  obtain ⟨ghist, gcur, gmean, gmax⟩ := g
  obtain ⟨hhist, hcur, hmean, hmax⟩ := hf
  obtain ⟨hhist', hcur', hmean', hmax'⟩ := hg
  obtain rfl : fhist = ghist := Vector.ext fun i hi => (hhist ⟨i, hi⟩).unique (hhist' ⟨i, hi⟩)
  obtain rfl : fcur = gcur := by
    have h := congrArg BitVec.toNat (hcur.unique hcur')
    have hf : fcur.val < 16 := fcur.isLt
    have hg : gcur.val < 16 := gcur.isLt
    simp only [BitVec.toNat_ofNat] at h
    exact Fin.ext (by omega)
  obtain rfl := hmean.unique hmean'
  obtain rfl := hmax.unique hmax'
  rfl

/-! ### Where the bytes stand -/

theorem halfBytes_eq (h : Half) : halfBytes h = [BitVec.ofNat 8 h.toNat, BitVec.ofNat 8 (h.toNat / 256)] := by
  simp [halfBytes, BitVec.extractLsb', Nat.shiftRight_eq_div_pow]

theorem halfAt_flatMap {hs : List Half} {k : Nat} {h : Half} (hk : hs[k]? = some h) : HalfAt (hs.flatMap halfBytes) k h := by
  induction hs generalizing k with
  | nil => exact nomatch hk
  | cons a hs ih =>
    cases k with
    | zero =>
      obtain rfl : a = h := by simpa using hk
      constructor <;> simp [halfBytes_eq]
    | succ k => exact ih (by simpa using hk)

@[simp] theorem halves_length (f : FilterState) : f.halves.length = 19 := by simp [FilterState.halves]

/-- A filter whose half-words stand from `k` on among others. -/
theorem filterAt_flatMap {hs : List Half} {k : Nat} {f : FilterState} (h : ∀ j < 19, hs[k + j]? = f.halves[j]?) :
    FilterAt (hs.flatMap halfBytes) k f := by
  have hat {j : Nat} {v : Half} (hj : j < 19) (hv : f.halves[j]? = some v) : HalfAt (hs.flatMap halfBytes) (k + j) v :=
    halfAt_flatMap ((h j hj).trans hv)
  refine ⟨fun i => hat (by omega) ?_, hat (by omega) ?_, hat (by omega) ?_, hat (by omega) ?_⟩
  · simp [FilterState.halves, List.getElem?_append_left, Vector.get]
  all_goals simp [FilterState.halves]

theorem bytes_filterAt_a (f : CapsenseFrame) : FilterAt f.bytes 0 f.a :=
  filterAt_flatMap fun j hj => by rw [Nat.zero_add, List.getElem?_append_left (by simpa using hj)]

theorem bytes_filterAt_b (f : CapsenseFrame) : FilterAt f.bytes 19 f.b :=
  filterAt_flatMap fun j _ => by rw [List.getElem?_append_right (by simp)]; simp

theorem bytes_length (f : CapsenseFrame) : f.bytes.length = 76 := by
  simp [CapsenseFrame.bytes, halfBytes, List.length_flatMap]

theorem bytes_injective {f g : CapsenseFrame} (h : f.bytes = g.bytes) : f = g := by
  obtain ⟨fa, fb⟩ := f
  obtain ⟨ga, gb⟩ := g
  obtain rfl : fa = ga := (bytes_filterAt_a ⟨fa, fb⟩).unique (h ▸ bytes_filterAt_a ⟨ga, gb⟩)
  obtain rfl : fb = gb := (bytes_filterAt_b ⟨fa, fb⟩).unique (h ▸ bytes_filterAt_b ⟨fa, gb⟩)
  rfl

/-- Settles O23: each filter is read back from the places its half-words stand at. -/
theorem frameBytesAreFaithful : Obligations.FrameBytesAreFaithful := fun f _ =>
  ⟨bytes_length f, bytes_filterAt_a f, bytes_filterAt_b f, bytes_injective⟩

end Sys2Proof.Safety
end

section
/-! Who acts next: the due handler starts before any context acts and no other starts, and what a context may not do yet
waits (60_exceptions.md R178 to R182). -/

namespace Sys2Proof.Safety

open Sys2Proof.Machine

variable {s t : State} {c : Context} {x : Stimulus} {rest : List Stimulus}

/-! ### The due handler starts -/

/-- A due handler starts with its expansion to do, and nothing but the host's side changes. -/
theorem startHandler_started (hc : c ≠ .idle) (s : State) :
    ∃ k, startHandler c s = { s with host := k } ∧ Started c s k := by
  cases c with
  | idle => exact absurd rfl hc
  | usb | timer | rtc => exact ⟨_, rfl, rfl⟩

theorem Due.ne_idle (h : Due c s) : c ≠ .idle := by
  rintro rfl
  obtain ⟨hreq, -⟩ := h
  exact nomatch hreq

theorem hostTurn_of_due (h : Due c s) : ∃ k, hostTurn s = .next { s with host := k } ∧ Started c s k := by
  obtain ⟨k, hk, hs⟩ := startHandler_started h.ne_idle s
  exact ⟨k, by simp only [hostTurn, due_eq_some.mpr h, hk], hs⟩

/-! ### What may not happen yet waits -/

theorem actor_of_stepOf (h : StepOf c x) : actor x = some c := by
  obtain ⟨w, b, rfl⟩ | rfl | rfl := h <;> rfl

theorem mayAct_false_of_due {d : Context} (h : Due c s) : mayAct d s = false := by
  cases hm : mayAct d s with
  | false => rfl
  | true => exact absurd (due_eq_some.mpr h) (by simp [mayAct_none hm])

theorem step_of_waiting (hi : s.inputs = x :: rest) (hx : StepOf c x) (hm : mayAct c s = false) : step s = hostTurn s := by
  simp [step, advance, hi, ready, actor_of_stepOf hx, hm]

/-- Who may act, in the terms of the statements. -/
theorem mayAct_iff : mayAct c s = true ↔ NoneDue s ∧ pendingSteps s = [] ∧
    (c = running s ∧ hung s = false ∨ (running s).prio < c.prio ∧ s.host.usbLock = none) := by
  simp [mayAct, ← due_eq_none, and_assoc]

/-! ### No other handler starts -/

/-- What a step makes of the contexts at work: they are no more than before, or a waiting context starts with nothing of its
own to do, or the due handler starts (60_exceptions.md R179, R182). -/
inductive ActiveStep (s : State) : List Activation → Prop
  | atMost {fs : List Activation} : fs.length ≤ s.host.active.length → ActiveStep s fs
  | enters (c : Context) : ActiveStep s (⟨c, []⟩ :: s.host.active)
  | starts {c : Context} (steps : List HandlerStep) : Due c s → ActiveStep s (⟨c, steps⟩ :: s.host.active)

theorem ActiveStep.same (s : State) : ActiveStep s s.host.active := .atMost le_rfl

theorem ActiveStep.entered (c : Context) (s : State) : ActiveStep s (entered c s) := by
  unfold Machine.entered
  split
  · exact .same s
  · exact .enters c

theorem dropped_length (fs : List Activation) : (dropped fs).length = fs.length := by cases fs <;> rfl

theorem added_length (steps : List HandlerStep) (fs : List Activation) : (added steps fs).length = fs.length := by
  cases fs <;> rfl

theorem Started.active {k : HostSide} (h : Started c s k) : ∃ steps, k.active = ⟨c, steps⟩ :: s.host.active := by
  cases c with
  | idle => exact h.elim
  | usb | timer | rtc => obtain rfl := h; exact ⟨_, rfl⟩

theorem exec_issued_active {i : Instr} {w : Word} {buf : Memory}
    (h : exec i (latchRequest c w buf (noteIssue c i s)) = .next t) :
    t.host.active = s.host.active := by
  rw [(exec_host_inputs h).1, latchRequest_host, noteIssue_active]

/-- A move leaves the contexts at work, except that a hardware reset puts nobody at work. -/
theorem runMove_active_length (m : EnvMove) (s : State) : (runMove m s).host.active.length ≤ s.host.active.length := by
  unfold runMove
  split
  · obtain ⟨-, hhost, -⟩ := enableResume_buf_host_inputs (m.effect s)
    rw [hhost]
    cases m with
    | hardwareReset => exact Nat.zero_le _
    | _ => exact le_rfl
  · exact le_rfl

theorem reportIfConfigured_active_length (s : State) :
    (reportIfConfigured s).host.active.length = s.host.active.length := by
  rw [reportIfConfigured_eq]
  dsimp only
  split
  · exact added_length _ _
  · rfl

theorem endHandler_active_length (s : State) : (endHandler s).host.active.length ≤ s.host.active.length := by
  unfold endHandler
  split
  · exact le_rfl
  · simp

theorem activeStep_of_step (h : step s = .next t) : ActiveStep s t.host.active := by
  cases step_to h with
  | move m rest hi => exact .atMost (runMove_active_length m { s with inputs := rest })
  | command c w buf rest i _ hi hm hd ho he => exact exec_issued_active he ▸ .entered c s
  | ownCommand w buf more xs i _ _ _ _ _ _ _ _ he => exact exec_issued_active he ▸ .atMost (dropped_length _).le
  | ownPend more xs => exact .atMost (dropped_length _).le
  | report more xs => exact .atMost ((reportIfConfigured_active_length _).trans (dropped_length _)).le
  | start c xs hdue =>
    obtain ⟨k, hk, hs⟩ := startHandler_started hdue.ne_idle { s with inputs := xs }
    obtain ⟨steps, hsteps⟩ := hs.active
    rw [hk]
    exact hsteps ▸ .starts steps hdue
  | finish xs => exact .atMost (endHandler_active_length { s with inputs := xs })
  | waits xs => exact .same s
  | act a rest _ hi hr he =>
    rw [runHostAct_active he, enterActor_eq]
    cases actor (.host a) with
    | none => exact .same s
    | some c => exact .entered c s

/-- A context put above those at work with steps of its own is the due handler. -/
theorem Due.of_active {y : HandlerStep} {ys : List HandlerStep} (h : ActiveStep s (⟨c, y :: ys⟩ :: s.host.active)) :
    Due c s := by
  cases h with
  | atMost hlen => simp at hlen
  | starts _ hdue => exact hdue

/-- Settles O56: -/
theorem dispatchFollowsPriority : Obligations.DispatchFollowsPriority := by
  unfold Obligations.DispatchFollowsPriority
  refine fun s => ⟨fun c hdue => ⟨fun rest hi => ?_, ?_⟩, fun t c y ys hs ha => .of_active (ha ▸ activeStep_of_step hs),
    fun c => mayAct_iff, fun c x rest hi hx hm => ?_⟩
  · rw [step_hostTurn (.inl hi)]
    exact hostTurn_of_due (s := { s with inputs := rest }) hdue
  · have hturn : (s.inputs = [] ∨ ∃ d x rest, s.inputs = x :: rest ∧ StepOf d x) → step s = hostTurn s := by
      rintro (hi | ⟨d, x, rest, hi, hx⟩)
      · simp [step, advance, hi]
      · exact step_of_waiting hi hx (mayAct_false_of_due hdue)
    exact fun hi => hturn hi ▸ hostTurn_of_due hdue
  · rw [step_of_waiting hi hx hm, step_hostTurn (.inl rfl)]

end Sys2Proof.Safety
end

section
/-! The acquisition's commands (41_capsense_acquisition.md R81 to R83, R86): what CAP.MEASURE, CAP.CAPTURE and TMR.ACK answer,
and where they are refused. -/

namespace Sys2Proof.Safety

open Sys2Proof.Machine

variable {s : State}

/-! ### Measuring and acknowledging -/

theorem exec_capMeasure_refused (h : s.cap.phase ≠ .idle) :
    exec .capMeasure s = .refused (.hostProtocol .measureOutsideIdle) := if_neg h

/-- Settles O7: the state CAP.MEASURE leaves, read field by field. -/
theorem measureStartsTheActiveChannel : Obligations.MeasureStartsTheActiveChannel := fun _ =>
  ⟨fun h => ⟨_, exec_capMeasure_next.mpr ⟨h, rfl⟩, rfl, rfl, answers_ok 0 [] rfl⟩, exec_capMeasure_refused⟩

/-- Settles O10: the timer interrupt line is the overflow flag. -/
theorem ackClearsTheOverflowFlag : Obligations.AckClearsTheOverflowFlag := fun _ =>
  ⟨_, exec_tmrAck_next.mpr rfl, rfl, rfl, rfl, answers_ok 0 [] rfl⟩

/-! ### Capturing -/

theorem exec_capCapture_refused (h : s.cap.phase ≠ .measuring) :
    exec .capCapture s = .refused (.hostProtocol .captureOutsideMeasuring) := if_neg h

theorem exec_capCapture_unsplit (hm : s.cap.phase = .measuring) (hB : s.cap.ch = .B) (hs : s.q.split = false) :
    exec .capCapture s = .refused (.hostProtocol .enqueueBeforeSplit) := by
  simp [exec, execCapCapture, breach, hm, hB, hs]

/-- A capture on A (R82). -/
theorem exec_capCapture_A (hm : s.cap.phase = .measuring) (hA : s.cap.ch = .A) :
    exec .capCapture s = .next (State.deliver (some (resultWord 0 0)) [] { s with
      flt := { a := s.flt.a.push s.cap.cnt, b := s.flt.b }
      cap := { s.cap with ch := .B, phase := .idle, ttRun := false, toRun := false } }) := by
  rw [exec_capCapture_next]
  exact ⟨hm, by simp [hA], by simp [hA, PerChannel.set, PerChannel.get, succChannel_A]⟩

/-- What a B capture makes of the queue: the frame joins it, or is dropped when four are held (R82). -/
def offered (f : CapsenseFrame) (q : SampleQueue) : SampleQueue := (q.enq f).getD q

/-- A capture on B with a split queue (R82, R86). -/
theorem exec_capCapture_B (hm : s.cap.phase = .measuring) (hB : s.cap.ch = .B) (hs : s.q.split = true) :
    exec .capCapture s = .next (State.deliver (some (resultWord 0 0)) [] { s with
      flt := { a := s.flt.a, b := s.flt.b.push s.cap.cnt }
      cap := { s.cap with ch := .A, phase := .idle, ttRun := false, toRun := false }
      q := offered { a := s.flt.a, b := s.flt.b.push s.cap.cnt } s.q }) := by
  rw [exec_capCapture_next]
  exact ⟨hm, fun _ => hs, by simp [hB, PerChannel.set, PerChannel.get, succChannel_B, snapshot, offered]⟩

variable {f : CapsenseFrame} {q : SampleQueue}

theorem offered_full (h : q.count.val = 4) : offered f q = q := by
  rw [offered, SampleQueue.enq_eq_none.mpr (Fin.ext h), Option.getD_none]

theorem offered_room (h : q.count.val < 4) : offered f q =
    { q with slot := q.slot.set q.tail f, tail := q.tail + 1, count := q.count + 1 } := by
  have h4 : q.count ≠ 4 := fun hc => by simp [hc] at h
  rw [offered, SampleQueue.enq_eq_some.mpr ⟨h4, rfl⟩, Option.getD_some]

theorem count_cases (q : SampleQueue) : q.count.val < 4 ∨ q.count.val = 4 := by
  have hlt : q.count.val < 5 := q.count.isLt
  omega

theorem offered_head_split (f : CapsenseFrame) (q : SampleQueue) :
    (offered f q).head = q.head ∧ (offered f q).split = q.split := by
  rcases count_cases q with h | h
  · rw [offered_room h]; exact ⟨rfl, rfl⟩
  · rw [offered_full h]; exact ⟨rfl, rfl⟩

theorem offered_count (f : CapsenseFrame) (q : SampleQueue) : (offered f q).count.val = min 4 (q.count.val + 1) := by
  rcases count_cases q with h | h
  · rw [offered_room h]
    simp only [Config.qcap_eq, Fin.val_add, Fin.val_one]
    omega
  · rw [offered_full h]
    omega

/-- Settles O8: the state an A capture leaves, read field by field. -/
theorem captureOfAPushesTheSample : Obligations.CaptureOfAPushesTheSample := fun _ =>
  ⟨fun hm hA => ⟨_, exec_capCapture_A hm hA, rfl, rfl, rfl, answers_ok 0 [] rfl⟩, exec_capCapture_refused⟩

/-- Settles O9: the state a B capture leaves, with the queue that was offered the frame. -/
theorem captureOfBEnqueuesOrDropsTheFrame : Obligations.CaptureOfBEnqueuesOrDropsTheFrame := by
  unfold Obligations.CaptureOfBEnqueuesOrDropsTheFrame
  refine fun s hm hB => ⟨fun hs => ?_, exec_capCapture_unsplit hm hB⟩
  obtain ⟨hhead, hsplit⟩ := offered_head_split { a := s.flt.a, b := s.flt.b.push s.cap.cnt } s.q
  refine ⟨_, exec_capCapture_B hm hB hs, rfl, rfl, rfl, answers_ok 0 [] rfl, hhead, hsplit.trans hs, offered_full,
    fun hroom => ⟨?_, ?_, ?_⟩⟩
  · rw [State.deliver_q, offered_count]
    omega
  · rw [State.deliver_q, offered_room hroom]
    simp only [Config.qcap_eq, Fin.val_add, Fin.val_one]
  · rw [State.deliver_q, offered_room hroom]

/-! ### Pairs of measure and capture -/

/-- `t` is what `k` pairs make of Idle(A) in `s`, by what can be seen of it (R87). -/
structure AfterPairs (s : State) (k : Nat) (t : State) : Prop where
  phase : t.cap.phase = .idle
  ch : t.cap.ch = if k % 2 = 0 then .A else .B
  curA : t.flt.a.cur.val = (s.flt.a.cur.val + (k + 1) / 2) % 16
  curB : t.flt.b.cur.val = (s.flt.b.cur.val + k / 2) % 16
  count : t.q.count.val = min 4 (s.q.count.val + k / 2)
  head : t.q.head = s.q.head
  split : t.q.split = true

theorem AfterPairs.zero (hp : s.cap.phase = .idle) (hA : s.cap.ch = .A) (hs : s.q.split = true) : AfterPairs s 0 s where
  phase := hp
  ch := hA
  curA := by have hlt : s.flt.a.cur.val < 16 := s.flt.a.cur.isLt; omega
  curB := by have hlt : s.flt.b.cur.val < 16 := s.flt.b.cur.isLt; omega
  count := by have hlt : s.q.count.val < 5 := s.q.count.isLt; omega
  head := rfl
  split := hs

/-- A push moves the cursor on by one place of sixteen. -/
theorem push_cur_val (f : FilterState) (v : Half) : (f.push v).cur.val = (f.cur.val + 1) % 16 := by
  rw [FilterState.push_cur]
  simp only [Config.window_eq, Fin.val_add, Fin.val_one]

/-- A measure and capture on A without a tick in between: the sample is 0, and the queue stays. -/
theorem execAll_pair_A (is : List Instr) (hp : s.cap.phase = .idle) (hA : s.cap.ch = .A) :
    ∃ t, execAll (.capMeasure :: .capCapture :: is) s = execAll is t ∧ t.cap.phase = .idle ∧ t.cap.ch = .B ∧
      t.flt.a = s.flt.a.push 0 ∧ t.flt.b = s.flt.b ∧ t.q = s.q := by
  rw [execAll_cons (exec_capMeasure_next.mpr ⟨hp, rfl⟩)]
  exact ⟨_, execAll_cons (exec_capCapture_A rfl hA), rfl, rfl, rfl, rfl, rfl⟩

/-- A measure and capture on B without a tick in between: the sample is 0, and the queue is offered a frame. -/
theorem execAll_pair_B (is : List Instr) (hp : s.cap.phase = .idle) (hB : s.cap.ch = .B) (hs : s.q.split = true) :
    ∃ t, execAll (.capMeasure :: .capCapture :: is) s = execAll is t ∧ t.cap.phase = .idle ∧ t.cap.ch = .A ∧
      t.flt.a = s.flt.a ∧ t.flt.b = s.flt.b.push 0 ∧ t.q = offered { a := s.flt.a, b := s.flt.b.push 0 } s.q := by
  rw [execAll_cons (exec_capMeasure_next.mpr ⟨hp, rfl⟩)]
  exact ⟨_, execAll_cons (exec_capCapture_B rfl hB hs), rfl, rfl, rfl, rfl, rfl⟩

/-- One more pair completes: on A after an even number of them, on B after an odd one. -/
theorem AfterPairs.succ {t : State} {k : Nat} (h : AfterPairs s k t) (is : List Instr) :
    ∃ u, execAll (.capMeasure :: .capCapture :: is) t = execAll is u ∧ AfterPairs s (k + 1) u := by
  obtain ⟨hp, hch, hcurA, hcurB, hcount, hhead, hs⟩ := h
  rcases Nat.mod_two_eq_zero_or_one k with hk | hk
  · obtain ⟨u, hu, hup, huch, hua, hub, huq⟩ := execAll_pair_A is hp (by rw [hch, if_pos hk])
    refine ⟨u, hu, hup, by rw [huch, if_neg (by omega)], ?_, ?_, ?_, huq ▸ hhead, huq ▸ hs⟩
    · rw [hua, push_cur_val]
      omega
    · rw [hub]
      omega
    · rw [huq]
      omega
  · obtain ⟨u, hu, hup, huch, hua, hub, huq⟩ := execAll_pair_B is hp (by rw [hch, if_neg (by omega)]) hs
    obtain ⟨hohead, hosplit⟩ := offered_head_split { a := t.flt.a, b := t.flt.b.push 0 } t.q
    refine ⟨u, hu, hup, by rw [huch, if_pos (by omega)], ?_, ?_, ?_, huq ▸ hohead.trans hhead, huq ▸ hosplit.trans hs⟩
    · rw [hua]
      omega
    · rw [hub, push_cur_val]
      omega
    · rw [huq, offered_count]
      omega

/-- After `k` pairs, `j` more complete. -/
theorem AfterPairs.more {t : State} {k : Nat} (h : AfterPairs s k t) (j : Nat) :
    ∃ u, execAll (List.replicate j [Instr.capMeasure, Instr.capCapture]).flatten t = .next u ∧
      AfterPairs s (k + j) u := by
  induction j generalizing t k with
  | zero => exact ⟨t, rfl, h⟩
  | succ j ih =>
    obtain ⟨v, hv, hv'⟩ := h.succ (List.replicate j [Instr.capMeasure, Instr.capCapture]).flatten
    obtain ⟨u, hu, hu'⟩ := ih hv'
    exact ⟨u, hv.trans hu, by rwa [Nat.add_right_comm] at hu'⟩

/-- Settles O12: by induction on the number of pairs, with the split queue kept. -/
theorem capturesAlternate : Obligations.CapturesAlternate := by
  intro k s hp hA hs
  obtain ⟨t, ht, h⟩ := (AfterPairs.zero hp hA hs).more k
  rw [Nat.zero_add] at h
  exact ⟨t, ht, h.phase, h.ch, h.curA, h.curB, h.count, h.head⟩

end Sys2Proof.Safety
end

section
/-! The acquisition's phases under every step (41_capsense_acquisition.md R80): only its own commands, the timers' moves and
hardware reset write it. -/

namespace Sys2Proof.Safety

open Sys2Proof.Machine

variable {s t : State}

theorem AcquisitionInv.congr (hs : AcquisitionInv s) (h : t.cap = s.cap) : AcquisitionInv t := by
  rw [AcquisitionInv, h]
  exact hs

theorem exec_keeps_acquisitionInv {i : Instr} (hs : AcquisitionInv s) (h : exec i s = .next t) : AcquisitionInv t := by
  by_cases hc : t.cap = s.cap
  · exact hs.congr hc
  rcases (samplingStep_of_exec h).writes_cap hc with rfl | rfl | rfl
  · obtain ⟨-, rfl⟩ := exec_capMeasure_next.mp h
    exact ⟨nofun, iff_of_true rfl rfl, iff_of_true rfl rfl, fun _ => rfl⟩
  · obtain ⟨-, -, rfl⟩ := exec_capCapture_next.mp h
    exact ⟨nofun, iff_of_false nofun nofun, iff_of_false nofun nofun, nofun⟩
  · obtain rfl := exec_tmrAck_next.mp h
    exact hs

/-- The timers' moves write the count and the overflow flag, which the phases do not show; a hardware reset is in Idle. -/
theorem effect_keeps_acquisitionInv (m : EnvMove) (hs : AcquisitionInv s) : AcquisitionInv (m.effect s) := by
  cases m with
  | hardwareReset => exact ⟨nofun, iff_of_false nofun nofun, iff_of_false nofun nofun, nofun⟩
  | _ => exact hs

theorem runMove_keeps_acquisitionInv (m : EnvMove) (hs : AcquisitionInv s) : AcquisitionInv (runMove m s) := by
  unfold runMove
  split
  · exact (effect_keeps_acquisitionInv m hs).congr (enableResume_cap _)
  · exact hs

/-- Settles O47: CAP.MEASURE starts both timers and enters Measuring, CAP.CAPTURE stops both and ends in Idle. -/
theorem stepKeepsTheAcquisitionPhases : Obligations.StepKeepsTheAcquisitionPhases := fun _ _ hs h =>
  step_keeps (fun _ _ _ _ h => h) (fun _ _ _ => exec_keeps_acquisitionInv) (fun m _ => runMove_keeps_acquisitionInv m) hs h

end Sys2Proof.Safety
end

section
/-! The environment's moves of the timers and of readiness, at a hold of USB.ENABLE and outside one
(41_capsense_acquisition.md R84, R85, 44_usb_control.md R127). -/

namespace Sys2Proof.Safety

open Sys2Proof.Machine

variable {s t : State}

/-- ENV.TICK counts modulo 65536 while the timing timer runs (R84). -/
theorem runMove_tick (hi : EnableInv s) : runMove .tick s =
    { s with cap := { s.cap with cnt := if s.cap.ttRun then s.cap.cnt + 1 else s.cap.cnt } } := by
  rw [runMove_holds (m := .tick) hi, EnvMove.enabled]
  split <;> rfl

/-- ENV.TIMEOUT raises the overflow flag while the safety timer runs (R85). -/
theorem runMove_timeout (hi : EnableInv s) : runMove .timeout s =
    { s with cap := { s.cap with ovf := if s.cap.toRun then true else s.cap.ovf } } := by
  rw [runMove_holds (m := .timeout) hi, EnvMove.enabled]
  split <;> rfl

theorem clkrdy_enabled_iff : EnvMove.clkrdy.enabled s = true ↔ s.phy.oscsel = true ∧ s.phy.clkrdy = false := by
  simp [EnvMove.enabled]

/-- An enabled move that the sequencer does not wait for is its effect alone. -/
theorem runMove_not_awaited {m : EnvMove} (hi : EnableInv s) (he : m.enabled s = true) (ha : awaited s ≠ some m) :
    runMove m s = m.effect s := by
  rcases runMove_cases (m := m) hi with ⟨hd, -⟩ | ⟨-, -, e⟩ | ⟨rfl, hb, h3, -⟩ | ⟨rfl, hb, h7, -⟩ | ⟨rfl, hb, h9, -⟩
  · exact absurd he (by simp [hd])
  · exact e
  · exact absurd (by simp [awaited, hb, h3]) ha
  · exact absurd (by simp [awaited, hb, h7]) ha
  · exact absurd (by simp [awaited, hb, h9]) ha

/-- E4 waits for ENV.CLKRDY, E8 for ENV.AHBIDLE. -/
theorem awaited_readiness_iff : (awaited s = some .clkrdy ↔ s.usb.enBusy = true ∧ s.usb.enStep = 3) ∧
    (awaited s = some .ahbidle ↔ s.usb.enBusy = true ∧ s.usb.enStep = 7) := by
  unfold awaited
  split
  · split <;> simp_all
  · simp_all

/-- E9 on a running sequencer, with the AHB master idle (44_usb_control.md R120, R136). -/
theorem coreResetIssued_of_coreReset (hb : s.usb.enBusy = true)
    (husb : t.usb = { (coreReset s).usb with ahbidle := true, csrst := true, enStep := 9 }) (hbus : t.bus = ⟨false⟩) :
    CoreResetIssued s t := by
  rw [CoreResetIssued, hbus, husb]
  simp [coreReset, Usb.reset, hb]

/-- A count that runs modulo 65536 while its timer does. -/
theorem ticked_toNat (run : Bool) (cnt : Sample) :
    (if run then cnt + 1 else cnt).toNat = if run then (cnt.toNat + 1) % 65536 else cnt.toNat := by
  cases run with
  | false => rfl
  | true => exact BitVec.toNat_add cnt 1

/-- Settles O11: at the hold that waits for it a readiness move takes the sequencer on; elsewhere it sets its bit, or is not
enabled. -/
theorem timerAndReadinessMoves : Obligations.TimerAndReadinessMoves := by
  unfold Obligations.TimerAndReadinessMoves
  intro s rest hi
  have hi' : EnableInv { s with inputs := rest } := hi
  refine ⟨fun hn => ?_, fun hn => ?_, fun hn => ?_, fun hn => ?_, fun hn hc => ?_⟩
  · rw [step_env hn, runMove_tick hi']
    exact ⟨_, rfl, rfl, rfl, ticked_toNat s.cap.ttRun s.cap.cnt⟩
  · rw [step_env hn, runMove_timeout hi']
    exact ⟨_, rfl, rfl, rfl⟩
  · rw [step_env hn]
    refine ⟨fun h => ?_, fun ho hc hw => ?_, fun ho hc hb h3 => ?_⟩
    · rw [runMove_disabled]
      rcases h with h | h <;> simp [EnvMove.enabled, h]
    · rw [runMove_not_awaited hi' (clkrdy_enabled_iff.mpr ⟨ho, hc⟩) (awaited_readiness_iff.1.not.mpr hw)]
      rfl
    · obtain ⟨hbusy, hidle⟩ := runMove_clkrdy_lifts (s := { s with inputs := rest }) ho hc hb h3
      cases ha : s.usb.ahbidle with
      | false =>
        rw [hbusy ha]
        exact ⟨_, rfl, rfl, rfl, fun _ => ⟨rfl, rfl, rfl⟩, nofun⟩
      | true =>
        rw [hidle ha]
        exact ⟨_, rfl, rfl, rfl, nofun, fun _ => coreResetIssued_of_coreReset hb (by simp [coreReset, ha]) rfl⟩
  · rw [step_env hn]
    refine ⟨fun ha => ?_, fun ha hw => ?_, fun ha hb h7 => ?_⟩
    · rw [runMove_disabled (by simp [EnvMove.enabled, ha])]
    · rw [runMove_not_awaited hi' (by simp [EnvMove.enabled, ha]) (awaited_readiness_iff.2.not.mpr hw)]
      rfl
    · rw [runMove_ahbidle_lifts (s := { s with inputs := rest }) ha hb h7]
      exact ⟨_, rfl, rfl, coreResetIssued_of_coreReset hb rfl rfl⟩
  · rw [step_env hn, runMove_disabled (m := .crstdone) (s := { s with inputs := rest }) hc]

end Sys2Proof.Safety
end

section
/-! The filters' commands (42_filter.md R90 to R93): what a push writes, and what the readouts answer. -/

namespace Sys2Proof.Safety

open Sys2Proof.Machine

/-- A push writes the slot at the cursor. -/
theorem push_hist_get (f : FilterState) (v : Half) (i : Fin 16) :
    (f.push v).hist.get i = if i = f.cur then v else f.hist.get i := by
  rw [FilterState.push_hist, Vector.get_eq_getElem, Vector.get_eq_getElem, Vector.getElem_set]
  simp only [Fin.ext_iff, eq_comm]

/-- The slot FLT.RAW reads, in the spec's arithmetic (R91). -/
theorem latest_eq (f : FilterState) : f.latest = f.hist.get (Fin.ofNat 16 (f.cur.val + 15)) := rfl

/-- Settles O13: the pushed filter, read field by field. -/
theorem pushUpdatesOneFilter : Obligations.PushUpdatesOneFilter := by
  intro s ch v
  refine ⟨_, exec_fltPush_next.mpr rfl, ?_⟩
  simp only [State.deliver_flt, fltPush_flt, PerChannel.get_set_same]
  exact ⟨push_hist_get _ v, push_cur_val _ v, FilterState.push_mean _ v, FilterState.push_max _ v,
    PerChannel.get_set_succ _ ch _, rfl, answers_ok 0 [] rfl⟩

/-- Settles O14: each readout delivers its field of the filter on the state as it is. -/
theorem readoutsAnswerTheFilter : Obligations.ReadoutsAnswerTheFilter := fun s ch =>
  ⟨⟨_, exec_fltRaw_next.mpr rfl, rfl, latest_eq (s.flt.get ch) ▸ answers_ok _ [] rfl⟩,
    ⟨_, exec_fltMean_next.mpr rfl, rfl, answers_ok _ [] rfl⟩,
    ⟨_, exec_fltMax_next.mpr rfl, rfl, answers_ok _ [] rfl⟩⟩

end Sys2Proof.Safety
end

section
/-! Runs of pushes (42_filter.md R94, R97): the window, read from the cursor on, holds the last sixteen values pushed. -/

namespace Sys2Proof.Safety

open Sys2Proof.Machine

/-- A filter after the pushes `vs`. -/
def pushAll (f : FilterState) (vs : List Half) : FilterState := vs.foldl FilterState.push f

@[simp] theorem pushAll_nil (f : FilterState) : pushAll f [] = f := rfl
@[simp] theorem pushAll_cons (f : FilterState) (v : Half) (vs : List Half) :
    pushAll f (v :: vs) = pushAll (f.push v) vs := rfl

/-- A run of FLT.PUSH commands is a run of pushes on its filter. -/
theorem execAll_fltPush (ch : Channel) (vs : List Half) (s : State) :
    ∃ t, execAll (vs.map (Instr.fltPush ch)) s = .next t ∧ t.flt.get ch = pushAll (s.flt.get ch) vs := by
  induction vs generalizing s with
  | nil => exact ⟨s, rfl, rfl⟩
  | cons v vs ih =>
    obtain ⟨t, ht, hflt⟩ := ih ((fltPush ch v s).deliver (some (resultWord 0 0)) [])
    refine ⟨t, (execAll_cons (exec_fltPush_next.mpr rfl)).trans ht, ?_⟩
    rw [hflt, State.deliver_flt, fltPush_flt, PerChannel.get_set_same, pushAll_cons]

/-! ### The window -/

/-- The window, oldest sample first: it starts at the cursor, the slot the next push overwrites (10_state.md R11). -/
def samples (f : FilterState) : List Half := f.hist.toList.rotate f.cur.val

@[simp] theorem samples_length (f : FilterState) : (samples f).length = 16 := by simp [samples]

theorem samples_reset : samples FilterState.reset = List.replicate 16 0 := List.rotate_replicate 0 16 0

/-- The order of the samples is nothing to their sum. -/
theorem sampleSum_samples (f : FilterState) : sampleSum (samples f) = sampleSum f.hist.toList :=
  ((List.rotate_perm f.hist.toList f.cur.val).map BitVec.toNat).sum_eq

/-- Overwriting the first of a rotated list and rotating once more moves the new value to the end. -/
theorem rotate_set_succ {l : List Half} {k : Nat} (h : k < l.length) (v : Half) :
    (l.set k v).rotate (k + 1) = (l.rotate k ++ [v]).drop 1 := by
  have hset : l.set k v = (l.take k ++ [v]) ++ l.drop (k + 1) := by
    rw [List.set_eq_take_append_cons_drop, if_pos h, List.append_assoc, List.singleton_append]
  have hlen : (l.take k ++ [v]).length = k + 1 := by simp [h.le]
  calc (l.set k v).rotate (k + 1)
      = l.drop (k + 1) ++ (l.take k ++ [v]) := by rw [hset, ← hlen, List.rotate_append_length_eq]
    _ = (l.rotate k ++ [v]).drop 1 := by
        rw [List.rotate_eq_drop_append_take h.le, List.drop_eq_getElem_cons h, List.append_assoc, List.cons_append,
          List.drop_one, List.tail_cons]

/-- A push drops the oldest sample and puts its value last. -/
theorem samples_push (f : FilterState) (v : Half) : samples (f.push v) = (samples f ++ [v]).drop 1 := by
  have hlen : f.hist.toList.length = 16 := by simp
  calc samples (f.push v)
      = (f.hist.toList.set f.cur v).rotate ((f.cur.val + 1) % (f.hist.toList.set f.cur v).length) := by
        rw [samples, push_cur_val, FilterState.push_hist, Vector.toList_set, List.length_set, hlen]
    _ = (samples f ++ [v]).drop 1 := by
        rw [List.rotate_mod, rotate_set_succ (hlen ▸ f.cur.isLt), samples]

/-- The window slides over the old samples followed by the values pushed. -/
theorem samples_pushAll (f : FilterState) (vs : List Half) : samples (pushAll f vs) = (samples f ++ vs).drop vs.length := by
  induction vs generalizing f with
  | nil => simp
  | cons v vs ih =>
    have hlen : 1 ≤ (samples f ++ [v]).length := by simp
    rw [pushAll_cons, ih, samples_push, ← List.drop_append_of_le_length hlen, List.drop_drop, List.append_assoc,
      List.singleton_append, List.length_cons, Nat.add_comm 1]

/-! ### The mean -/

/-- The stored mean is the truncating average of the window. -/
def MeanExact (f : FilterState) : Prop := f.mean.toNat = sampleSum (samples f) / 16

theorem meanExact_push (f : FilterState) (v : Half) : MeanExact (f.push v) := by
  rw [MeanExact, sampleSum_samples]
  exact FilterState.push_mean f v

theorem meanExact_reset : MeanExact FilterState.reset := by
  rw [MeanExact, sampleSum_samples]
  exact FilterOk.reset.1

/-- Only a filter that is never pushed can show an inexact mean. -/
theorem MeanExact.pushAll {f : FilterState} {vs : List Half} (h : MeanExact f ∨ vs ≠ []) : MeanExact (pushAll f vs) := by
  induction vs generalizing f with
  | nil => exact h.resolve_right fun hne => hne rfl
  | cons v vs ih => exact ih (.inl (meanExact_push f v))

/-- After sixteen pushes or more no older sample is left in the mean (R97). -/
theorem mean_pushAll_full {f : FilterState} {vs : List Half} (h : 16 ≤ vs.length) :
    (pushAll f vs).mean.toNat = sampleSum (vs.drop (vs.length - 16)) / 16 := by
  have hne : vs ≠ [] := by rintro rfl; simp at h
  rw [MeanExact.pushAll (.inr hne), samples_pushAll, List.drop_append, List.drop_of_length_le (by simpa using h),
    List.nil_append, samples_length]

/-- After fewer pushes on a reset filter the rest of the window is still zero (R97). -/
theorem mean_pushAll_reset {vs : List Half} (h : vs.length < 16) :
    (pushAll FilterState.reset vs).mean.toNat = sampleSum vs / 16 := by
  rw [MeanExact.pushAll (.inl meanExact_reset), samples_pushAll, samples_reset,
    List.drop_append_of_le_length (by simpa using h.le), List.drop_replicate, sampleSum_append]
  simp [sampleSum]

/-! ### The maximum -/

/-- The maximum is the largest of the old one and the values pushed. -/
theorem max_pushAll (f : FilterState) (vs : List Half) :
    (pushAll f vs).max.toNat = (vs.map BitVec.toNat).foldr max f.max.toNat := by
  rw [← List.foldl_eq_foldr]
  induction vs generalizing f with
  | nil => rfl
  | cons v vs ih => rw [pushAll_cons, ih, FilterState.push_max, List.map_cons, List.foldl_cons]

/-- Settles O15: the window slides over the values pushed, and every push compares once. -/
theorem meanAndMaximumOfPushes : Obligations.MeanAndMaximumOfPushes := by
  intro vs ch s
  obtain ⟨t, ht, hflt⟩ := execAll_fltPush ch vs s
  refine ⟨t, ht, ?_⟩
  rw [hflt]
  exact ⟨mean_pushAll_full, fun h hreset => hreset ▸ mean_pushAll_reset h, fun hreset => hreset ▸ max_pushAll _ vs⟩

end Sys2Proof.Safety
end

section
/-! The maxima under every step (42_filter.md R93, R95): a command pushes one filter or none, and a move other than hardware
reset leaves both. -/

namespace Sys2Proof.Safety

open Sys2Proof.Machine

variable {s t : State}

/-- A command leaves both filters or pushes one of them. -/
theorem SamplingStep.flt {i : Instr} (h : SamplingStep s t i) :
    t.flt = s.flt ∨ ∃ ch v, t.flt = s.flt.set ch ((s.flt.get ch).push v) := by
  cases h with
  | push ch v _ hflt => exact .inr ⟨ch, v, hflt⟩
  | capture ch v hflt => exact .inr ⟨ch, v, hflt⟩
  | _ => exact .inl ‹t.flt = s.flt›

/-- No move but hardware reset touches a filter. -/
theorem runMove_flt {m : EnvMove} (hm : ∀ c a n, m ≠ .hardwareReset c a n) (s : State) : (runMove m s).flt = s.flt := by
  unfold runMove
  split
  · rw [(enableResume_frame (m.effect s)).1]
    cases m with
    | hardwareReset c a n => exact absurd rfl (hm c a n)
    | _ => rfl
  · rfl

/-- Every step but hardware reset leaves both filters or pushes one of them. -/
theorem step_flt (h : step s = .next t) (hreset : ∀ c a n rest, s.inputs ≠ .env (.hardwareReset c a n) :: rest) :
    t.flt = s.flt ∨ ∃ ch v, t.flt = s.flt.set ch ((s.flt.get ch).push v) := by
  rcases step_next_cases h with ⟨c, w, buf, i, xs, fs, -, -, -, he⟩ | ⟨m, rest, hi, rfl⟩ | ⟨xs, k, rfl⟩
  · obtain ⟨k, hk⟩ := latchRequest_noteIssue c w buf i { s with inputs := xs, host := { s.host with active := fs } }
    rw [hk] at he
    exact (samplingStep_of_exec he).flt
  · have hm : ∀ c a n, m ≠ .hardwareReset c a n := fun c a n hm => hreset c a n rest (hm ▸ hi)
    exact .inl (runMove_flt hm { s with inputs := rest })
  · exact .inl rfl

theorem le_push_max (f : FilterState) (v : Half) : f.max ≤ (f.push v).max := by
  rw [BitVec.le_def, FilterState.push_max]
  exact le_max_left _ _

/-- Settles O16: a push raises its filter's maximum or keeps it, and nothing else touches a filter but hardware reset. -/
theorem maximumNeverDecays : Obligations.MaximumNeverDecays := by
  intro s t h hreset
  rcases step_flt h hreset with hflt | ⟨ch, v, hflt⟩
  · rw [hflt]
    exact ⟨BitVec.le_refl _, BitVec.le_refl _⟩
  · rw [hflt]
    cases ch with
    | A => exact ⟨le_push_max s.flt.a v, BitVec.le_refl _⟩
    | B => exact ⟨BitVec.le_refl _, le_push_max s.flt.b v⟩

end Sys2Proof.Safety
end

section
/-! The queue's commands (43_sample_queue.md R100 to R103): the state each of them leaves, and the refusals before and after
Q.SPLIT. -/

namespace Sys2Proof.Safety

open Sys2Proof.Machine

variable {s : State}

/-! ### Splitting and counting -/

theorem exec_qSplit_second (hs : s.q.split = true) : exec .qSplit s = .refused (.hostProtocol .secondSplit) := if_pos hs

/-- Settles O17: the split bit alone differs in the state Q.SPLIT leaves. -/
theorem splitHappensOnce : Obligations.SplitHappensOnce := fun _ =>
  ⟨fun hs => ⟨_, exec_qSplit_next.mpr ⟨hs, rfl⟩, rfl, rfl, answers_ok 0 [] rfl⟩, exec_qSplit_second⟩

/-- Settles O20: the count is the length of the list the ring holds. -/
theorem lengthCountsTheFrames : Obligations.LengthCountsTheFrames := fun s =>
  ⟨_, exec_qLen_next.mpr rfl, rfl, SampleQueue.frames_length s.q ▸ answers_ok _ [] rfl⟩

/-! ### Enqueueing -/

theorem exec_qEnq_unsplit (hs : s.q.split = false) : exec .qEnq s = .refused (.hostProtocol .enqueueBeforeSplit) :=
  if_neg (by simp [hs])

/-- The state Q.ENQ leaves when there is room (R101). -/
theorem exec_qEnq_stores (hs : s.q.split = true) (hc : s.q.count.val < 4) :
    exec .qEnq s = .next (State.deliver (some (resultWord 0 0)) [] { s with
      q := { s.q with slot := s.q.slot.set s.q.tail (snapshot s), tail := s.q.tail + 1, count := s.q.count + 1 } }) := by
  have h4 : s.q.count ≠ 4 := fun h => by simp [h] at hc
  exact exec_qEnq_next.mpr ⟨hs, .inl ⟨_, SampleQueue.enq_eq_some.mpr ⟨h4, rfl⟩, rfl⟩⟩

/-- Settles O18: the state Q.ENQ leaves with room, read field by field, and the one it leaves when four frames are held. -/
theorem enqueueAppendsASnapshot : Obligations.EnqueueAppendsASnapshot := by
  unfold Obligations.EnqueueAppendsASnapshot
  refine fun s => ⟨fun hs hc => ?_, fun hs hc => ?_, exec_qEnq_unsplit⟩
  · have hcount : (s.q.count + 1).val = s.q.count.val + 1 := Fin.val_add_one_of_lt' (Nat.add_lt_add_right hc 1)
    exact ⟨_, exec_qEnq_stores hs hc, rfl, answers_ok 0 [] rfl, rfl, Fin.val_add s.q.tail 1, hcount, rfl, hs⟩
  · exact ⟨_, exec_qEnq_full hs hc, rfl, answers_error .queueFull _ rfl⟩

/-! ### Dequeueing -/

theorem exec_qDeq_unsplit (hs : s.q.split = false) : exec .qDeq s = .refused (.hostProtocol .dequeueBeforeSplit) :=
  if_neg (by simp [hs])

theorem exec_qDeq_empty (hs : s.q.split = true) (hc : s.q.count.val = 0) :
    exec .qDeq s = .next (s.deliver (some (resultWord 6 0)) []) :=
  exec_qDeq_next.mpr ⟨hs, .inr ⟨SampleQueue.deq_eq_none.mpr (Fin.ext hc), rfl⟩⟩

/-- The state Q.DEQ leaves when a frame is held (R102). -/
theorem exec_qDeq_delivers (hs : s.q.split = true) (hc : s.q.count ≠ 0) :
    exec .qDeq s = .next (State.deliver (some (resultWord 0 0)) (s.q.slot.get s.q.head).bytes { s with
      q := { s.q with head := s.q.head + 1, count := s.q.count - 1 } }) :=
  exec_qDeq_next.mpr ⟨hs, .inl ⟨_, _, SampleQueue.deq_eq_some.mpr ⟨hc, rfl, rfl⟩, rfl⟩⟩

/-- Settles O19: the state Q.DEQ leaves with a frame held, read field by field, and the one it leaves when none is. -/
theorem dequeueDeliversTheHead : Obligations.DequeueDeliversTheHead := by
  unfold Obligations.DequeueDeliversTheHead
  refine fun s => ⟨fun hs hc => ?_, fun hs hc => ?_, exec_qDeq_unsplit⟩
  · have h0 : s.q.count ≠ 0 := fun h => by simp [h] at hc
    have hcount : (s.q.count - 1).val = s.q.count.val - 1 := Fin.val_sub_one_of_ne_zero h0
    exact ⟨_, exec_qDeq_delivers hs h0, rfl, answers_ok 0 _ rfl, Fin.val_add s.q.head 1, hcount, rfl, rfl, hs⟩
  · exact ⟨_, exec_qDeq_empty hs hc, rfl, answers_error .empty [] rfl⟩

end Sys2Proof.Safety
end

section
/-! The sequencer of USB.ENABLE under every step (44_usb_control.md R111 to R121): where a start of it stands, and that a step
leaves it at one of its waits, complete, or never run. -/

namespace Sys2Proof.Safety

open Sys2Proof.Machine

variable {s t : State}

/-! ### Commands and moves of the session -/

/-- From `s` to `t` the PHY stays, and of the USB unit at most what the session writes differs: the interrupt flags, the
address, the stall, pending and allocation state, and the FIFOs with the received size. -/
def SessionOnly (s t : State) : Prop :=
  t.phy = s.phy ∧ t.usb = { s.usb with
    ints := t.usb.ints, addr := t.usb.addr, stall := t.usb.stall, rxsize := t.usb.rxsize, txf := t.usb.txf,
    rxf := t.usb.rxf, ctrlAlloc := t.usb.ctrlAlloc, next := t.usb.next, pend := t.usb.pend }

/-- Every command but USB.ENABLE leaves the PHY, the sequencer and the link's own fields. -/
theorem sessionOnly_of_exec {i : Instr} (hi : i ≠ .usbEnable) (h : exec i s = .next t) : SessionOnly s t := by
  cases i with
  | usbEnable => exact absurd rfl hi
  | usbReset => obtain ⟨-, rfl⟩ := exec_usbReset_next.mp h; exact ⟨rfl, rfl⟩
  | usbAlloc =>
    obtain ⟨-, ⟨-, -, rfl⟩ | ⟨-, -, rfl⟩ | ⟨-, -, rfl⟩ | ⟨-, -, rfl⟩⟩ := exec_usbAlloc_next.mp h <;> exact ⟨rfl, rfl⟩
  | usbWrite => obtain ⟨-, ⟨-, rfl⟩ | ⟨-, -, rfl⟩ | ⟨-, -, -, rfl⟩⟩ := exec_usbWrite_next.mp h <;> exact ⟨rfl, rfl⟩
  | usbRead => obtain ⟨-, ⟨-, rfl⟩ | ⟨-, -, rfl⟩ | ⟨-, -, rfl⟩⟩ := exec_usbRead_next.mp h <;> exact ⟨rfl, rfl⟩
  | usbSetaddr => obtain ⟨-, rfl⟩ := exec_usbSetaddr_next.mp h; exact ⟨rfl, rfl⟩
  | usbSetstall => obtain ⟨-, rfl⟩ := exec_usbSetstall_next.mp h; exact ⟨rfl, rfl⟩
  | usbIsstalled => obtain ⟨-, rfl⟩ := exec_usbIsstalled_next.mp h; exact ⟨rfl, rfl⟩
  | usbPoll => obtain ⟨-, rfl⟩ := exec_usbPoll_next.mp h; split <;> exact ⟨rfl, rfl⟩
  | _ =>
    obtain ⟨husb, hphy⟩ := exec_usb_phy_of_not_isUsb rfl h
    exact ⟨hphy, by rw [husb]⟩

/-- So does every move's own effect, but for the readiness moves and hardware reset. -/
theorem effect_cases (m : EnvMove) (s : State) : SessionOnly s (m.effect s) ∨ m = .clkrdy ∨ m = .ahbidle ∨ m = .crstdone ∨
    ∃ c a n, m = .hardwareReset c a n := by
  cases m with
  | clkrdy | ahbidle | crstdone => simp
  | hardwareReset c a n => simp
  | _ => exact .inl ⟨rfl, rfl⟩

theorem EnableInv.of_sessionOnly (hs : EnableInv s) (h : SessionOnly s t) : EnableInv t := by
  obtain ⟨hphy, husb⟩ := h
  rw [EnableInv, hphy, husb]
  exact hs

/-! ### Starting USB.ENABLE -/

/-- A PHY with all six controls on and its clock ready. -/
def livePhy : Phy where
  oscsel := true
  calen := true
  clkrec := true
  clksel := true
  lpdis := true
  phyen := true
  clkrdy := true

/-- USB.ENABLE issued with the clock not ready: E1 to E3 done, held at E4 (R112 to R115). -/
def startedAtE4 (s : State) : State :=
  { s.deliver none [] with
    phy := { s.phy with oscsel := true, calen := true, clkrec := true }
    usb := { s.usb with enBusy := true, enStep := 3, enIssuer := s.port.issuer } }

/-- USB.ENABLE issued with the clock ready and the AHB master busy: the PHY on, held at E8 (R112 to R119). -/
def startedAtE8 (s : State) : State :=
  { s.deliver none [] with
    phy := livePhy
    usb := { s.usb with enBusy := true, enStep := 7, enIssuer := s.port.issuer } }

/-- USB.ENABLE issued with both ready: the PHY on, the core reset, held at E10 (R112 to R121). -/
def startedAtE10 (s : State) : State :=
  { coreReset (s.deliver none []) with
    phy := livePhy
    usb := { (coreReset s).usb with
      ahbidle := true, csrst := true, enBusy := true, enStep := 9, enIssuer := s.port.issuer } }

/-- A start of USB.ENABLE stands at the first of its waits whose bit is not set. -/
theorem enableContinue_enableStart (s : State) :
    (s.phy.clkrdy = false ∧ enableContinue (enableStart s) = startedAtE4 s) ∨
    (s.phy.clkrdy = true ∧ s.usb.ahbidle = false ∧ enableContinue (enableStart s) = startedAtE8 s) ∨
    (s.phy.clkrdy = true ∧ s.usb.ahbidle = true ∧ enableContinue (enableStart s) = startedAtE10 s) := by
  cases hc : s.phy.clkrdy with
  | false => exact .inl ⟨rfl, enableStart_hold4 s hc⟩
  | true =>
    cases ha : s.usb.ahbidle with
    | false => exact .inr (.inl ⟨rfl, rfl, (enableStart_pass4 s hc).trans (enableRun_hold8 _ 9 rfl ha)⟩)
    | true =>
      refine .inr (.inr ⟨rfl, rfl, ?_⟩)
      rw [enableStart_pass4 s hc]
      refine (enableRun_pass8 _ 6 rfl (by exact ha)).trans ?_
      simp [startedAtE10, coreReset, livePhy, State.deliver, ha]

/-- Settles O24: the state at each of the three holds, read field by field. -/
theorem enableRunsToItsFirstWait : Obligations.EnableRunsToItsFirstWait := by
  unfold Obligations.EnableRunsToItsFirstWait
  refine fun s => ⟨fun hb => if_pos hb, fun hb => ⟨_, exec_usbEnable_next.mpr ⟨hb, rfl⟩, ?_⟩⟩
  rcases enableContinue_enableStart s with ⟨hc, e⟩ | ⟨hc, ha, e⟩ | ⟨hc, ha, e⟩
  · rw [e, hc]
    exact ⟨⟨rfl, rfl, rfl, rfl, fun _ => rfl⟩, rfl, rfl, rfl, fun _ => ⟨rfl, rfl, rfl, rfl, rfl⟩, nofun, nofun⟩
  · rw [e, hc, ha]
    exact ⟨⟨rfl, rfl, rfl, rfl, fun _ => rfl⟩, rfl, rfl, rfl, nofun,
      fun _ _ => ⟨⟨rfl, rfl, rfl, rfl, rfl, rfl⟩, rfl, rfl, rfl, rfl⟩, nofun⟩
  · rw [e, hc, ha]
    exact ⟨⟨rfl, rfl, rfl, rfl, fun _ => rfl⟩, rfl, rfl, rfl, nofun, nofun,
      fun _ _ => ⟨⟨rfl, rfl, rfl, rfl, rfl, rfl⟩, rfl, rfl, rfl⟩⟩

/-! ### Where the sequencer stands -/

/-- A start from an idle core is at one of the waits. -/
theorem enableInv_enableStart (hr : s.usb.csrst = false) : EnableInv (enableContinue (enableStart s)) := by
  rcases enableContinue_enableStart s with ⟨hc, e⟩ | ⟨-, ha, e⟩ | ⟨-, -, e⟩
  · simp [e, EnableInv, startedAtE4, hc, hr]
  · simp [e, EnableInv, startedAtE8, ha, hr]
  · simp [e, EnableInv, startedAtE10]

/-- The three holds of a running sequencer. -/
theorem EnableInv.holds (hs : EnableInv s) (hb : s.usb.enBusy = true) :
    (s.usb.enStep = 3 ∧ s.phy.clkrdy = false) ∨ (s.usb.enStep = 7 ∧ s.usb.ahbidle = false) ∨
      (s.usb.enStep = 9 ∧ s.usb.csrst = true) := by
  obtain ⟨hw, -, -⟩ := hs
  exact hw hb

/-- The core reset bit is clear where USB.ENABLE is not held at E10. -/
theorem EnableInv.csrst_eq_false (hs : EnableInv s) (h : s.usb.enBusy = false ∨ s.usb.enStep ≠ 9) :
    s.usb.csrst = false := by
  obtain ⟨-, -, hr⟩ := hs
  refine Bool.eq_false_iff.mpr fun hc => ?_
  obtain ⟨hb, h9⟩ := hr hc
  rcases h with h | h
  · exact absurd hb (by simp [h])
  · exact h h9

theorem exec_keeps_enableInv {i : Instr} (hs : EnableInv s) (h : exec i s = .next t) : EnableInv t := by
  by_cases hi : i = .usbEnable
  · subst hi
    obtain ⟨hb, rfl⟩ := exec_usbEnable_next.mp h
    exact enableInv_enableStart (hs.csrst_eq_false (.inl hb))
  · exact hs.of_sessionOnly (sessionOnly_of_exec hi h)

/-- A lifted hold gives way to the next one, or the command is complete. -/
theorem runMove_keeps_enableInv (m : EnvMove) (hs : EnableInv s) : EnableInv (runMove m s) := by
  rcases runMove_cases (m := m) hs with
    ⟨-, e⟩ | ⟨-, hi, e⟩ | ⟨rfl, hb, h3, ho, hc⟩ | ⟨rfl, hb, h7, ha⟩ | ⟨rfl, hb, h9, hr⟩
  · rwa [e]
  · rwa [e]
  · obtain ⟨hbusy, hidle⟩ := runMove_clkrdy_lifts ho hc hb h3
    cases ha : s.usb.ahbidle with
    | false => simp [hbusy ha, EnableInv, hb, ha, hs.csrst_eq_false (.inr (by simp [h3]))]
    | true => simp [hidle ha, EnableInv, coreReset, hb]
  · simp [runMove_ahbidle_lifts ha hb h7, EnableInv, coreReset, hb]
  · simp [runMove_crstdone_lifts hr hb h9, EnableInv, enableDone]

/-- Settles O49: a start stops at a wait whose bit is not set, a lifted hold at the next one, and nothing else touches the
sequencer. -/
theorem stepKeepsTheSequencer : Obligations.StepKeepsTheSequencer := fun _ _ hs h =>
  step_keeps (fun _ _ _ _ h => h) (fun _ _ _ => exec_keeps_enableInv) (fun m _ => runMove_keeps_enableInv m) hs h

end Sys2Proof.Safety
end

section
/-! The order contract under every step (44_usb_control.md R111, R128, 70_reset_and_hazards.md R210, R211): the link is down
until the last steps of USB.ENABLE bring it up, and a running USB.ENABLE has a PHY as its completed steps left it. -/

namespace Sys2Proof.Safety

open Sys2Proof.Machine

variable {s t : State}

/-! ### The contract by the two states of the link -/

/-- The link is not functional: soft-disconnected, the turnaround field not programmed, the interrupts masked. -/
def LinkDown (s : State) : Prop :=
  s.usb.linkOk = false ∧ s.usb.sftdiscon = true ∧ s.usb.trdset = false ∧ s.usb.ginten = false ∧ s.usb.intm = 0

/-- What the completed steps of a running USB.ENABLE have written or found ready (R112 to R119). -/
structure StepsWritten (s : State) : Prop where
  clock : s.phy.oscsel = true ∧ s.phy.calen = true ∧ s.phy.clkrec = true
  phy : 7 ≤ s.usb.enStep.val → PhyOn s.phy ∧ s.phy.clkrdy = true
  ahb : 9 ≤ s.usb.enStep.val → s.usb.ahbidle = true

theorem phyOn_livePhy : PhyOn livePhy := ⟨rfl, rfl, rfl, rfl, rfl, rfl⟩

theorem LinkInv.of_down (hd : LinkDown t) (hw : t.usb.enBusy = true → StepsWritten t) : LinkInv t := by
  obtain ⟨hl, hsft, htrd, hgin, hintm⟩ := hd
  exact ⟨by rw [hsft, hl]; rfl, htrd.trans hl.symm, hgin.trans hl.symm, by simp [hintm, hl],
    fun h => absurd h (by simp [hl]), fun hb => (hw hb).clock, fun hb => (hw hb).phy, fun hb => (hw hb).ahb⟩

theorem LinkInv.down (hs : LinkInv s) (hl : s.usb.linkOk = false) : LinkDown s := by
  obtain ⟨hsft, htrd, hgin, hintm, -⟩ := hs
  exact ⟨hl, by rw [hsft, hl]; rfl, htrd.trans hl, hgin.trans hl, by simpa [hl] using hintm⟩

theorem LinkInv.stepsWritten (hs : LinkInv s) (hb : s.usb.enBusy = true) : StepsWritten s := by
  obtain ⟨-, -, -, -, -, hosc, hphy, hahb⟩ := hs
  exact ⟨hosc hb, hphy hb, hahb hb⟩

/-- The link is down where the clock or the AHB master is not ready, and while USB.ENABLE runs. -/
theorem LinkInv.down_of (hs : LinkInv s) (h : s.phy.clkrdy = false ∨ s.usb.ahbidle = false ∨ s.usb.enBusy = true) :
    LinkDown s := by
  refine hs.down (Bool.eq_false_iff.mpr fun hl => ?_)
  obtain ⟨-, -, -, -, hup, -⟩ := hs
  obtain ⟨-, hc, ha, hb, -⟩ := hup hl
  simp [hc, ha, hb] at h

theorem LinkInv.of_sessionOnly (hs : LinkInv s) (h : SessionOnly s t) : LinkInv t := by
  obtain ⟨hphy, husb⟩ := h
  rw [LinkInv, hphy, husb]
  exact hs

/-! ### Commands -/

/-- A start of USB.ENABLE has written what its completed steps write. -/
theorem stepsWritten_enableStart (s : State) : StepsWritten (enableContinue (enableStart s)) := by
  rcases enableContinue_enableStart s with ⟨-, e⟩ | ⟨-, -, e⟩ | ⟨-, -, e⟩
  · rw [e]
    exact ⟨⟨rfl, rfl, rfl⟩, nofun, nofun⟩
  · rw [e]
    exact ⟨⟨rfl, rfl, rfl⟩, fun _ => ⟨phyOn_livePhy, rfl⟩, nofun⟩
  · rw [e]
    exact ⟨⟨rfl, rfl, rfl⟩, fun _ => ⟨phyOn_livePhy, rfl⟩, fun _ => rfl⟩

/-- A start of USB.ENABLE finds the link down or takes it down with the core reset. -/
theorem LinkInv.down_enableStart (hs : LinkInv s) : LinkDown (enableContinue (enableStart s)) := by
  rcases enableContinue_enableStart s with ⟨hc, e⟩ | ⟨-, ha, e⟩ | ⟨-, -, e⟩
  · rw [e]
    exact hs.down_of (.inl hc)
  · rw [e]
    exact hs.down_of (.inr (.inl ha))
  · rw [e]
    exact ⟨rfl, rfl, rfl, rfl, rfl⟩

theorem exec_keeps_linkInv {i : Instr} (hs : LinkInv s) (h : exec i s = .next t) : LinkInv t := by
  by_cases hi : i = .usbEnable
  · subst hi
    obtain ⟨-, rfl⟩ := exec_usbEnable_next.mp h
    exact .of_down hs.down_enableStart fun _ => stepsWritten_enableStart s
  · exact hs.of_sessionOnly (sessionOnly_of_exec hi h)

/-! ### Moves -/

/-- ENV.CLKRDY at the hold of E4 adds E5 to E7, and with the AHB master idle the core reset. -/
theorem StepsWritten.lift_clkrdy (hw : StepsWritten s) (hc : s.phy.clkrdy = false) (hb : s.usb.enBusy = true)
    (h3 : s.usb.enStep = 3) : StepsWritten (runMove .clkrdy s) := by
  obtain ⟨hosc, hcal, hrec⟩ := hw.clock
  obtain ⟨hbusy, hidle⟩ := runMove_clkrdy_lifts hosc hc hb h3
  have hon : PhyOn { s.phy with clkrdy := true, clksel := true, lpdis := true, phyen := true } :=
    ⟨hosc, hcal, hrec, rfl, rfl, rfl⟩
  cases ha : s.usb.ahbidle with
  | false => rw [hbusy ha]; exact ⟨⟨hosc, hcal, hrec⟩, fun _ => ⟨hon, rfl⟩, nofun⟩
  | true => rw [hidle ha]; exact ⟨⟨hosc, hcal, hrec⟩, fun _ => ⟨hon, rfl⟩, fun _ => ha⟩

/-- ENV.AHBIDLE at the hold of E8 adds the core reset. -/
theorem StepsWritten.lift_ahbidle (hw : StepsWritten s) (ha : s.usb.ahbidle = false) (hb : s.usb.enBusy = true)
    (h7 : s.usb.enStep = 7) : StepsWritten (runMove .ahbidle s) := by
  rw [runMove_ahbidle_lifts ha hb h7]
  exact ⟨hw.clock, fun _ => hw.phy (by simp [h7]), fun _ => rfl⟩

/-- Up to the hold at E10 the sequencer leaves the link down. -/
theorem LinkDown.lift_clkrdy (hd : LinkDown s) (ho : s.phy.oscsel = true) (hc : s.phy.clkrdy = false)
    (hb : s.usb.enBusy = true) (h3 : s.usb.enStep = 3) : LinkDown (runMove .clkrdy s) := by
  obtain ⟨hbusy, hidle⟩ := runMove_clkrdy_lifts ho hc hb h3
  cases ha : s.usb.ahbidle with
  | false => rw [hbusy ha]; exact hd
  | true => rw [hidle ha]; exact ⟨rfl, rfl, rfl, rfl, rfl⟩

/-- A move's own effect never takes readiness away but by hardware reset, which takes the link down. -/
theorem effect_keeps_linkInv (m : EnvMove) (hs : LinkInv s) : LinkInv (m.effect s) := by
  rcases effect_cases m s with h | rfl | rfl | rfl | ⟨c, a, n, rfl⟩
  · exact hs.of_sessionOnly h
  · obtain ⟨hsft, htrd, hgin, hintm, hup, hosc, hphy, hahb⟩ := hs
    refine ⟨hsft, htrd, hgin, hintm, fun hl => ?_, hosc, fun hb h7 => ⟨(hphy hb h7).1, rfl⟩, hahb⟩
    obtain ⟨hon, -, hrest⟩ := hup hl
    exact ⟨hon, rfl, hrest⟩
  · obtain ⟨hsft, htrd, hgin, hintm, hup, hosc, hphy, hahb⟩ := hs
    refine ⟨hsft, htrd, hgin, hintm, fun hl => ?_, hosc, hphy, fun _ _ => rfl⟩
    obtain ⟨hon, hc, -, hrest⟩ := hup hl
    exact ⟨hon, hc, rfl, hrest⟩
  · exact hs
  · exact .of_down ⟨rfl, rfl, rfl, rfl, rfl⟩ nofun

/-- A lifted hold finds the PHY as the steps before it left it; the last one brings the link up. -/
theorem runMove_keeps_linkInv (m : EnvMove) (hi : EnableInv s) (hs : LinkInv s) : LinkInv (runMove m s) := by
  rcases runMove_cases (m := m) hi with
    ⟨-, e⟩ | ⟨-, -, e⟩ | ⟨rfl, hb, h3, ho, hc⟩ | ⟨rfl, hb, h7, ha⟩ | ⟨rfl, hb, h9, hr⟩
  · rwa [e]
  · rw [e]
    exact effect_keeps_linkInv m hs
  · exact .of_down ((hs.down_of (.inl hc)).lift_clkrdy ho hc hb h3) fun _ => (hs.stepsWritten hb).lift_clkrdy hc hb h3
  · have hd : LinkDown (runMove .ahbidle s) := by
      rw [runMove_ahbidle_lifts ha hb h7]
      exact ⟨rfl, rfl, rfl, rfl, rfl⟩
    exact .of_down hd fun _ => (hs.stepsWritten hb).lift_ahbidle ha hb h7
  · have hw := hs.stepsWritten hb
    obtain ⟨hon, hc⟩ := hw.phy (by simp [h9])
    rw [runMove_crstdone_lifts hr hb h9]
    exact ⟨rfl, rfl, rfl, rfl, fun _ => ⟨hon, hc, hw.ahb (by simp [h9]), rfl, rfl⟩, nofun, nofun, nofun⟩

/-- Settles O50: only USB.ENABLE and the moves it waits for touch what the contract speaks of; a start finds or leaves the
link down, and only the last lifted hold, with the PHY live, brings it up. -/
theorem stepKeepsTheOrderContract : Obligations.StepKeepsTheOrderContract := fun _ _ hi hs h =>
  (step_keeps (P := fun u => EnableInv u ∧ LinkInv u) (fun _ _ _ _ h => h)
    (fun _ _ _ hu he => ⟨exec_keeps_enableInv hu.1 he, exec_keeps_linkInv hu.2 he⟩)
    (fun m _ hu => ⟨runMove_keeps_enableInv m hu.1, runMove_keeps_linkInv m hu.1 hu.2⟩) ⟨hi, hs⟩ h).2

end Sys2Proof.Safety
end

section
/-! The holds of USB.ENABLE: each is left by its own move only, the last one completes the command, and with the three
readiness moves following the command completes from every start (44_usb_control.md R111 to R127). -/

namespace Sys2Proof.Safety

open Sys2Proof.Machine

variable {s t : State} {c : Context}

/-! ### Leaving a hold -/

/-- A move that is not awaited leaves a running sequencer at its step, unless it is a hardware reset. -/
theorem runMove_keeps_hold {m : EnvMove} (hi : EnableInv s) (ha : awaited s ≠ some m)
    (hm : ∀ c a n, m ≠ .hardwareReset c a n) :
    (runMove m s).usb.enBusy = s.usb.enBusy ∧ (runMove m s).usb.enStep = s.usb.enStep := by
  cases he : m.enabled s with
  | false => rw [runMove_disabled he]; exact ⟨rfl, rfl⟩
  | true =>
    rw [runMove_not_awaited hi he ha]
    cases m with
    | hardwareReset c a n => exact absurd rfl (hm c a n)
    | _ => exact ⟨rfl, rfl⟩

/-- A step that is neither the awaited move nor a hardware reset leaves USB.ENABLE holding at its step. -/
theorem step_keeps_hold {m : EnvMove} (hi : EnableInv s) (hb : s.usb.enBusy = true) (h : step s = .next t)
    (hreset : ∀ c a n rest, ¬ NextMove s (.hardwareReset c a n) rest) (ha : awaited s = some m)
    (hm : ∀ rest, ¬ NextMove s m rest) : t.usb.enBusy = true ∧ t.usb.enStep = s.usb.enStep := by
  rcases step_while_enabling hb h with ⟨m', rest, hnext, rfl⟩ | ⟨husb, -⟩
  · have ha' : awaited s ≠ some m' := fun h' => hm rest (Option.some.inj (ha.symm.trans h') ▸ hnext)
    have hm' : ∀ c a n, m' ≠ .hardwareReset c a n := fun c a n h' => hreset c a n rest (h' ▸ hnext)
    rw [← hb]
    exact runMove_keeps_hold (s := { s with inputs := rest }) hi ha' hm'
  · rw [husb]
    exact ⟨hb, rfl⟩

/-- Settles O27: each wait awaits one move, and only the awaited move or a hardware reset takes the sequencer from it. -/
theorem holdIsLiftedOnlyByItsMove : Obligations.HoldIsLiftedOnlyByItsMove := by
  unfold Obligations.HoldIsLiftedOnlyByItsMove
  intro s t hi hb h hreset
  refine ⟨fun h3 hm => ?_, fun h7 hm => ?_, fun h9 hm => ?_⟩
  · exact h3 ▸ step_keeps_hold hi hb h hreset (by simp [awaited, hb, h3]) hm
  · exact h7 ▸ step_keeps_hold hi hb h hreset (by simp [awaited, hb, h7]) hm
  · exact h9 ▸ step_keeps_hold hi hb h hreset (by simp [awaited, hb, h9]) hm

theorem irqUsb_of_no_flag (h : s.usb.ints = 0) : irqUsb s = false := by simp [irqUsb, anyFlag, h]

/-- Settles O25: the state ENV.CRSTDONE leaves at the hold of E10, read field by field. -/
theorem enableCompletesAfterTheCoreReset : Obligations.EnableCompletesAfterTheCoreReset := by
  unfold Obligations.EnableCompletesAfterTheCoreReset
  intro s rest hn hb h9 hr
  rw [step_env hn, runMove_crstdone_lifts (s := { s with inputs := rest }) hr hb h9]
  exact ⟨_, rfl, rfl, rfl, rfl, by rfl, rfl, rfl, rfl, rfl, irqUsb_of_no_flag rfl⟩

/-! ### The three readiness moves in a row -/

/-- In `t` a USB.ENABLE of context `c` runs that was issued in `s`: it holds at one of its waits, its completed steps are
written, and the allocation and pending state is that of `s`. -/
structure Underway (s : State) (c : Context) (t : State) : Prop where
  inv : EnableInv t
  busy : t.usb.enBusy = true
  written : StepsWritten t
  issuer : t.usb.enIssuer = c
  kept : t.usb.ctrlAlloc = s.usb.ctrlAlloc ∧ t.usb.next = s.usb.next ∧ t.usb.pend = s.usb.pend

/-- What waits is nothing to a running USB.ENABLE. -/
theorem Underway.inputs (h : Underway s c t) (xs : List Stimulus) : Underway s c { t with inputs := xs } :=
  ⟨h.inv, h.busy, ⟨h.written.clock, h.written.phy, h.written.ahb⟩, h.issuer, h.kept⟩

theorem underway_enableStart {u : State} (hu : u.usb = s.usb) (hi : u.port.issuer = c) (hr : s.usb.csrst = false) :
    Underway s c (enableContinue (enableStart u)) := by
  rw [← hu] at hr
  have hinv := enableInv_enableStart hr
  have hw := stepsWritten_enableStart u
  obtain ⟨-, -, -, -, -, -, halloc, hnext, hpend, -, -, hissuer⟩ := enableRun_frame 16 (enableStart u)
  refine ⟨hinv, ?_, hw, hissuer.trans hi, ?_⟩
  · rcases enableContinue_enableStart u with ⟨-, e⟩ | ⟨-, -, e⟩ | ⟨-, -, e⟩ <;> rw [e] <;> rfl
  · rw [← hu]
    exact ⟨halloc, hnext, hpend⟩

/-- After ENV.CLKRDY the sequencer is past E4. -/
theorem Underway.clkrdy (h : Underway s c t) :
    Underway s c (runMove .clkrdy t) ∧ 7 ≤ (runMove .clkrdy t).usb.enStep.val := by
  have ⟨hinv, hb, hw, hissuer, hkept⟩ := h
  have hpast (h7 : 7 ≤ t.usb.enStep.val) :
      Underway s c (runMove .clkrdy t) ∧ 7 ≤ (runMove .clkrdy t).usb.enStep.val := by
    obtain ⟨-, hc⟩ := hw.phy h7
    rw [runMove_disabled (by simp [EnvMove.enabled, hc])]
    exact ⟨h, h7⟩
  rcases hinv.holds hb with ⟨h3, hc⟩ | ⟨h7, -⟩ | ⟨h9, -⟩
  · have hinv' := runMove_keeps_enableInv .clkrdy hinv
    have hw' := hw.lift_clkrdy hc hb h3
    obtain ⟨hosc, -⟩ := hw.clock
    obtain ⟨hbusy, hidle⟩ := runMove_clkrdy_lifts hosc hc hb h3
    cases ha : t.usb.ahbidle with
    | false => rw [hbusy ha] at hinv' hw' ⊢; exact ⟨⟨hinv', hb, hw', hissuer, hkept⟩, le_rfl⟩
    | true => rw [hidle ha] at hinv' hw' ⊢; exact ⟨⟨hinv', hb, hw', hissuer, hkept⟩, by simp⟩
  · exact hpast (by simp [h7])
  · exact hpast (by simp [h9])

/-- After ENV.AHBIDLE too it is at E10. -/
theorem Underway.ahbidle (h : Underway s c t) (h7 : 7 ≤ t.usb.enStep.val) :
    Underway s c (runMove .ahbidle t) ∧ (runMove .ahbidle t).usb.enStep = 9 := by
  have ⟨hinv, hb, hw, hissuer, hkept⟩ := h
  rcases hinv.holds hb with ⟨h3, -⟩ | ⟨h7, ha⟩ | ⟨h9, -⟩
  · simp [h3] at h7
  · have hinv' := runMove_keeps_enableInv .ahbidle hinv
    have hw' := hw.lift_ahbidle ha hb h7
    rw [runMove_ahbidle_lifts ha hb h7] at hinv' hw' ⊢
    exact ⟨⟨hinv', hb, hw', hissuer, hkept⟩, rfl⟩
  · have ha := hw.ahb (by simp [h9])
    rw [runMove_disabled (by simp [EnvMove.enabled, ha])]
    exact ⟨h, h9⟩

/-- CORE_CFG with the turnaround field programmed (10_state.md R25). -/
theorem regCoreCfg_programmed (h : s.usb.trdset = true) : regCoreCfg s = 0x10 + s.usb.trdtim.setWidth 32 := by
  have key : ∀ v : BitVec 4, ((0 : BitVec 27) ++ (flagBit true ++ v) : Word) = 0x10 + v.setWidth 32 := by decide
  rw [regCoreCfg, h]
  exact key _

/-- In `t` a USB.ENABLE of context `c` issued in `s` has returned 0, the registers are those of vector V26, the device is
presented, and the allocation and pending state is that of `s` (95_test_vectors.md V26). -/
def Completed (s : State) (c : Context) (t : State) : Prop :=
  t.port.res = okWord 0 ∧ t.port.issuer = c ∧
    readRegister 0x00 t = some 0x3F ∧ readRegister 0x01 t = some 0x01 ∧ readRegister 0x02 t = some 0x80000000 ∧
    readRegister 0x03 t = some (0x10 + Config.trdtimValue.setWidth 32) ∧
    readRegister 0x04 t = some 0 ∧ readRegister 0x05 t = some 0x0F ∧ readRegister 0x06 t = some 0x01 ∧
    readRegister 0x0D t = some 0x0F ∧ t.usb.linkOk = true ∧ presented t = true ∧
    t.usb.ctrlAlloc = s.usb.ctrlAlloc ∧ t.usb.next = s.usb.next ∧ t.usb.pend = s.usb.pend

/-- At E10, ENV.CRSTDONE completes the command. -/
theorem Underway.crstdone (h : Underway s c t) (h9 : t.usb.enStep = 9) : Completed s c (runMove .crstdone t) := by
  obtain ⟨hinv, hb, hw, hissuer, hkept⟩ := h
  have hr : t.usb.csrst = true := by
    rcases hinv.holds hb with ⟨h3, -⟩ | ⟨h7, -⟩ | ⟨-, hr⟩
    · simp [h9] at h3
    · simp [h9] at h7
    · exact hr
  obtain ⟨⟨h1, h2, h3, h4, h5, h6⟩, hc⟩ := hw.phy (by simp [h9])
  have ha := hw.ahb (by simp [h9])
  rw [runMove_crstdone_lifts hr hb h9]
  refine ⟨rfl, hissuer, ?_, ?_, ?_, ?_, ?_, ?_, ?_, ?_, rfl, rfl, hkept⟩
  · simp [readRegister, regPhyCtrl, enableDone, h1, h2, h3, h4, h5, h6, flagBit]
  · simp [readRegister, regPhyStat, enableDone, hc, flagBit]
  · simp [readRegister, regCoreRst, enableDone, ha, flagBit]
  · exact congrArg some (regCoreCfg_programmed rfl)
  · simp [readRegister, regIntSts, enableDone]
  · simp [readRegister, regIntMsk, enableDone]
  · simp [readRegister, regCoreCtl, enableDone, flagBit]
  · simp [readRegister, regEnStat, enableDone, flagBit]

/-! ### From the command to its result -/

theorem core_run_succ {k : Nat} (h : step s = .next t) : Host.Core.run core (k + 1) s = Host.Core.run core k t := by
  have h' : core.step s = .next t := h
  simp only [Host.Core.run, h']

/-- A move leaves what waits. -/
theorem runMove_inputs (m : EnvMove) (s : State) : (runMove m s).inputs = s.inputs := by
  unfold runMove
  split
  · obtain ⟨-, -, hinputs⟩ := enableResume_buf_host_inputs (m.effect s)
    rw [hinputs]
    cases m <;> rfl
  · rfl

theorem core_run_move {k : Nat} {m : EnvMove} {rest : List Stimulus} (h : s.inputs = .env m :: rest) :
    Host.Core.run core (k + 1) s = Host.Core.run core k (runMove m { s with inputs := rest }) := core_run_succ (step_env h)

theorem inputs_enableStart (s : State) : (enableContinue (enableStart s)).inputs = s.inputs := by
  obtain ⟨-, -, -, -, hinputs, -⟩ := enableRun_frame 16 (enableStart s)
  exact hinputs

/-- A waiting USB.ENABLE of a context that may act and owns the port starts. -/
theorem step_usbEnable {buf : Memory} {rest : List Stimulus} (hb : s.usb.enBusy = false) (hr : s.usb.csrst = false)
    (hm : mayAct c s = true) (ho : ownsPort c .usbEnable s = true) (hi : s.inputs = .cmd c 0x40000000 buf :: rest) :
    ∃ t, step s = .next t ∧ Underway s c t ∧ t.inputs = rest := by
  have hd : decode 0x40000000 = .ok .usbEnable := by decide
  rw [step_waitingCommand hi hm, runCommand_owner hd ((ownsPort_host _ _ _ _ _).trans ho)]
  exact ⟨_, exec_usbEnable_next.mpr ⟨hb, rfl⟩, underway_enableStart rfl rfl hr, inputs_enableStart _⟩

/-- Settles O26: the start and the first two moves take the sequencer to E10, whichever of its bits were set before, and the
third completes the command. -/
theorem enableCompletesOnWorkingSilicon : Obligations.EnableCompletesOnWorkingSilicon := by
  unfold Obligations.EnableCompletesOnWorkingSilicon
  intro s c rest hb hr hm ho hi
  obtain ⟨u, hu, hstart, hinputs⟩ := step_usbEnable hb hr hm ho hi
  obtain ⟨hclk, h7⟩ := (hstart.inputs (.env .ahbidle :: .env .crstdone :: rest)).clkrdy
  obtain ⟨hahb, h9⟩ := (hclk.inputs (.env .crstdone :: rest)).ahbidle h7
  refine ⟨_, ?_, runMove_inputs _ _, (hahb.inputs rest).crstdone h9⟩
  rw [core_run_succ hu, core_run_move hinputs, core_run_move (runMove_inputs _ _), core_run_move (runMove_inputs _ _)]
  rfl

end Sys2Proof.Safety
end

section
/-! The USB commands of the session (44_usb_control.md R129 to R135): what each answers, that a hold of USB.ENABLE refuses them,
that an error changes nothing, and that the endpoint-0 flags are acknowledged by none of them. -/

namespace Sys2Proof.Safety

open Sys2Proof.Machine

variable {s t : State}

/-! ### Refused during a hold -/

/-- While USB.ENABLE holds, every USB command is refused (R111, 60_exceptions.md R173). -/
theorem exec_isUsb_refused {i : Instr} (hi : i.isUsb = true) (hb : s.usb.enBusy = true) :
    exec i s = .refused (.hostProtocol .usbWhileEnabling) := by
  have hfree (r : Result) : whenUsbFree s r = .refused (.hostProtocol .usbWhileEnabling) := if_pos hb
  cases i with
  | usbEnable | usbReset | usbAlloc | usbWrite | usbRead | usbSetaddr | usbSetstall | usbIsstalled | usbPoll =>
    exact hfree _
  | _ => exact nomatch hi

/-- Settles O28: the USB commands all ask for a free unit, SYS.RDREG for a defined register alone. -/
theorem holdRefusesUsbCommands : Obligations.HoldRefusesUsbCommands := fun _ _ hb =>
  ⟨fun hi => exec_isUsb_refused hi hb, fun _ v hi hv => ⟨_, hi ▸ exec_sysRdreg_next.mpr ⟨v, hv, rfl⟩⟩⟩

/-! ### Session, address and stall bits -/

/-- Settles O29: the state USB.RESET leaves, read field by field. -/
theorem usbResetClearsTheSession : Obligations.UsbResetClearsTheSession := fun _ hb =>
  ⟨_, exec_usbReset_next.mpr ⟨hb, rfl⟩, rfl, rfl, answers_ok 0 [] rfl⟩

/-- The address register has seven bits (R131). -/
theorem deviceAddress_toNat (a : BitVec 8) : (deviceAddress a).toNat = a.toNat % 128 := by simp [deviceAddress]

/-- Settles O32: the state USB.SETADDR leaves, read field by field. -/
theorem setAddressTakesSevenBits : Obligations.SetAddressTakesSevenBits := fun _ a hb =>
  ⟨_, exec_usbSetaddr_next.mpr ⟨hb, rfl⟩, deviceAddress_toNat a, rfl, rfl, answers_ok 0 [] rfl⟩

/-- One direction assigned, for index 0 only (R133). -/
theorem assignedStall_get (p : PerDir Bool) (d d' : Dir) (idx : Nat) (b : Bool) :
    (if idx = 0 then p.set d b else p).get d' = if idx = 0 ∧ d' = d then b else p.get d' := by
  by_cases h0 : idx = 0
  · by_cases hd : d' = d
    · simp [h0, hd]
    · simp [h0, hd, PerDir.get_set_ne]
  · simp [h0]

/-- A bit as the value of a result (R134). -/
theorem ofBool_half (b : Bool) : (BitVec.ofBool b).setWidth 16 = if b then 1 else 0 := by cases b <;> rfl

/-- Settles O33: the stall bits USB.SETSTALL leaves, read at each direction, and the bit USB.ISSTALLED answers. -/
theorem stallBitsServeEndpointZero : Obligations.StallBitsServeEndpointZero := fun s d idx b hb =>
  ⟨⟨_, exec_usbSetstall_next.mpr ⟨hb, rfl⟩, rfl, rfl, answers_ok 0 [] rfl,
      fun d' => assignedStall_get s.usb.stall d d' idx b⟩,
    ⟨_, exec_usbIsstalled_next.mpr ⟨hb, rfl⟩, rfl, ofBool_half (s.usb.stall.get d) ▸ answers_ok _ [] rfl⟩⟩

/-! ### Allocation -/

theorem endpointValue_control (d : Dir) : endpointValue ⟨d, 0⟩ = if d = .inn then 0x80 else 0x00 := by cases d <;> decide

/-- The number below the ceiling that follows `n`, with the direction bit (30_encoding.md R71). -/
theorem endpointValue_interface (d : Dir) {n : Fin 4} (hn : n.val < 3) :
    endpointValue (interfaceAddress d (n + 1)) = BitVec.ofNat 16 ((if d = .inn then 0x80 else 0x00) + n.val + 1) := by
  revert n
  cases d <;> decide

/-- Settles O30: the four cases of USB.ALLOC. -/
theorem allocGivesSequentialEndpoints : Obligations.AllocGivesSequentialEndpoints := by
  unfold Obligations.AllocGivesSequentialEndpoints
  refine fun s d idx hb => ⟨fun h0 hc => ?_, fun h0 hc => ?_, fun h0 n hn hlt => ?_, fun h0 hn => ?_⟩
  · refine ⟨_, exec_usbAlloc_next.mpr ⟨hb, .inr (.inl ⟨h0, hc, rfl⟩)⟩, rfl, rfl, ?_⟩
    rw [← endpointValue_control]
    exact answers_ok _ [] rfl
  · exact ⟨_, exec_usbAlloc_next.mpr ⟨hb, .inl ⟨h0, hc, rfl⟩⟩, rfl, answers_error .alreadyAllocated [] rfl⟩
  · have h3 : s.usb.next.get d ≠ 3 := fun h => by simp [← hn, h] at hlt
    refine ⟨_, exec_usbAlloc_next.mpr ⟨hb, .inr (.inr (.inr ⟨h0, h3, rfl⟩))⟩, by rw [← hn]; rfl, rfl, ?_⟩
    rw [← endpointValue_interface d hlt, ← hn]
    exact answers_ok _ [] rfl
  · exact ⟨_, exec_usbAlloc_next.mpr ⟨hb, .inr (.inr (.inl ⟨h0, Fin.ext hn, rfl⟩))⟩, rfl,
      answers_error .capacityExceeded [] rfl⟩

/-! ### Polling -/

/-- USBRST or ENUMDONE (10_state.md R26). -/
theorem anyFlag_reset_iff {ints : BitVec 4} :
    anyFlag ints 3 = true ↔ ints.getLsbD 0 = true ∨ ints.getLsbD 1 = true := by
  revert ints
  decide

/-- Clearing USBRST and ENUMDONE leaves EP0IN and EP0OUT. -/
theorem clearFlags_reset (ints : BitVec 4) :
    (clearFlags ints 3).getLsbD 0 = false ∧ (clearFlags ints 3).getLsbD 1 = false ∧
      (clearFlags ints 3).getLsbD 2 = ints.getLsbD 2 ∧ (clearFlags ints 3).getLsbD 3 = ints.getLsbD 3 := by
  revert ints
  decide

/-- USB.POLL with a flag of the two set reports one Reset and clears both (R135). -/
theorem exec_usbPoll_reset (hb : s.usb.enBusy = false) (hf : anyFlag s.usb.ints 3 = true) :
    exec .usbPoll s = .next (State.deliver (some (resultWord 0 1)) []
      { s with usb := { s.usb with ints := clearFlags s.usb.ints 3 } }) :=
  exec_usbPoll_next.mpr ⟨hb, (if_pos hf).symm⟩

/-- USB.POLL with neither set clears the pending bits (R135). -/
theorem exec_usbPoll_none (hb : s.usb.enBusy = false) (hf : ¬ anyFlag s.usb.ints 3 = true) :
    exec .usbPoll s = .next (State.deliver (some (resultWord 0 0)) []
      { s with usb := { s.usb with pend := ⟨false, false⟩ } }) :=
  exec_usbPoll_next.mpr ⟨hb, (if_neg hf).symm⟩

/-- Settles O34: by whether one of the two flags is set. -/
theorem pollReportsOneReset : Obligations.PollReportsOneReset := by
  unfold Obligations.PollReportsOneReset
  intro s hb
  by_cases hf : s.usb.ints.getLsbD 0 = true ∨ s.usb.ints.getLsbD 1 = true
  · exact ⟨_, exec_usbPoll_reset hb (anyFlag_reset_iff.mpr hf), rfl, rfl,
      fun _ => ⟨answers_ok 1 [] rfl, rfl, clearFlags_reset s.usb.ints⟩,
      fun h0 h1 => absurd hf (not_or.mpr ⟨Bool.eq_false_iff.mp h0, Bool.eq_false_iff.mp h1⟩)⟩
  · exact ⟨_, exec_usbPoll_none hb (anyFlag_reset_iff.not.mpr hf), rfl, rfl, fun h => absurd h hf,
      fun _ _ => ⟨answers_ok 0 [] rfl, rfl, rfl⟩⟩

/-! ### Errors -/

/-- A command that gives a next state raises an error on the state as it is, answers Ok, or, USB.ENABLE at a hold, answers
nothing yet (60_exceptions.md R171). -/
theorem exec_answer {i : Instr} (h : exec i s = .next t) :
    (∃ (e : ErrorResult) (data : List Byte), t = s.deliver (some (resultWord e.code 0)) data) ∨
      (∃ v, t.port.res = some (resultWord 0 v)) ∨ t.port.res = none := by
  cases i with
  | capMeasure => obtain ⟨-, rfl⟩ := exec_capMeasure_next.mp h; exact .inr (.inl ⟨_, rfl⟩)
  | capCapture => obtain ⟨-, -, rfl⟩ := exec_capCapture_next.mp h; exact .inr (.inl ⟨_, rfl⟩)
  | tmrAck => obtain rfl := exec_tmrAck_next.mp h; exact .inr (.inl ⟨_, rfl⟩)
  | sysRdreg => obtain ⟨v, -, rfl⟩ := exec_sysRdreg_next.mp h; exact .inr (.inl ⟨_, rfl⟩)
  | fltPush => obtain rfl := exec_fltPush_next.mp h; exact .inr (.inl ⟨_, rfl⟩)
  | fltRaw => obtain rfl := exec_fltRaw_next.mp h; exact .inr (.inl ⟨_, rfl⟩)
  | fltMean => obtain rfl := exec_fltMean_next.mp h; exact .inr (.inl ⟨_, rfl⟩)
  | fltMax => obtain rfl := exec_fltMax_next.mp h; exact .inr (.inl ⟨_, rfl⟩)
  | qSplit => obtain ⟨-, rfl⟩ := exec_qSplit_next.mp h; exact .inr (.inl ⟨_, rfl⟩)
  | qEnq =>
    obtain ⟨-, ⟨q, -, rfl⟩ | ⟨-, rfl⟩⟩ := exec_qEnq_next.mp h
    · exact .inr (.inl ⟨_, rfl⟩)
    · exact .inl ⟨.queueFull, _, rfl⟩
  | qDeq =>
    obtain ⟨-, ⟨f, q, -, rfl⟩ | ⟨-, rfl⟩⟩ := exec_qDeq_next.mp h
    · exact .inr (.inl ⟨_, rfl⟩)
    · exact .inl ⟨.empty, _, rfl⟩
  | qLen => obtain rfl := exec_qLen_next.mp h; exact .inr (.inl ⟨_, rfl⟩)
  | usbEnable =>
    obtain ⟨-, rfl⟩ := exec_usbEnable_next.mp h
    rcases enableContinue_enableStart s with ⟨-, e⟩ | ⟨-, -, e⟩ | ⟨-, -, e⟩ <;> rw [e] <;> exact .inr (.inr rfl)
  | usbReset => obtain ⟨-, rfl⟩ := exec_usbReset_next.mp h; exact .inr (.inl ⟨_, rfl⟩)
  | usbAlloc =>
    obtain ⟨-, ⟨-, -, rfl⟩ | ⟨-, -, rfl⟩ | ⟨-, -, rfl⟩ | ⟨-, -, rfl⟩⟩ := exec_usbAlloc_next.mp h
    · exact .inl ⟨.alreadyAllocated, _, rfl⟩
    · exact .inr (.inl ⟨_, rfl⟩)
    · exact .inl ⟨.capacityExceeded, _, rfl⟩
    · exact .inr (.inl ⟨_, rfl⟩)
  | usbWrite =>
    obtain ⟨-, ⟨-, rfl⟩ | ⟨-, -, rfl⟩ | ⟨-, -, -, rfl⟩⟩ := exec_usbWrite_next.mp h
    · exact .inl ⟨.invalidEndpoint, _, rfl⟩
    · exact .inl ⟨.wouldBlock, _, rfl⟩
    · exact .inr (.inl ⟨_, rfl⟩)
  | usbRead =>
    obtain ⟨-, ⟨-, rfl⟩ | ⟨-, -, rfl⟩ | ⟨-, -, rfl⟩⟩ := exec_usbRead_next.mp h
    · exact .inl ⟨.invalidEndpoint, _, rfl⟩
    · exact .inl ⟨.wouldBlock, _, rfl⟩
    · exact .inr (.inl ⟨_, rfl⟩)
  | usbSetaddr => obtain ⟨-, rfl⟩ := exec_usbSetaddr_next.mp h; exact .inr (.inl ⟨_, rfl⟩)
  | usbSetstall => obtain ⟨-, rfl⟩ := exec_usbSetstall_next.mp h; exact .inr (.inl ⟨_, rfl⟩)
  | usbIsstalled => obtain ⟨-, rfl⟩ := exec_usbIsstalled_next.mp h; exact .inr (.inl ⟨_, rfl⟩)
  | usbPoll => obtain ⟨-, rfl⟩ := exec_usbPoll_next.mp h; split <;> exact .inr (.inl ⟨_, rfl⟩)

/-- Settles O54: a nonzero status is that of an error, and raising one only delivers it. -/
theorem errorsChangeNothing : Obligations.ErrorsChangeNothing := by
  unfold Obligations.ErrorsChangeNothing
  intro i s t r h hr hstatus
  rcases exec_answer h with ⟨e, data, rfl⟩ | ⟨v, hv⟩ | hnone
  · exact ⟨rfl, fun _ => rfl⟩
  · obtain rfl := Option.some.inj (hr.symm.trans hv)
    exact absurd (resultWord_status 0 v) hstatus
  · exact nomatch hr.symm.trans hnone

/-! ### The endpoint-0 flags -/

/-- No command but USB.ENABLE clears more than USBRST and ENUMDONE. -/
theorem exec_ints {i : Instr} (hi : i ≠ .usbEnable) (h : exec i s = .next t) :
    t.usb.ints = s.usb.ints ∨ t.usb.ints = clearFlags s.usb.ints 3 := by
  cases i with
  | usbEnable => exact absurd rfl hi
  | usbReset => obtain ⟨-, rfl⟩ := exec_usbReset_next.mp h; exact .inl rfl
  | usbAlloc =>
    obtain ⟨-, ⟨-, -, rfl⟩ | ⟨-, -, rfl⟩ | ⟨-, -, rfl⟩ | ⟨-, -, rfl⟩⟩ := exec_usbAlloc_next.mp h <;> exact .inl rfl
  | usbWrite => obtain ⟨-, ⟨-, rfl⟩ | ⟨-, -, rfl⟩ | ⟨-, -, -, rfl⟩⟩ := exec_usbWrite_next.mp h <;> exact .inl rfl
  | usbRead => obtain ⟨-, ⟨-, rfl⟩ | ⟨-, -, rfl⟩ | ⟨-, -, rfl⟩⟩ := exec_usbRead_next.mp h <;> exact .inl rfl
  | usbSetaddr => obtain ⟨-, rfl⟩ := exec_usbSetaddr_next.mp h; exact .inl rfl
  | usbSetstall => obtain ⟨-, rfl⟩ := exec_usbSetstall_next.mp h; exact .inl rfl
  | usbIsstalled => obtain ⟨-, rfl⟩ := exec_usbIsstalled_next.mp h; exact .inl rfl
  | usbPoll =>
    obtain ⟨-, rfl⟩ := exec_usbPoll_next.mp h
    split
    · exact .inr rfl
    · exact .inl rfl
  | _ => exact .inl (congrArg Usb.ints (exec_usb_phy_of_not_isUsb rfl h).1)

/-- A move's own effect only sets flags, except that a hardware reset draws them. -/
theorem effect_ints {m : EnvMove} (hm : ∀ c a n, m ≠ .hardwareReset c a n) (s : State) :
    (m.effect s).usb.ints = s.usb.ints ∨ ∃ mask, (m.effect s).usb.ints = setFlags s.usb.ints mask := by
  cases m with
  | busReset | busEnumdone | busIn | busOut => exact .inr ⟨_, rfl⟩
  | hardwareReset c a n => exact absurd rfl (hm c a n)
  | _ => exact .inl rfl

theorem setFlags_keeps {ints : BitVec 4} {k : Nat} (h : ints.getLsbD k = true) (mask : BitVec 4) :
    (setFlags ints mask).getLsbD k = true := by simp [setFlags, h]

/-- While no USB.ENABLE runs, no move but hardware reset clears a flag. -/
theorem runMove_keeps_flag {m : EnvMove} {k : Nat} (hi : EnableInv s) (hb : s.usb.enBusy = false)
    (hm : ∀ c a n, m ≠ .hardwareReset c a n) (h : s.usb.ints.getLsbD k = true) :
    (runMove m s).usb.ints.getLsbD k = true := by
  have ha : awaited s ≠ some m := by simp [awaited, hb]
  cases he : m.enabled s with
  | false => rwa [runMove_disabled he]
  | true =>
    rw [runMove_not_awaited hi he ha]
    rcases effect_ints hm s with e | ⟨mask, e⟩
    · rwa [e]
    · rw [e]
      exact setFlags_keeps h mask

/-- Settles O35: USB.POLL clears the other two flags alone, and moves only set flags. -/
theorem endpointFlagsAreNeverAcknowledged : Obligations.EndpointFlagsAreNeverAcknowledged := by
  unfold Obligations.EndpointFlagsAreNeverAcknowledged
  intro s t k hi hk hset h hb hreset hcmd
  rcases step_next_cases h with ⟨c, w, buf, i, xs, fs, hnext, hd, -, he⟩ | ⟨m, rest, hm, rfl⟩ | ⟨xs, host, rfl⟩
  · have hne : i ≠ .usbEnable := fun hie => hcmd c w buf hnext (hie ▸ hd)
    have hints := exec_ints hne he
    rw [latchRequest_usb, noteIssue_usb] at hints
    rcases hints with e | e
    · rwa [e]
    · obtain ⟨-, -, h2, h3⟩ := clearFlags_reset s.usb.ints
      rw [e]
      rcases hk with rfl | rfl
      · exact h2.trans hset
      · exact h3.trans hset
  · have hm' : ∀ c a n, m ≠ .hardwareReset c a n := fun c a n hm' => hreset c a n rest (hm' ▸ hm)
    exact runMove_keeps_flag (s := { s with inputs := rest }) hi hb hm' hset
  · exact hset

end Sys2Proof.Safety
end

section
/-! The transfers of endpoint 0 (45_usb_fifo.md R140 to R143): packed words give their bytes back, USB.WRITE appends them,
USB.READ fills the buffer from the words it pops, and the errors and the overflow of both. -/

namespace Sys2Proof.Safety

open Sys2Proof.Machine

variable {s : State}

/-! ### Packing -/

/-- The word that holds a byte of the data. -/
theorem exists_pack_word {b : List Byte} {a : Nat} (h : a < b.length) : ∃ w, (pack b)[a / 4]? = some w :=
  ⟨_, (pack_getElem? b (a / 4)).trans (if_pos (by omega))⟩

/-- Byte `a` comes back from lane `a mod 4` of word `a / 4` (R142). -/
theorem unpack_pack (b : List Byte) : unpack (pack b) b.length = b := by
  refine List.ext_getElem (by rw [unpack_length, pack_length]; omega) fun a hu ha => ?_
  obtain ⟨w, hw⟩ := exists_pack_word ha
  rw [List.getElem_eq_getD (h := hu) 0, List.getElem_eq_getD (h := ha) 0, unpack_getD _ _ a w ha hw,
    pack_lane hw (Nat.mod_lt a (by decide)), Nat.div_add_mod]

/-- Settles O36: byte by byte, through the lane that packing puts it in. -/
theorem unpackInvertsPack : Obligations.UnpackInvertsPack := fun b =>
  ⟨unpack_pack b, pack_length b, fun _ _ hj hbeyond _ hw => (pack_lane hw hj).trans (List.getD_eq_default _ _ hbeyond)⟩

/-! ### USB.WRITE -/

@[simp] theorem readBytes_length (m : Memory) (n : Nat) : (Memory.readBytes m n).length = n := by simp [Memory.readBytes]

theorem readBytes_getD (m : Memory) (n a : Nat) :
    (Memory.readBytes m n).getD a 0 = if a < n then Memory.read m a else 0 := by
  rw [Memory.readBytes, List.getD_eq_getElem?_getD, List.getElem?_map]
  split
  · next h => rw [List.getElem?_range h]; rfl
  · next h => rw [List.getElem?_eq_none (by simpa using h)]; rfl

/-- The words USB.WRITE queues for a length (R141). -/
def writeWords (s : State) (len : Nat) : List FifoWord := pack (Memory.readBytes s.port.buf (transferLen len))

theorem writeWords_length (s : State) (len : Nat) : (writeWords s len).length = (min len 1536 + 3) / 4 := by
  rw [writeWords, pack_length, readBytes_length, transferLen]

theorem transferLen_eq_zero {len : Nat} : transferLen len = 0 ↔ len = 0 := by simp [transferLen]

theorem transferLen_ne_zero {len : Nat} (h : 0 < len) : transferLen len ≠ 0 := transferLen_eq_zero.not.mpr h.ne'

/-- USB.WRITE of a nonzero length to (In, 0), with room for its words. -/
theorem exec_usbWrite_room {len : Nat} (hb : s.usb.enBusy = false) (hlen : 0 < len)
    (hroom : s.usb.txf.length + (writeWords s len).length ≤ 384) :
    exec (.usbWrite .inn 0 len) s = .next
      (State.deliver (some (resultWord 0 (BitVec.ofNat 16 (transferLen len)))) [] { s with
        usb := { s.usb with txf := s.usb.txf ++ writeWords s len, pend := { s.usb.pend with inn := true } } }) :=
  exec_usbWrite_next.mpr ⟨hb, .inr (.inr ⟨⟨rfl, rfl⟩, transferLen_ne_zero hlen, hroom, rfl⟩)⟩

/-- Settles O37: the words queued are the packed bytes of BUF, read lane by lane. -/
theorem writeQueuesTheBuffer : Obligations.WriteQueuesTheBuffer := fun s len hb hlen hroom =>
  ⟨_, writeWords s len, exec_usbWrite_room hb hlen (writeWords_length s len ▸ hroom), rfl, rfl, answers_ok _ [] rfl,
    writeWords_length s len, fun _ _ _ hj hw => (pack_lane hw hj).trans (readBytes_getD _ _ _)⟩

/-! ### Errors and overflow -/

/-- USB.WRITE of a nonzero length to (In, 0) whose words do not all fit (20_memory.md R42). -/
theorem exec_usbWrite_overflow {len : Nat} (hb : s.usb.enBusy = false) (hlen : 0 < len)
    (hfull : 384 < s.usb.txf.length + (writeWords s len).length) :
    exec (.usbWrite .inn 0 len) s = .fault .txFifoOverflow := by
  have hne : writeWords s len ≠ [] := List.ne_nil_of_length_pos (by rw [writeWords_length]; omega)
  have hpush : txPushAll (writeWords s len) s = .error .txFifoOverflow :=
    (txPushAll_eq _ s (.inl hne)).trans (if_neg (by omega))
  have htransfer : writeTransfer len s = .fault .txFifoOverflow := by
    unfold writeWords at hpush
    rw [writeTransfer, if_neg (transferLen_ne_zero hlen), hpush]
  simp [exec, execUsbWrite, whenUsbFree, hb, htransfer]

/-- Settles O38: the address is looked at before the length, and the length before the words are pushed. -/
theorem transferErrorsAndOverflow : Obligations.TransferErrorsAndOverflow := by
  unfold Obligations.TransferErrorsAndOverflow
  refine fun s d idx len hb => ⟨fun ha => ?_, fun hd h0 hlen => ?_, fun hd h0 hlen hfull => ?_, fun ha => ?_,
    fun hd h0 hlen => ?_⟩
  · exact ⟨_, exec_usbWrite_next.mpr ⟨hb, .inl ⟨ha, rfl⟩⟩, rfl, answers_error .invalidEndpoint [] rfl⟩
  · exact ⟨_, exec_usbWrite_next.mpr ⟨hb, .inr (.inl ⟨⟨hd, h0⟩, transferLen_eq_zero.mpr hlen, rfl⟩)⟩, rfl,
      answers_error .wouldBlock [] rfl⟩
  · subst hd h0
    exact exec_usbWrite_overflow hb hlen (writeWords_length s len ▸ hfull)
  · exact ⟨_, exec_usbRead_next.mpr ⟨hb, .inl ⟨ha, rfl⟩⟩, rfl, answers_error .invalidEndpoint [] rfl⟩
  · exact ⟨_, exec_usbRead_next.mpr ⟨hb, .inr (.inl ⟨⟨hd, h0⟩, transferLen_eq_zero.mpr hlen, rfl⟩)⟩, rfl,
      answers_error .wouldBlock [] rfl⟩

/-! ### USB.READ -/

/-- A pop takes the words received, oldest first. -/
theorem rxPopN_received {k i : Nat} {w : FifoWord} (hi : i < k) (hw : s.usb.rxf[i]? = some w) :
    (rxPopN k s).1[i]? = some w := by
  obtain ⟨hlt, -⟩ := List.getElem?_eq_some_iff.mp hw
  rw [rxPopN_eq, List.getElem?_append_left (by rw [List.length_take]; omega), List.getElem?_take_of_lt hi, hw]

/-- Once the FIFO ran dry a pop draws free values (20_memory.md R43). -/
theorem rxPopN_free {k i : Nat} (hi : i < k) (hdry : s.usb.rxf.length ≤ i) :
    (rxPopN k s).1[i]? = some (Config.freeWord (s.draws + (i - s.usb.rxf.length))) := by
  have hall : s.usb.rxf.take k = s.usb.rxf := List.take_of_length_le (by omega)
  rw [rxPopN_eq, hall, List.getElem?_append_right hdry, List.getElem?_map, List.getElem?_range (by omega)]
  rfl

/-- BUF after USB.READ wrote the lanes of the words it popped (R143). -/
def readBuffer (s : State) (len : Nat) : Memory :=
  Memory.writeBytes s.port.buf 0 (unpack (rxPopN (ceil4 (transferLen len)) s).1 (transferLen len))

/-- USB.READ of a nonzero length from (Out, 0). -/
theorem exec_usbRead_received {len : Nat} (hb : s.usb.enBusy = false) (hlen : 0 < len) :
    exec (.usbRead .out 0 len) s = .next
      (State.deliver (some (resultWord 0 (BitVec.ofNat 16 (transferLen len)))) [] { s with
        usb := { s.usb with rxf := s.usb.rxf.drop (ceil4 (transferLen len)) },
        draws := s.draws + (ceil4 (transferLen len) - s.usb.rxf.length),
        port := { s.port with buf := readBuffer s len } }) :=
  exec_usbRead_next.mpr ⟨hb, .inr (.inr ⟨⟨rfl, rfl⟩, transferLen_ne_zero hlen, rfl⟩)⟩

theorem read_readBuffer (len a : Nat) (hm : Memory.wf s.port.buf) : Memory.read (readBuffer s len) a =
    if a < transferLen len then (unpack (rxPopN (ceil4 (transferLen len)) s).1 (transferLen len)).getD a 0
    else Memory.read s.port.buf a := by
  have hlength : (unpack (rxPopN (ceil4 (transferLen len)) s).1 (transferLen len)).length = transferLen len := by
    rw [unpack_length, rxPopN_length, ceil4_eq]; omega
  rw [readBuffer, Memory.read_writeBytes 0 a _ hm, hlength]
  simp

/-- A byte of the transfer is its lane of the word popped for it. -/
theorem read_readBuffer_lane {len a : Nat} {w : FifoWord} (hm : Memory.wf s.port.buf) (ha : a < transferLen len)
    (hw : (rxPopN (ceil4 (transferLen len)) s).1[a / 4]? = some w) :
    Memory.read (readBuffer s len) a = w.extractLsb' (8 * (a % 4)) 8 := by
  rw [read_readBuffer len a hm, if_pos ha, unpack_getD _ _ a w ha hw]

/-- The words popped reach the transfer's last byte. -/
theorem word_lt_ceil4 {n a : Nat} (h : a < n) : a / 4 < ceil4 n := by
  rw [ceil4_eq]; omega

/-- Settles O39: a byte of the transfer is a lane of a received word or of a free one; the others are not written. -/
theorem readFillsTheBuffer : Obligations.ReadFillsTheBuffer := by
  unfold Obligations.ReadFillsTheBuffer
  refine fun s len hb hlen hm => ⟨_, exec_usbRead_received hb hlen, rfl, rfl, ?_, fun a w ha hw => ?_, fun a ha hdry => ?_,
    fun a ha => ?_⟩
  · rw [← resultWord_ok]; rfl
  · exact read_readBuffer_lane hm ha (rxPopN_received (word_lt_ceil4 ha) hw)
  · exact read_readBuffer_lane hm ha (rxPopN_free (word_lt_ceil4 ha) hdry)
  · exact (read_readBuffer len a hm).trans (if_neg (Nat.not_lt.mpr ha))

end Sys2Proof.Safety
end

section
/-! The bus moves (45_usb_fifo.md R144 to R148): the guard of each, which is its rule's, and that the sequencer awaits
none of them, so that each is its effect or nothing. -/

namespace Sys2Proof.Safety

open Sys2Proof.Machine

variable {s : State}

theorem busEnumdone_enabled_iff : EnvMove.busEnumdone.enabled s = true ↔ presented s = true ∧ s.bus.resetSeen = true := by
  rw [EnvMove.enabled, Bool.and_eq_true]

theorem busIn_enabled_iff {addr : BitVec 7} {k : Nat} : (EnvMove.busIn addr k).enabled s = true ↔
    presented s = true ∧ s.usb.stall.inn = false ∧ 1 ≤ k ∧ k ≤ s.usb.txf.length ∧ addr = s.usb.addr := by
  simp [EnvMove.enabled, and_assoc]

theorem busOut_enabled_iff {addr : BitVec 7} {ws : List FifoWord} {k : Nat} : (EnvMove.busOut addr ws k).enabled s = true ↔
    presented s = true ∧ s.usb.stall.out = false ∧ k ≤ 1536 ∧ ws.length = (k + 3) / 4 ∧
      s.usb.rxf.length + ws.length ≤ 384 ∧ addr = s.usb.addr := by
  simp [EnvMove.enabled, ceil4_eq, and_assoc]

/-- A step that is a move whose effect leaves the sequencer at rest or at its wait: the guard, in the words of its rule,
decides. -/
theorem step_guarded {m : EnvMove} {rest : List Stimulus} {P : Prop} [Decidable P] (hn : NextMove s m rest)
    (hi : EnableInv (m.effect { s with inputs := rest })) (hg : m.enabled { s with inputs := rest } = true ↔ P) :
    ∃ t, step s = .next t ∧ t = if P then m.effect { s with inputs := rest } else { s with inputs := rest } :=
  ⟨_, step_env hn, (runMove_holds hi).trans (if_congr hg rfl rfl)⟩

/-- Settles O40: the effect of a bus move touches nothing that the sequencer's invariant speaks of. -/
theorem busMovesFollowTheirGuards : Obligations.BusMovesFollowTheirGuards := fun _ _ _ _ _ hi =>
  ⟨fun hn => step_guarded hn hi Iff.rfl, fun hn => step_guarded hn hi busEnumdone_enabled_iff,
    fun hn => step_guarded hn hi busIn_enabled_iff, fun hn => step_guarded hn hi busOut_enabled_iff⟩

end Sys2Proof.Safety
end

section
/-! SYS.RDREG (46_system.md R160): which numbers have a register behind them, what a read of one answers, and the refusal of
every other number. -/

namespace Sys2Proof.Safety

open Sys2Proof.Machine

variable {s : State} {n : Nat}

/-- The numbers with a register behind them (10_state.md R22 to R37). -/
theorem readRegister_isSome_iff : (readRegister n s).isSome = true ↔ n ≤ 0x0D ∨ (0x10 ≤ n ∧ n ≤ 0x12) := by
  unfold readRegister
  split
  case h_18 => -- no register
    simp only [Option.isSome_none, Bool.false_eq_true, imp_false, false_iff] at *
    omega
  all_goals simp

theorem exec_sysRdreg_refused (h : readRegister n s = none) : exec (.sysRdreg n) s = .refused .illegalRegister := by
  simp only [exec, execSysRdreg, h]

theorem wordBytes_eq (w : Word) : wordBytes w = [BitVec.ofNat 8 w.toNat, BitVec.ofNat 8 (w.toNat / 2 ^ 8),
    BitVec.ofNat 8 (w.toNat / 2 ^ 16), BitVec.ofNat 8 (w.toNat / 2 ^ 24)] := by
  simp [wordBytes, BitVec.extractLsb', Nat.shiftRight_eq_div_pow]

/-- Settles O41: the command answers where there is a register and is refused where there is none. -/
theorem registerReadHasNoSideEffect : Obligations.RegisterReadHasNoSideEffect := by
  unfold Obligations.RegisterReadHasNoSideEffect
  refine fun s n => ⟨fun hn => ?_, fun hn => ?_⟩
  · obtain ⟨v, hv⟩ := Option.isSome_iff_exists.mp ((readRegister_isSome_iff (s := s)).mpr hn)
    exact ⟨_, v, exec_sysRdreg_next.mpr ⟨v, hv, rfl⟩, hv, rfl, wordBytes_eq v ▸ answers_ok _ _ rfl⟩
  · exact exec_sysRdreg_refused (Option.not_isSome_iff_eq_none.mp (mt readRegister_isSome_iff.mp hn))

end Sys2Proof.Safety
end

section
/-! Ports and their owners (60_exceptions.md R184, R187): who may issue which command, by the port it stands on. -/

namespace Sys2Proof.Safety

open Sys2Proof.Machine

variable {s : State} {c : Context} {i : Instr}

/-- The capture port's commands but CAP.MEASURE, and the producer port's, are the timer context's alone. -/
theorem ownsPort_timerOnly (hi : i = .capCapture ∨ i = .tmrAck ∨ i = .qEnq ∨ ∃ ch v, i = .fltPush ch v) :
    ownsPort c i s = true ↔ c = .timer := by
  obtain rfl | rfl | rfl | ⟨ch, v, rfl⟩ := hi <;> exact beq_iff_eq

/-- CAP.MEASURE is the timer context's, and Idle's while boot has not issued it (log 12). -/
theorem ownsPort_capMeasure : ownsPort c .capMeasure s = true ↔ c = .timer ∨ c = .idle ∧ s.host.boot = true := by
  simp [ownsPort]

/-- Q.DEQ is never the timer context's, and only its first user's (log 13). -/
theorem ownsPort_qDeq : ownsPort c .qDeq s = true ↔
    c ≠ .timer ∧ (s.host.consumer = none ∨ s.host.consumer = some c) := by
  simp [ownsPort]

/-- The USB unit is the lock holder's, and anyone's while no lock is held (log 14). -/
theorem ownsPort_isUsb (hi : i.isUsb = true) :
    ownsPort c i s = true ↔ s.host.usbLock = none ∨ s.host.usbLock = some c := by
  cases i with
  | usbEnable | usbReset | usbAlloc | usbWrite | usbRead | usbSetaddr | usbSetstall | usbIsstalled | usbPoll =>
    simp [ownsPort]
  | _ => exact nomatch hi

/-- Read-only commands and Q.SPLIT may come from any context (log 30). -/
theorem ownsPort_shared (hi : i = .qLen ∨ i = .qSplit ∨ (∃ ch, i = .fltRaw ch ∨ i = .fltMean ch ∨ i = .fltMax ch) ∨
    ∃ n, i = .sysRdreg n) : ownsPort c i s = true := by
  obtain rfl | rfl | ⟨ch, rfl | rfl | rfl⟩ | ⟨n, rfl⟩ := hi <;> rfl

/-- Settles O6: a command runs exactly where its issuer owns its port, and who owns which port is said port by port. -/
theorem portsBelongToTheirOwners : Obligations.PortsBelongToTheirOwners := by
  unfold Obligations.PortsBelongToTheirOwners
  intro s c w buf i hd
  have refused (h : ¬ ownsPort c i s = true) : runCommand c w buf s = .refused (.hostProtocol .notOwner) :=
    runCommand_notOwner hd (Bool.not_eq_true _ ▸ h)
  refine ⟨fun hi hc => refused (mt (ownsPort_timerOnly hi).mp hc), ?_, ?_, fun hi ⟨d, hd, hne⟩ => refused ?_,
    fun h => runCommand_owner hd ?_⟩
  · rintro rfl hc hboot
    refine refused (mt ownsPort_capMeasure.mp ?_)
    rintro (ht | ⟨hidle, hb⟩)
    · exact hc ht
    · exact hboot.elim (· hidle) (by simp [hb])
  · rintro rfl hother
    refine refused (mt ownsPort_qDeq.mp ?_)
    rintro ⟨ht, hfree⟩
    obtain rfl | ⟨d, hd, hne⟩ := hother
    · exact ht rfl
    · simp [hd, hne] at hfree
  · rw [ownsPort_isUsb hi, hd]
    simp [hne]
  · rcases h with ⟨rfl | hi, hc⟩ | ⟨rfl, hboot⟩ | ⟨rfl, hcons⟩ | ⟨hi, hlock⟩ | hi
    · exact ownsPort_capMeasure.mpr (.inl hc)
    · exact (ownsPort_timerOnly hi).mpr hc
    · exact ownsPort_capMeasure.mpr (.inr hboot)
    · exact ownsPort_qDeq.mpr hcons
    · exact (ownsPort_isUsb hi).mpr hlock
    · exact ownsPort_shared hi

end Sys2Proof.Safety
end

section
/-! The host going on while no handler is due, branch by branch (60_exceptions.md R174, R180 to R188, logs 1, 11, 14, 15, 29):
the running context waits, takes its next step, looks at the Configured input, or ends. -/

namespace Sys2Proof.Machine

open Sys2Proof.Safety

section
variable {s : State} {c : Context} {more : List HandlerStep} {below : List Activation} (hd : NoneDue s)

include hd

/-- A context blocked in USB.ENABLE goes on waiting (log 29). -/
theorem hostTurn_hung (hh : hung s = true) : hostTurn s = .next s := by
  simp [hostTurn, due_eq_none.mpr hd, hh]

/-- A context with no step of its own left ends, unless it holds the lock. -/
theorem hostTurn_end (hh : hung s = false) (hp : pendingSteps s = []) : hostTurn s = .next (endHandler s) := by
  simp [hostTurn, due_eq_none.mpr hd, hh, hp]

theorem hostTurn_pendUsb (hh : hung s = false) (ha : s.host.active = ⟨c, .pendUsb :: more⟩ :: below) :
    hostTurn s = .next { s with host := { s.host with active := ⟨c, more⟩ :: below, usbPend := true } } := by
  simp [hostTurn, due_eq_none.mpr hd, hh, pendingSteps, ha, dropStep_eq, dropped, runHostAct]

/-- The look at a configured device flips the latch and brings the new phase's report (60_exceptions.md R186). -/
theorem hostTurn_reports (hh : hung s = false) (ha : s.host.active = ⟨c, .reportIfConfigured :: more⟩ :: below)
    (hc : s.host.configured = true) : hostTurn s = .next { s with host := { s.host with
      latch := !s.host.latch, active := ⟨c, rtcReport (!s.host.latch) ++ more⟩ :: below } } := by
  simp [hostTurn, due_eq_none.mpr hd, hh, pendingSteps, ha, dropStep_eq, dropped, reportIfConfigured_eq, hc, added]

/-- The look at a device that is not configured brings nothing. -/
theorem hostTurn_unconfigured (hh : hung s = false) (ha : s.host.active = ⟨c, .reportIfConfigured :: more⟩ :: below)
    (hc : s.host.configured = false) :
    hostTurn s = .next { s with host := { s.host with active := ⟨c, more⟩ :: below } } := by
  simp [hostTurn, due_eq_none.mpr hd, hh, pendingSteps, ha, dropStep_eq, dropped, reportIfConfigured_eq, hc]

end

section
variable {s : State}

/-- Idle has nothing of its own to end, and a holder of the lock does not end (log 14). -/
theorem endHandler_stays (h : s.host.active = [] ∨ s.host.usbLock ≠ none) : endHandler s = s := by
  unfold endHandler
  split
  · rfl
  · rename_i hl
    obtain ha | hl' := h
    · rw [ha, List.tail_nil, ← ha]
    · exact absurd (Option.isSome_iff_ne_none.mpr hl') hl

theorem endHandler_unlocked (h : s.host.usbLock = none) :
    endHandler s = { s with host := { s.host with active := s.host.active.tail } } := by
  simp [endHandler, h]

end

end Sys2Proof.Machine

namespace Sys2Proof.Safety

open Sys2Proof.Machine

variable {s t : State} {c : Context} {rest : List Stimulus}

/-! ### Running to completion -/

/-- Idle is below every other context (60_exceptions.md R178). -/
theorem idle_prio_lt (hc : c ≠ .idle) : Context.idle.prio < c.prio := by
  cases c with
  | idle => exact absurd rfl hc
  | usb | timer | rtc => decide

/-- A handler that ended is due again where its request still stands, none is higher and what runs now is below it: a line
that is still asserted restarts it (60_exceptions.md R182). -/
theorem Due.of_below {below : List Activation} (hl : s.host.usbLock = none) (hreq : requested c s = true)
    (hmax : ∀ d, requested d s = true → d.prio ≤ c.prio) (hbelow : ∀ x ∈ below, x.ctx.prio < c.prio) :
    Due c { s with inputs := rest, host := { s.host with active := below } } := by
  have hsame (d : Context) :
      requested d { s with inputs := rest, host := { s.host with active := below } } = requested d s := by cases d <;> rfl
  refine ⟨(hsame c).trans hreq, fun d hd => hmax d ((hsame d).symm.trans hd), ?_, hl⟩
  cases below with
  | nil => exact idle_prio_lt (by rintro rfl; exact nomatch hreq)
  | cons x xs => exact hbelow x List.mem_cons_self

/-- Settles O57: one lemma per branch of the host's turn, on the state without the consumed turn. -/
theorem handlersRunToCompletion : Obligations.HandlersRunToCompletion := by
  unfold Obligations.HandlersRunToCompletion
  intro s rest hi hd
  have turn := step_hostTurn hi
  have hd' : NoneDue { s with inputs := rest } := hd
  have hung_stays (hh : hung s = true) : step s = .next { s with inputs := rest } := turn.trans (hostTurn_hung hd' hh)
  have ends (hh : hung s = false) (hp : pendingSteps s = []) : step s = .next (endHandler { s with inputs := rest }) :=
    turn.trans (hostTurn_end hd' hh hp)
  refine ⟨hung_stays, fun ha => ?_, fun hh a todo below ha => ⟨?_, ?_, ?_, ?_⟩⟩
  · cases hh : hung s with
    | true => exact hung_stays hh
    | false => rw [ends hh (by simp [pendingSteps, ha]), endHandler_stays (s := { s with inputs := rest }) (.inl ha)]
  · rintro w b more rfl
    exact step_ownCommand hi hd hh ha
  · rintro more rfl
    exact turn.trans (hostTurn_pendUsb hd' hh ha)
  · rintro rfl hl
    rw [ends hh (by simp [pendingSteps, ha]), endHandler_stays (s := { s with inputs := rest }) (.inr hl)]
  · rintro rfl hl
    refine ⟨_, ?_, rfl, fun hreq hmax hbelow => .of_below hl hreq hmax hbelow⟩
    rw [ends hh (by simp [pendingSteps, ha]), endHandler_unlocked (s := { s with inputs := rest }) hl]
    simp only [ha, List.tail_cons]

/-! ### The RTC handler -/

/-- The buffer of the RTC handler's report, key-down or key-up. -/
def reportBuffer (down : Bool) : Memory := hidReport (if down then Config.usageKeyDown else Config.usageKeyUp)

theorem rtcReport_eq (latch : Bool) : rtcReport latch = [.cmd 0x43800002 (reportBuffer latch), .pendUsb] := rfl

/-- The report's two bytes, low byte first: E2 00 key-down, 00 00 key-up (60_exceptions.md R188, log 17). -/
theorem read_reportBuffer (down : Bool) :
    Memory.read (reportBuffer down) 0 = (if down then 0xE2 else 0x00) ∧ Memory.read (reportBuffer down) 1 = 0 := by
  cases down <;> decide

/-- Settles O59: the start is the due handler's, the look is its branch of the host's turn, and the report's bytes are those
of the flipped latch. -/
theorem rtcHandlerAlternatesReports : Obligations.RtcHandlerAlternatesReports := by
  unfold Obligations.RtcHandlerAlternatesReports
  refine fun s rest hi => ⟨fun hdue => ?_, fun hd hh a more below ha => ?_⟩
  · obtain ⟨k, hk, rfl⟩ := hostTurn_of_due (c := .rtc) (s := { s with inputs := rest }) hdue
    exact (step_hostTurn hi).trans hk
  · have hd' : NoneDue { s with inputs := rest } := hd
    refine ⟨fun hc => ⟨reportBuffer (!s.host.latch), ?_, ?_⟩, fun hc => ?_⟩
    · rw [step_hostTurn hi, hostTurn_reports hd' hh ha hc, rtcReport_eq]
      rfl
    · obtain ⟨h0, h1⟩ := read_reportBuffer (!s.host.latch)
      exact ⟨h0.trans (by cases s.host.latch <;> rfl), h1⟩
    · exact (step_hostTurn hi).trans (hostTurn_unconfigured hd' hh ha hc)

end Sys2Proof.Safety
end

section
/-! The ceiling lock and the host's inputs (60_exceptions.md R177, R181 to R183, R186, logs 14 to 16). -/

namespace Sys2Proof.Safety

open Sys2Proof.Machine

variable {s t : State} {c d : Context} {a : HostAct} {rest : List Stimulus}

theorem noneDue_of_locked (hl : s.host.usbLock ≠ none) : NoneDue s := fun _ ⟨_, _, _, hfree⟩ => hl hfree

/-- Under the lock only the running context may act. -/
theorem running_of_mayAct_locked (hm : mayAct c s = true) (hl : s.host.usbLock ≠ none) : c = running s := by
  obtain ⟨-, -, ⟨hc, -⟩ | ⟨-, hfree⟩⟩ := mayAct_iff.mp hm
  · exact hc
  · exact absurd hfree hl

/-- A handler's own command is the running context's. -/
theorem ownCommand_running {w : Word} {buf : Memory} (h : ownCommand s = some (d, w, buf)) : d = running s := by
  unfold ownCommand at h
  split at h
  · simp only [Option.some.injEq, Prod.mk.injEq] at h
    exact h.1.symm
  · exact nomatch h

/-- The next command is the running context's own, or that of a context that may act. -/
theorem nextCommand_issuer {w : Word} {buf : Memory} (h : nextCommand s = some (d, w, buf)) :
    d = running s ∨ mayAct d s = true := by
  unfold nextCommand at h
  split at h
  · exact .inl (ownCommand_running h)
  · exact .inl (ownCommand_running h)
  · split at h
    · rename_i hm
      simp only [Option.some.injEq, Prod.mk.injEq] at h
      exact .inr (h.1 ▸ hm)
    · exact .inl (ownCommand_running h)
  · exact nomatch h
  · split at h
    · exact nomatch h
    · exact .inl (ownCommand_running h)

/-- The host's waiting act happens once it can. -/
theorem step_hostAct (hi : s.inputs = .host a :: rest) (hr : ready (.host a) s = true) :
    step s = runHostAct a (enterActor (.host a) { s with inputs := rest }) := by
  simp only [step, advance, hi, hr, if_true, runStimulus]

/-- Taking the lock: the context runs and holds it, unless the unit is taken. -/
theorem step_lock (hi : s.inputs = .host (.lock c) :: rest) (hm : mayAct c s = true) : step s =
    if s.usb.enBusy || s.host.usbLock.isSome then .refused (.hostProtocol .lockDiscipline) else
      .next { s with inputs := rest, host := { s.host with usbLock := some c, active := entered c s } } := by
  rw [step_hostAct hi hm, enterActor_eq]
  rfl

/-- Giving it back: only the holder can. -/
theorem step_unlock (hi : s.inputs = .host (.unlock c) :: rest) (hm : mayAct c s = true) : step s =
    if s.host.usbLock == some c then
      .next { s with inputs := rest, host := { s.host with usbLock := none, active := entered c s } }
    else .refused (.hostProtocol .lockDiscipline) := by
  rw [step_hostAct hi hm, enterActor_eq]
  rfl

/-- Settles O58: under the lock a context may act only if it runs; each act of the host is then its own equation. -/
theorem lockExcludesOtherContexts : Obligations.LockExcludesOtherContexts := by
  unfold Obligations.LockExcludesOtherContexts
  refine fun s rest => ⟨fun hl => ⟨noneDue_of_locked hl, fun d w b h => ?_⟩, fun c hi hm => ⟨fun hb hl => ?_, fun h => ?_⟩,
    fun c hi hm => ⟨fun hl => ?_, fun hl => ?_⟩, fun hi => step_hostAct hi rfl, fun hi => step_hostAct hi rfl,
    fun b hi => step_hostAct hi rfl⟩
  · exact (nextCommand_issuer h).elim id (running_of_mayAct_locked · hl)
  · exact ⟨_, (step_lock hi hm).trans (if_neg (by simp [hb, hl])), running_entered c s, rfl⟩
  · rw [step_lock hi hm, if_pos]
    simpa [Option.isSome_iff_ne_none] using h
  · have hc := running_of_mayAct_locked hm (by simp [hl])
    rw [step_unlock hi hm, if_pos (by simp [hl]), entered, if_pos hc]
  · rw [step_unlock hi hm, if_neg (by simpa using hl)]

end Sys2Proof.Safety
end

section
/-! The contexts at work under every step (60_exceptions.md R174, R178, R181, R182): a context is put above those at work only
from a higher priority, takes its own steps from the front of its list, and leaves when nothing waits for it. -/

namespace Sys2Proof.Safety

open Sys2Proof.Machine

variable {s t : State} {c : Context} {todo more : List HandlerStep} {below : List Activation}

/-! ### The rest of a handler -/

theorem OwnSteps.nil (hc : c ≠ .idle) : OwnSteps ⟨c, []⟩ := by
  cases c with
  | idle => exact absurd rfl hc
  | usb | timer => exact List.nil_suffix
  | rtc => exact .inl List.nil_suffix

theorem OwnSteps.ne_idle {a : Activation} (h : OwnSteps a) : a.ctx ≠ .idle := by
  rintro ha
  simp [OwnSteps, ha] at h

/-- What is left of a handler's rest is its rest. -/
theorem OwnSteps.suffix (h : OwnSteps ⟨c, todo⟩) (hx : more <:+ todo) : OwnSteps ⟨c, more⟩ := by
  cases c with
  | idle => exact h.elim
  | usb | timer => exact hx.trans h
  | rtc => exact h.imp hx.trans fun ⟨b, hb⟩ => ⟨b, hx.trans hb⟩

/-- Only the RTC handler looks at the Configured input, and last. -/
theorem OwnSteps.reportIfConfigured (h : OwnSteps ⟨c, .reportIfConfigured :: more⟩) : c = .rtc ∧ more = [] := by
  cases c with
  | idle => exact h.elim
  | usb => simp [OwnSteps, usbIsr, HandlerStep.issue, List.suffix_cons_iff] at h
  | timer => simp [OwnSteps, timerIsr, HandlerStep.issue, List.suffix_cons_iff] at h
  | rtc =>
    simpa [OwnSteps, rtcIsr, rtcDrain, rtcReport, HandlerStep.issue, List.suffix_cons_iff] using h

/-! ### The invariant's parts -/

/-- No context at work is above the running one. -/
theorem ContextInv.prio_le_running {a : Activation} (hs : ContextInv s) (ha : a ∈ s.host.active) :
    a.ctx.prio ≤ (running s).prio := by
  obtain ⟨hnest, -⟩ := hs
  unfold running
  split
  · rename_i hb
    exact absurd ha (by simp [hb])
  · rename_i b below hb
    rw [hb] at ha hnest
    obtain rfl | hmem := List.mem_cons.mp ha
    · exact le_rfl
    · exact (List.rel_of_pairwise_cons hnest hmem).le

/-- Three contexts are above Idle, each at work at most once. -/
theorem ContextInv.length_le (hs : ContextInv s) : s.host.active.length ≤ 3 := by
  obtain ⟨hnest, hown, -⟩ := hs
  have hnodup : (s.host.active.map Activation.ctx).Nodup :=
    List.pairwise_map.mpr (hnest.imp fun hlt heq => hlt.ne (congrArg Context.prio heq.symm))
  have hmem : s.host.active.map Activation.ctx ⊆ [.usb, .timer, .rtc] := by
    intro c hc
    obtain ⟨a, ha, rfl⟩ := List.mem_map.mp hc
    have hne := (hown a ha).ne_idle
    cases hctx : a.ctx with
    | idle => exact absurd hctx hne
    | usb | timer | rtc => simp
  simpa using (hnodup.subperm hmem).length_le

theorem ContextInv.ownSteps_running {a : Activation} (hs : ContextInv s) (ha : s.host.active = a :: below) : OwnSteps a := by
  obtain ⟨-, hown, -⟩ := hs
  exact hown a (ha ▸ List.mem_cons_self)

/-- The running context is Idle or at work. -/
theorem running_atWork (s : State) : running s = .idle ∨ ∃ a ∈ s.host.active, a.ctx = running s := by
  unfold running
  split
  · exact .inl rfl
  · rename_i a below ha
    exact .inr ⟨a, by simp [ha], rfl⟩

/-- The invariant looks at who is at work, who holds the lock, and who issued a running USB.ENABLE: it is kept where the first
two are, and a USB.ENABLE that runs is the running context's or was running. -/
theorem ContextInv.of_issuer (hs : ContextInv s) (hactive : t.host.active = s.host.active)
    (hlock : t.host.usbLock = s.host.usbLock) (hissuer : t.usb.enBusy = true →
      t.usb.enIssuer = running s ∨ s.usb.enBusy = true ∧ t.usb.enIssuer = s.usb.enIssuer) : ContextInv t := by
  obtain ⟨hnest, hown, hholder, hatwork⟩ := hs
  have hrun : running t = running s := by simp [running, hactive]
  rw [ContextInv, hactive, hlock, hrun]
  refine ⟨hnest, hown, hholder, fun hb => ?_⟩
  obtain h | ⟨hb, h⟩ := hissuer hb
  · exact h ▸ running_atWork s
  · exact h ▸ hatwork hb

/-! ### Changes of who is at work -/

/-- A context above the running one may be put above those at work while no lock is held. -/
theorem ContextInv.push (hs : ContextInv s) (hp : (running s).prio < c.prio) (hl : s.host.usbLock = none)
    (ho : OwnSteps ⟨c, todo⟩) : ContextInv { s with host := { s.host with active := ⟨c, todo⟩ :: s.host.active } } := by
  have hbelow (a) (ha : a ∈ s.host.active) : a.ctx.prio < c.prio := (hs.prio_le_running ha).trans_lt hp
  obtain ⟨hnest, hown, -, hissuer⟩ := hs
  refine ⟨List.pairwise_cons.mpr ⟨hbelow, hnest⟩, List.forall_mem_cons.mpr ⟨ho, hown⟩, ?_, fun hb => ?_⟩
  · simp [hl]
  · exact (hissuer hb).imp_right fun ⟨a, ha, hctx⟩ => ⟨a, List.mem_cons_of_mem _ ha, hctx⟩

/-- The running context's own list may become any other rest of its handler. -/
theorem ContextInv.setTodo (hs : ContextInv s) (ha : s.host.active = ⟨c, todo⟩ :: below) (ho : OwnSteps ⟨c, more⟩) :
    ContextInv { s with host := { s.host with active := ⟨c, more⟩ :: below } } := by
  obtain ⟨hnest, hown, hlock, hissuer⟩ := hs
  rw [ha] at hnest hown hissuer
  obtain ⟨hbelow, hnest'⟩ := List.pairwise_cons.mp hnest
  refine ⟨List.pairwise_cons.mpr ⟨hbelow, hnest'⟩,
    List.forall_mem_cons.mpr ⟨ho, (List.forall_mem_cons.mp hown).2⟩, fun d hd => ?_, fun hb => ?_⟩
  · exact hlock d hd ▸ by simp [running, ha]
  · simpa using hissuer hb

theorem ContextInv.entered (hs : ContextInv s) (hm : mayAct c s = true) :
    ContextInv { s with host := { s.host with active := entered c s } } := by
  unfold Machine.entered
  split
  · exact hs
  · rename_i hne
    obtain ⟨-, -, ⟨hc, -⟩ | ⟨hp, hl⟩⟩ := mayAct_iff.mp hm
    · exact absurd hc hne
    · exact hs.push hp hl (.nil (by rintro rfl; exact Nat.not_lt_zero _ hp))

/-- The first of the running context's own steps is taken. -/
theorem ContextInv.dropped (hs : ContextInv s) :
    ContextInv { s with host := { s.host with active := dropped s.host.active } } := by
  match ha : s.host.active with
  | [] => rw [Machine.dropped, ← ha]; exact hs
  | ⟨c, todo⟩ :: below =>
    exact hs.setTodo ha ((hs.ownSteps_running ha).suffix (List.tail_suffix _))

/-- A due handler starts with the whole of its expansion. -/
theorem ContextInv.startHandler (hs : ContextInv s) (hdue : Due c s) : ContextInv (startHandler c s) := by
  have hne := hdue.ne_idle
  obtain ⟨-, -, hp, hl⟩ := hdue
  cases c with
  | idle => exact absurd rfl hne
  | usb => exact hs.push hp hl (todo := usbIsr) List.suffix_rfl
  | timer => exact hs.push hp hl (todo := timerIsr) List.suffix_rfl
  | rtc => exact hs.push hp hl (todo := rtcIsr) (.inl List.suffix_rfl)

/-- The report is what the RTC handler does next, in place of its look. -/
theorem ContextInv.reportIfConfigured (hs : ContextInv s) (hp : pendingSteps s = .reportIfConfigured :: more) :
    ContextInv (reportIfConfigured { s with host := { s.host with active := Machine.dropped s.host.active } }) := by
  match ha : s.host.active with
  | [] => simp [pendingSteps, ha] at hp
  | ⟨c, todo⟩ :: below =>
    obtain rfl : todo = .reportIfConfigured :: more := by simpa [pendingSteps, ha] using hp
    obtain ⟨rfl, rfl⟩ := (hs.ownSteps_running ha).reportIfConfigured
    rw [reportIfConfigured_eq]
    split
    · exact hs.setTodo ha (more := rtcReport (!s.host.latch)) (.inr ⟨_, List.suffix_rfl⟩)
    · exact hs.setTodo ha (more := []) (.inl List.nil_suffix)

/-- A handler that ends is not the issuer of a running USB.ENABLE: that one is blocked. -/
theorem ContextInv.endHandler (hs : ContextInv s) (hh : hung s = false) : ContextInv (endHandler s) := by
  by_cases hl : s.host.usbLock = none
  · rw [endHandler_unlocked hl]
    obtain ⟨hnest, hown, -, hissuer⟩ := hs
    refine ⟨hnest.sublist (List.tail_sublist _), fun a ha => hown a (List.mem_of_mem_tail ha), by simp [hl], fun hb => ?_⟩
    refine (hissuer hb).imp_right fun ⟨a, ha, hctx⟩ => ⟨a, ?_, hctx⟩
    match hact : s.host.active with
    | [] => simp [hact] at ha
    | b :: below =>
      have hne : a ≠ b := by
        rintro rfl
        simp [hung, running, hact, hctx, show s.usb.enBusy = true from hb] at hh
      rw [hact] at ha
      exact (List.mem_cons.mp ha).resolve_left hne
  · rwa [endHandler_stays (.inr hl)]

/-! ### Commands, moves and acts -/

/-- A running USB.ENABLE has been issued with this command, or was running before it. -/
theorem exec_enIssuer {i : Instr} (h : exec i s = .next t) (hb : t.usb.enBusy = true) :
    t.usb.enIssuer = s.port.issuer ∨ s.usb.enBusy = true ∧ t.usb.enIssuer = s.usb.enIssuer := by
  by_cases hi : i = .usbEnable
  · subst hi
    obtain ⟨-, rfl⟩ := exec_usbEnable_next.mp h
    obtain ⟨-, -, -, -, -, -, -, -, -, -, -, hissuer⟩ := enableRun_frame 16 (enableStart s)
    exact .inl hissuer
  · obtain ⟨-, husb⟩ := sessionOnly_of_exec hi h
    rw [husb] at hb ⊢
    exact .inr ⟨hb, rfl⟩

theorem ContextInv.exec_issued {i : Instr} {w : Word} {buf : Memory} (hs : ContextInv s) (hrun : running s = c)
    (h : exec i (latchRequest c w buf (noteIssue c i s)) = .next t) : ContextInv t := by
  have hlock : t.host.usbLock = s.host.usbLock := by rw [(exec_host_inputs h).1, latchRequest_host, noteIssue_usbLock]
  refine hs.of_issuer (exec_issued_active h) hlock fun hb => ?_
  simpa [hrun] using exec_enIssuer h hb

/-- The sequencer going on keeps its issuer, and runs only where it did. -/
theorem enableResume_issuer (s : State) : (enableResume s).usb.enIssuer = s.usb.enIssuer ∧
    ((enableResume s).usb.enBusy = true → s.usb.enBusy = true) := by
  unfold enableResume
  split
  · obtain ⟨-, -, -, -, -, -, -, -, -, -, -, hissuer⟩ := enableRun_frame 16 s
    exact ⟨hissuer, fun _ => ‹_›⟩
  · exact ⟨rfl, id⟩

/-- A move leaves who is at work, except that a hardware reset puts nobody at work. -/
theorem ContextInv.runMove (m : EnvMove) (hs : ContextInv s) : ContextInv (runMove m s) := by
  unfold Machine.runMove
  split
  · have heffect : ContextInv (m.effect s) := by
      cases m with
      | hardwareReset => exact ⟨.nil, nofun, nofun, nofun⟩
      | _ => exact hs
    obtain ⟨-, hhost, -⟩ := enableResume_buf_host_inputs (m.effect s)
    obtain ⟨hissuer, hbusy⟩ := enableResume_issuer (m.effect s)
    exact heffect.of_issuer (by rw [hhost]) (by rw [hhost]) fun hb => .inr ⟨hbusy hb, hissuer⟩
  · exact hs

/-- The context of a step that can happen runs. -/
theorem running_enterActor {x : Stimulus} (hx : actor x = some c) : running (enterActor x s) = c := by
  rw [enterActor_eq, hx]
  exact running_entered c s

theorem ContextInv.enterActor {x : Stimulus} (hs : ContextInv s) (hr : ready x s = true) : ContextInv (enterActor x s) := by
  rw [enterActor_eq]
  unfold ready at hr
  cases hx : actor x with
  | none => exact hs
  | some c => exact hs.entered (by simpa [hx] using hr)

/-- Taking the lock makes the running context its holder; giving it back leaves none. -/
theorem ContextInv.runHostAct {a : HostAct} (hs : ContextInv s) (hrun : ∀ d, actor (.host a) = some d → running s = d)
    (h : runHostAct a s = .next t) : ContextInv t := by
  obtain ⟨hnest, hown, hholder, hissuer⟩ := hs
  cases a with
  | lock c =>
    simp only [Machine.runHostAct, breach] at h
    split at h
    · exact nomatch h
    · obtain rfl := next_eq_next.mp h
      exact ⟨hnest, hown, fun d hd => (hrun c rfl).trans (Option.some.inj hd), hissuer⟩
  | unlock c =>
    simp only [Machine.runHostAct, breach] at h
    split at h
    · obtain rfl := next_eq_next.mp h
      exact ⟨hnest, hown, nofun, hissuer⟩
    · exact nomatch h
  | pendUsb | rtcMatch | setConfigured =>
    obtain rfl := next_eq_next.mp h
    exact ⟨hnest, hown, hholder, hissuer⟩

theorem step_keeps_contextInv (hs : ContextInv s) (h : step s = .next t) : ContextInv t := by
  cases step_to h with
  | move m rest => exact ContextInv.runMove (s := { s with inputs := rest }) m hs
  | command c w buf rest i _ _ hm _ _ he =>
    exact ContextInv.exec_issued (s := { s with inputs := rest, host := { s.host with active := entered c s } })
      (hs.entered hm) (running_entered c s) he
  | ownCommand w buf more xs i _ _ _ _ _ _ _ _ he =>
    exact ContextInv.exec_issued (s := { s with inputs := xs, host := { s.host with active := dropped s.host.active } })
      hs.dropped (running_dropped s) he
  | ownPend more xs => exact hs.dropped
  | report more xs _ _ hp => exact ContextInv.reportIfConfigured (s := { s with inputs := xs }) hs hp
  | start c xs hdue => exact ContextInv.startHandler (s := { s with inputs := xs }) hs hdue
  | finish xs _ hh => exact ContextInv.endHandler (s := { s with inputs := xs }) hs hh
  | waits xs => exact hs
  | act a rest _ _ hr he =>
    exact (ContextInv.enterActor (s := { s with inputs := rest }) hs hr).runHostAct (fun _ hx => running_enterActor hx) he

/-- Settles O52: every step keeps the nesting by strict priority, and of the three contexts above Idle each is then at work
at most once. -/
theorem stepKeepsTheContexts : Obligations.StepKeepsTheContexts := fun _ _ hs h =>
  have ht := step_keeps_contextInv hs h
  ⟨ht, ht.length_le⟩

end Sys2Proof.Safety
end

section
/-! Hardware reset (70_reset_and_hazards.md R200, R201): as a move it powers the block on with the drawn bits, the link is then
down, and the state it leaves meets every invariant. -/

namespace Sys2Proof.Safety

open Sys2Proof.Machine

variable {s : State}

/-! ### With the link down -/

theorem LinkDown.irqUsb_low (hd : LinkDown s) : irqUsb s = false := by
  obtain ⟨-, -, -, hginten, -⟩ := hd
  rw [irqUsb, hginten, Bool.false_and]

theorem LinkDown.sessionPhase_detached (hd : LinkDown s) : sessionPhase s = .detached := by
  obtain ⟨hl, -⟩ := hd
  simp [sessionPhase, presented, hl]

theorem linkDown_powerOn (c a : Bool) (n : BitVec 4) (s : State) : LinkDown (powerOn c a n s) :=
  ⟨rfl, rfl, rfl, rfl, rfl⟩

/-! ### The move -/

/-- Hardware reset is always enabled, and no USB.ENABLE runs after it that could go on. -/
theorem runMove_hardwareReset (c a : Bool) (n : BitVec 4) (s : State) :
    runMove (.hardwareReset c a n) s = powerOn c a n s :=
  runMove_holds (m := .hardwareReset c a n) (EnableInv.resetWith c a n)

theorem step_hardwareReset {c a : Bool} {n : BitVec 4} {rest : List Stimulus}
    (hn : NextMove s (.hardwareReset c a n) rest) : step s = .next (powerOn c a n { s with inputs := rest }) := by
  rw [step_env hn, runMove_hardwareReset]

theorem powerOn_flt_get (c a : Bool) (n : BitVec 4) (s : State) (ch : Channel) :
    (powerOn c a n s).flt.get ch = FilterState.reset := by
  cases ch <;> rfl

theorem powerOn_directions (c a : Bool) (n : BitVec 4) (s : State) (d : Dir) :
    (powerOn c a n s).usb.stall.get d = false ∧ (powerOn c a n s).usb.pend.get d = false ∧
      (powerOn c a n s).usb.ctrlAlloc.get d = false ∧ (powerOn c a n s).usb.next.get d = 0 := by
  cases d <;> exact ⟨rfl, rfl, rfl, rfl⟩

/-- Settles O43: the step powers the block on; the table's rows are the fields of the power-on state, and the line and the
phase follow from the link being down. -/
theorem hardwareResetValues : Obligations.HardwareResetValues := by
  unfold Obligations.HardwareResetValues
  intro s c a n rest hn
  have hd := linkDown_powerOn c a n { s with inputs := rest }
  exact ⟨_, step_hardwareReset hn, rfl, powerOn_flt_get c a n _,
    -- acquisition, queue and PHY (R14 to R16, R22, R23)
    rfl, rfl, rfl, rfl, rfl, rfl,
    -- the USB registers, and the state each direction has (R19, R20, R24 to R30)
    rfl, rfl, rfl, rfl, rfl, rfl, rfl, rfl, rfl, powerOn_directions c a n _,
    -- FIFOs, sequencer, link, bus and USB_CAP (R21, R31 to R35)
    rfl, rfl, rfl, rfl, rfl, rfl, rfl, rfl,
    hd.irqUsb_low, rfl, hd.sessionPhase_detached⟩

/-! ### The invariants -/

theorem QueueInv.resetWith (c a : Bool) (n : BitVec 4) : QueueInv (State.resetWith c a n) := RingOk.reset

/-- The filters are those after reset, and the queue holds no frame. -/
theorem FilterInv.resetWith (c a : Bool) (n : BitVec 4) : FilterInv (State.resetWith c a n) :=
  ⟨FilterOk.reset, FilterOk.reset, nofun⟩

/-- The acquisition is Idle with both timers stopped. -/
theorem AcquisitionInv.resetWith (c a : Bool) (n : BitVec 4) : AcquisitionInv (State.resetWith c a n) :=
  ⟨nofun, iff_of_false nofun nofun, iff_of_false nofun nofun, nofun⟩

theorem FifoInv.resetWith (c a : Bool) (n : BitVec 4) : FifoInv (State.resetWith c a n) :=
  ⟨Nat.zero_le _, Nat.zero_le _, Nat.zero_le _, rfl⟩

/-- The link is down and no USB.ENABLE runs. -/
theorem LinkInv.resetWith (c a : Bool) (n : BitVec 4) : LinkInv (State.resetWith c a n) :=
  .of_down ⟨rfl, rfl, rfl, rfl, rfl⟩ nofun

/-- BUF is empty, nothing waits, and nobody is at work. -/
theorem MemoryInv.resetWith (c a : Bool) (n : BitVec 4) : MemoryInv (State.resetWith c a n) :=
  ⟨Memory.wf_nil, nofun, nofun⟩

/-- Nobody is at work, the lock is free, and no USB.ENABLE runs. -/
theorem ContextInv.resetWith (c a : Bool) (n : BitVec 4) : ContextInv (State.resetWith c a n) :=
  ⟨.nil, nofun, nofun, nofun⟩

/-- Settles O44: each invariant holds of the reset values, whatever is drawn. -/
theorem resetMeetsTheInvariants : Obligations.ResetMeetsTheInvariants :=
  ⟨rfl, fun c a n => ⟨.resetWith c a n, .resetWith c a n, .resetWith c a n, .resetWith c a n, .resetWith c a n,
    .resetWith c a n, .resetWith c a n, .resetWith c a n⟩⟩

end Sys2Proof.Safety
end
